-- ==== Sys2Proof/Word.lean ====
section
/-! DEFINITION. The word types of the core: the widths of spec/00_scope.md R8, bits numbered as R9 says. -/

namespace Sys2Proof

/-- A command word, CMDW = 32 bits (R8, R83); bit 0 is the least significant (R9). -/
abbrev Word := BitVec 32

/-- An input byte, BYTEW = 8 bits (R8). -/
abbrev Byte := BitVec 8

/-- A symbol, SYMW = 16 bits (R8). -/
abbrev Sym := BitVec 16

/-- A count or a node weight, CNTW = 32 bits (R8). -/
abbrev Count := BitVec 32

/-- A node handle, NODEW = 17 bits (R8). -/
abbrev Handle := BitVec 17

/-- A code length, CLENW = 7 bits (R8). -/
abbrev CodeLen := BitVec 7

/-- Response data, a packed code or a bit count: DATAW = CODEW = LENW = 64 bits (R8). -/
abbrev Data := BitVec 64

end Sys2Proof
end

