-- ==== Sys2Proof/Syntax.lean ====
section
/-! DEFINITION. The 17 commands of HUFENC-C1, one constructor per row of spec/opcode_table.json
(spec/30_encoding.md R88), each with the operand of its format (R84, R85). -/

namespace Sys2Proof

/-- A command. The operand types are the operand fields of R84, so no constructor holds an operand that does not fit. -/
inductive Instr where
  /-- `CLEAR` (R200). -/
  | clear
  /-- `SRCERR` (R203). -/
  | srcerr
  /-- `CNTB byte` (R112). -/
  | cntb (byte : Byte)
  /-- `CNTH sym` (R113). -/
  | cnth (sym : Sym)
  /-- `BUILD` (R134). -/
  | build
  /-- `GENCODE` (R151). -/
  | gencode
  /-- `ENCBEGIN` (R170). -/
  | encbegin
  /-- `ENCB byte` (R174). -/
  | encb (byte : Byte)
  /-- `ENCH sym` (R175). -/
  | ench (sym : Sym)
  /-- `ENCEND` (R176). -/
  | encend
  /-- `ENCSUM` (R177). -/
  | encsum
  /-- `RDREG reg` (R204). -/
  | rdreg (reg : Byte)
  /-- `RDFREQ sym` (R205). -/
  | rdfreq (sym : Sym)
  /-- `RDCLEN sym` (R206). -/
  | rdclen (sym : Sym)
  /-- `RDCODE sym` (R207). -/
  | rdcode (sym : Sym)
  /-- `RDNW node` (R208). -/
  | rdnw (node : Handle)
  /-- `RDNC node` (R209). -/
  | rdnc (node : Handle)
  deriving DecidableEq, Repr

end Sys2Proof
end

