-- ==== Sys2Proof/WellFormed.lean ====
section
/-! DEFINITION. Formats and mnemonics (spec/30_encoding.md R84, R88) and the check that an operand fits its format
(R92: "An operand that does not fit its format's field is an assembly error, not a command"). -/

namespace Sys2Proof

/-- The five formats of R84. -/
inductive Format where
  | z | b | h | n | r
  deriving DecidableEq, Repr

/-- The 17 mnemonics of R88. -/
inductive Mnemonic where
  | CLEAR | SRCERR | CNTB | CNTH | BUILD | GENCODE | ENCBEGIN | ENCB | ENCH | ENCEND | ENCSUM
  | RDREG | RDFREQ | RDCLEN | RDCODE | RDNW | RDNC
  deriving DecidableEq, Repr

/-- How many low bits of `arg` carry the operand (R84); 0 for format Z, which has none. -/
def Format.operandBits : Format → Nat
  | .z => 0
  | .b => 8
  | .h => 16
  | .n => 17
  | .r => 8

/-- The format column of R88. -/
def Mnemonic.format : Mnemonic → Format
  | .CLEAR | .SRCERR | .BUILD | .GENCODE | .ENCBEGIN | .ENCEND | .ENCSUM => .z
  | .CNTB | .ENCB => .b
  | .CNTH | .ENCH | .RDFREQ | .RDCLEN | .RDCODE => .h
  | .RDNW | .RDNC => .n
  | .RDREG => .r

/-- The mnemonic of a command (R88). -/
def Instr.mnemonic : Instr → Mnemonic
  | .clear => .CLEAR
  | .srcerr => .SRCERR
  | .cntb _ => .CNTB
  | .cnth _ => .CNTH
  | .build => .BUILD
  | .gencode => .GENCODE
  | .encbegin => .ENCBEGIN
  | .encb _ => .ENCB
  | .ench _ => .ENCH
  | .encend => .ENCEND
  | .encsum => .ENCSUM
  | .rdreg _ => .RDREG
  | .rdfreq _ => .RDFREQ
  | .rdclen _ => .RDCLEN
  | .rdcode _ => .RDCODE
  | .rdnw _ => .RDNW
  | .rdnc _ => .RDNC

/-- The operand of a command as a number; 0 for format Z. -/
def Instr.operand : Instr → Nat
  | .cntb b | .encb b | .rdreg b => b.toNat
  | .cnth s | .ench s | .rdfreq s | .rdclen s | .rdcode s => s.toNat
  | .rdnw n | .rdnc n => n.toNat
  | .clear | .srcerr | .build | .gencode | .encbegin | .encend | .encsum => 0

/-- The operand fits its format's field (R84). The operand types of `Instr` make this hold of every command. -/
def Instr.wellFormed (i : Instr) : Bool :=
  i.operand < 2 ^ i.mnemonic.format.operandBits

/-- A command as the assembler reads it (R92): a mnemonic and at most one operand, any number. -/
structure AsmLine where
  mnemonic : Mnemonic
  operand  : Option Nat
  deriving DecidableEq, Repr

/-- Format Z takes no operand; every other format takes one, and it fits the format's field (R92). -/
def AsmLine.wellFormed (l : AsmLine) : Bool :=
  match l.mnemonic.format, l.operand with
  | .z, none => true
  | .z, some _ => false
  | _, none => false
  | f, some v => v < 2 ^ f.operandBits

end Sys2Proof
end

