-- ==== Sys2Proof/Decode.lean ====
section
/-! DEFINITION. Command words: the opcode map of spec/30_encoding.md R88, the total decoder of R87 step 1 with the
two ways a word is illegal (R89, R90), and the encoder (R92: opcode x 2^24 + operand). -/

namespace Sys2Proof

/-- The opcode column of R88. -/
def Mnemonic.opcode : Mnemonic → BitVec 8
  | .CLEAR    => 0x01
  | .SRCERR   => 0x02
  | .CNTB     => 0x10
  | .CNTH     => 0x11
  | .BUILD    => 0x20
  | .GENCODE  => 0x28
  | .ENCBEGIN => 0x30
  | .ENCB     => 0x31
  | .ENCH     => 0x32
  | .ENCEND   => 0x33
  | .ENCSUM   => 0x34
  | .RDREG    => 0x40
  | .RDFREQ   => 0x41
  | .RDCLEN   => 0x42
  | .RDCODE   => 0x43
  | .RDNW     => 0x44
  | .RDNC     => 0x45

/-- Why a word is no command. -/
inductive Illegal where
  /-- The opcode is not in the map (R89). -/
  | reservedOpcode
  /-- The opcode is assigned and a must-be-zero bit is 1 (R90). -/
  | mustBeZero
  deriving DecidableEq, Repr

/-- `op`, bits 31:24 of a command word (R83). -/
def opField (w : Word) : BitVec 8 := w.extractLsb' 24 8

/-- `arg`, bits 23:0 of a command word (R83). -/
def argField (w : Word) : BitVec 24 := w.extractLsb' 0 24

/-- The mnemonic of an opcode; `none` for the 239 reserved values (R88, R89). -/
def mnemonicOf (op : BitVec 8) : Option Mnemonic :=
  [Mnemonic.CLEAR, .SRCERR, .CNTB, .CNTH, .BUILD, .GENCODE, .ENCBEGIN, .ENCB, .ENCH, .ENCEND, .ENCSUM,
    .RDREG, .RDFREQ, .RDCLEN, .RDCODE, .RDNW, .RDNC].find? fun m => m.opcode = op

/-- The command of a mnemonic with its operand taken from `arg` (R85: unsigned, as it stands). -/
def operandsOf (m : Mnemonic) (arg : BitVec 24) : Instr :=
  match m with
  | .CLEAR    => .clear
  | .SRCERR   => .srcerr
  | .CNTB     => .cntb (arg.extractLsb' 0 8)
  | .CNTH     => .cnth (arg.extractLsb' 0 16)
  | .BUILD    => .build
  | .GENCODE  => .gencode
  | .ENCBEGIN => .encbegin
  | .ENCB     => .encb (arg.extractLsb' 0 8)
  | .ENCH     => .ench (arg.extractLsb' 0 16)
  | .ENCEND   => .encend
  | .ENCSUM   => .encsum
  | .RDREG    => .rdreg (arg.extractLsb' 0 8)
  | .RDFREQ   => .rdfreq (arg.extractLsb' 0 16)
  | .RDCLEN   => .rdclen (arg.extractLsb' 0 16)
  | .RDCODE   => .rdcode (arg.extractLsb' 0 16)
  | .RDNW     => .rdnw (arg.extractLsb' 0 17)
  | .RDNC     => .rdnc (arg.extractLsb' 0 17)

/-- Every bit of `arg` above the format's operand bits is 0 (R84). -/
def mustBeZeroOk (f : Format) (arg : BitVec 24) : Bool :=
  arg >>> f.operandBits = 0

/-- R87 step 1: the command a word encodes, or why it encodes none. -/
def decode (w : Word) : Except Illegal Instr :=
  match mnemonicOf (opField w) with
  | none => .error .reservedOpcode
  | some m =>
    if mustBeZeroOk m.format (argField w) then .ok (operandsOf m (argField w)) else .error .mustBeZero

/-- The word of a command: opcode x 2^24 + operand (R92). -/
def encode (i : Instr) : Word :=
  i.mnemonic.opcode ++ BitVec.ofNat 24 i.operand

/-- The decoder on a word numbered as the opcode table numbers it. A command word is one 32-bit word moved whole
(R62), so no byte order enters; bits at and above `nbits` are 0. -/
def decodeTableWord (nbits w : Nat) : Option Instr :=
  match decode (BitVec.ofNat 32 (w % 2 ^ nbits)) with
  | .ok i => some i
  | .error _ => none

end Sys2Proof
end

