-- ==== Sys2Proof/Config.lean ====
section
/-! DEFINITION. What the implementation fixes: the parameters of spec/00_scope.md R8 at their defaults (log entry 6)
and the identity constants of spec/10_state.md R33. The core leaves no value free (spec/93, part 1). -/

namespace Sys2Proof.Config

/-- SYMW, the symbol width (R8). -/
abbrev symW : Nat := 16

/-- CNTW, the width of a count (R8), at its default. -/
abbrev cntW : Nat := 32

/-- CODEW, the longest code length (R8), at its default. -/
abbrev codeW : Nat := 64

/-- NSYMV, the number of symbol values (R8). -/
abbrev numSymbols : Nat := 2 ^ symW

/-- CNTMAX, the largest count (R8). -/
abbrev cntMax : Nat := 2 ^ cntW - 1

/-- MAXNODES, the size of the node arena (R8). -/
abbrev maxNodes : Nat := 2 * numSymbols - 1

/-- ID, the ASCII letters Z P N N (R33). -/
abbrev id : BitVec 32 := 0x5A504E4E#32

/-- CAP, the parameters SYMW, CODEW, CNTW packed in that order, a byte each (R33). -/
abbrev cap : BitVec 24 := BitVec.ofNat 8 symW ++ BitVec.ofNat 8 codeW ++ BitVec.ofNat 8 cntW

end Sys2Proof.Config
end

