-- ==== Sys2Proof/Machine/State.lean ====
section
/-! DEFINITION. The state: the registers and memories of spec/10_state.md R20, and the two ports of
spec/30_encoding.md R80 at transaction level (R7). -/

namespace Sys2Proof.Machine

/-- The values of PHASE (R23); 5, 6 and 7 never occur and are not representable (log entry 7). -/
inductive Phase where
  | count | tree | code | enc | done
  deriving DecidableEq, Repr

/-- A node record of the arena NODE (R25). -/
structure Node where
  leaf  : Bool
  wt    : Count
  sym   : Sym
  left  : Handle
  right : Handle
  deriving DecidableEq, Repr

/-- The reset value of a node record: all fields 0 (R25, R39). -/
def Node.zero : Node := ⟨false, 0, 0, 0, 0⟩

/-- A memory of entries: the (index, entry) pairs whose entry is not the reset value, indices rising. An index not
listed reads as the reset value (log entry 3). -/
abbrev Memory (α : Type) := List (Nat × α)

/-- The architectural state of the core: exactly the table of R20, in its order. -/
structure Arch where
  phase   : Phase
  half    : Bool
  hold    : Byte
  nsym    : Count
  kdist   : BitVec 17
  freq    : Memory Count
  node    : Memory Node
  nnode   : BitVec 17
  root    : Handle
  clen    : Memory CodeLen
  cbits   : Memory Data
  maxlen  : CodeLen
  nenc    : Count
  encbits : Data
  fault   : Bool
  fcause  : BitVec 4
  finfo   : BitVec 32
  deriving DecidableEq, Repr

/-- The reset value of every register and memory (R39, R260): all zero, PHASE = COUNT. -/
def Arch.reset : Arch where
  phase   := .count
  half    := false
  hold    := 0
  nsym    := 0
  kdist   := 0
  freq    := []
  node    := []
  nnode   := 0
  root    := 0
  clen    := []
  cbits   := []
  maxlen  := 0
  nenc    := 0
  encbits := 0
  fault   := false
  fcause  := 0
  finfo   := 0

/-- What the host does at the ports (R243). -/
inductive HostMove where
  /-- Send a command word and accept its response (R81, R82). -/
  | command (w : Word)
  /-- Assert `rst` between commands (R260). -/
  | reset
  /-- Send a command word and assert `rst` before its response is transferred (R261). -/
  | abandoned (w : Word)
  deriving DecidableEq, Repr

/-- A response (R86). -/
structure Response where
  err  : BitVec 4
  data : Data
  deriving DecidableEq, Repr

/-- The machine: the core's own state, and the MODEL's two fields for the ports, the host's moves still to come
(oldest first, log entry 1) and the responses transferred so far (newest first, log entry 2). -/
structure State where
  arch      : Arch
  inbox     : List HostMove
  responses : List Response
  deriving DecidableEq, Repr

/-- The machine right after reset (R39), with no host move to come and no response given. -/
def State.reset : State where
  arch      := Arch.reset
  inbox     := []
  responses := []

/-- Where the model stops. The core's own faults (spec/60_exceptions.md) are next states, none of these. -/
inductive Fault where
  /-- Raised by BUILD when KDIST is not 0 and FREQ lists no symbol, so that the queue of R134 has no member to be
  ROOT. No run from reset reaches such a state (R40 item 2). Safe: the model stops (log entry 5). -/
  | emptyQueue
  /-- Raised by GENCODE when the arena below ROOT is not a tree, so that `path` of R150 is not defined. No run from
  reset reaches such a state (R40 items 5 to 7). Safe: the model stops (log entry 5). -/
  | notATree
  deriving DecidableEq, Repr

/-- Why the model has no meaning for a command. -/
inductive Refusal where
  /-- Raised by an arm of `exec` that has no meaning yet; no arm is left that raises it. Safe: the model stops. -/
  | notModelled (mnemonic : String)
  deriving DecidableEq, Repr

end Sys2Proof.Machine
end

