-- ==== Sys2Proof/Machine/Ops.lean ====
section
/-! DEFINITION. The named operations: memories (spec/20_memory.md R60), fault entry and the return from it
(spec/60_exceptions.md R233, R238), the response (spec/30_encoding.md R82, R86), the next host move. -/

namespace Sys2Proof.Machine

/-! ### Memories: one canonical form, entries equal to the reset value `z` not listed -/

/-- `M[i]` (R10): the entry at index `i`; an index not listed holds the reset value `z` (R39). -/
def Memory.read {α : Type} (z : α) : Memory α → Nat → α
  | [], _ => z
  | (k, v) :: m, i => if k = i then v else Memory.read z m i

/-- Lists `(i, v)` before the first index above `i`. -/
def Memory.insert {α : Type} (i : Nat) (v : α) : Memory α → Memory α
  | [] => [(i, v)]
  | (k, w) :: m => if i < k then (i, v) :: (k, w) :: m else (k, w) :: Memory.insert i v m

/-- `M[i] <- v` (R10). Writing the reset value leaves the index unlisted. -/
def Memory.write {α : Type} [DecidableEq α] (z : α) (m : Memory α) (i : Nat) (v : α) : Memory α :=
  let others := m.filter fun e => e.1 ≠ i
  if v = z then others else Memory.insert i v others

/-- Indices strictly rising from `lo` and below `bound`, no entry equal to the reset value. -/
def Memory.wfFrom {α : Type} [DecidableEq α] (z : α) (bound : Nat) : Nat → Memory α → Bool
  | _, [] => true
  | lo, (k, v) :: m => lo ≤ k && k < bound && v ≠ z && Memory.wfFrom z bound (k + 1) m

/-- The canonical form of a memory of `bound` entries with reset value `z`. -/
def Memory.wf {α : Type} [DecidableEq α] (z : α) (bound : Nat) (m : Memory α) : Bool :=
  Memory.wfFrom z bound 0 m

/-- `FREQ[s]` (R24). -/
def Arch.freqAt (a : Arch) (s : Sym) : Count := Memory.read 0 a.freq s.toNat

/-- `CLEN[s]` (R27). -/
def Arch.clenAt (a : Arch) (s : Sym) : CodeLen := Memory.read 0 a.clen s.toNat

/-- `CBITS[s]` (R27). -/
def Arch.cbitsAt (a : Arch) (s : Sym) : Data := Memory.read 0 a.cbits s.toNat

/-- `NODE[n]` (R25). -/
def Arch.nodeAt (a : Arch) (n : Nat) : Node := Memory.read Node.zero a.node n

/-- `FREQ[s] <- v`. -/
def Arch.setFreq (a : Arch) (s : Sym) (v : Count) : Arch :=
  { a with freq := Memory.write 0 a.freq s.toNat v }

/-- `CLEN[s] <- len; CBITS[s] <- bits`. -/
def Arch.setCode (a : Arch) (s : Sym) (len : CodeLen) (bits : Data) : Arch :=
  { a with clen := Memory.write 0 a.clen s.toNat len, cbits := Memory.write 0 a.cbits s.toNat bits }

/-! ### Faults (R231 to R233, R238) -/

/-- The causes of R231, and the response-only code `faulted`. -/
inductive Cause where
  | faulted | illegalCommand | badArgument | phaseError | misaligned | sourceUnavailable
  | emptyInput | lookupFailure | countOverflow | codeOverflow
  deriving DecidableEq, Repr

/-- The cause codes of R231; 0 means no error, 11 to 15 are never produced. -/
def Cause.code : Cause → BitVec 4
  | .faulted           => 1
  | .illegalCommand    => 2
  | .badArgument       => 3
  | .phaseError        => 4
  | .misaligned        => 5
  | .sourceUnavailable => 6
  | .emptyInput        => 7
  | .lookupFailure     => 8
  | .countOverflow     => 9
  | .codeOverflow      => 10

/-- A fault about to be raised: `Fault(c, info)` of R10. -/
structure Trap where
  cause : Cause
  info  : BitVec 32
  deriving DecidableEq, Repr

/-- The fault record (R233): written by the first fault only. -/
def Arch.recordFault (t : Trap) (a : Arch) : Arch :=
  if a.fault then a else { a with fault := true, fcause := t.cause.code, finfo := t.info }

/-- Transfer a response to the host (R82). -/
def State.respond (err : BitVec 4) (data : Data) (s : State) : State :=
  { s with responses := ⟨err, data⟩ :: s.responses }

/-- `raise Fault(c, info)` (R233), the one entry of every fault: record it if none is recorded, answer its cause with
data 0, change nothing else. -/
def State.raiseFault (t : Trap) (s : State) : State :=
  State.respond t.cause.code 0 { s with arch := Arch.recordFault t s.arch }

/-- The return from the faulted state, by CLEAR or reset alone (R238): every register and memory at its reset value. -/
def State.clearRun (s : State) : State := { s with arch := Arch.reset }

/-! ### How a command ends -/

/-- What the execution of an admitted command comes to: new core state and response data, a fault (R230), or a stop
of the model. -/
inductive Effect where
  | done (a : Arch) (data : Data)
  | trap (t : Trap)
  | stuck (f : Fault)
  deriving DecidableEq, Repr

/-- Complete a command (R10): all its writes together with `rsp_err = 0`, or the fault with none of them. -/
def deliver (s : State) : Effect → Host.Outcome State Fault Refusal
  | .done a data => .next (State.respond 0 data { s with arch := a })
  | .trap t => .next (State.raiseFault t s)
  | .stuck f => .fault f

/-! ### The command port -/

/-- Take the host's next move from the port (R81). -/
def nextMove (s : State) : Option (HostMove × State) :=
  match s.inbox with
  | [] => none
  | m :: rest => some (m, { s with inbox := rest })

/-- Offer a move at the port before every other move to come. -/
def State.offer (m : HostMove) (s : State) : State := { s with inbox := m :: s.inbox }

/-- The command word of the opcode table's bits: `nbits` bits of `w`, every bit above them 0. -/
def tableWord (nbits w : Nat) : Word := BitVec.ofNat 32 (w % 2 ^ nbits)

/-- A word that encodes no command raises IllegalCommand with the word as information (R87 step 1, R89, R90, R232). -/
def illegalWord (w : Word) (s : State) : Host.Outcome State Fault Refusal :=
  .next (State.raiseFault ⟨.illegalCommand, w⟩ s)

/-- Reset (R260), also in the middle of a command (R261): all state at its reset value, no response. -/
def resetMove (s : State) : Host.Outcome State Fault Refusal := .next (State.clearRun s)

/-- With no command offered the core waits for ever (R264). -/
def wait (s : State) : Host.Outcome State Fault Refusal := .next s

end Sys2Proof.Machine
end

