-- ==== Sys2Proof/Machine/Flags.lean ====
section
/-! DEFINITION. The flags and the derived registers (spec/10_state.md R30, R34, R37; spec/60_exceptions.md R240) and
the control register space (R32). -/

namespace Sys2Proof.Machine

/-- The number of a phase (R23). -/
def Phase.number : Phase → BitVec 3
  | .count => 0
  | .tree  => 1
  | .code  => 2
  | .enc   => 3
  | .done  => 4

/-- A flag as one bit. -/
def flagBit (b : Bool) : BitVec 1 := if b then 1 else 0

/-- ORIGBITS = 16 x NENC (R30); 64 bits hold every product. -/
def Arch.origbits (a : Arch) : Data := 16 * a.nenc.setWidth 64

/-- RATIO_OK (R34): PHASE = DONE and FAULT = 0 and ENCBITS != 0. -/
def Arch.ratioOk (a : Arch) : Bool := a.phase = .done && !a.fault && a.encbits ≠ 0

/-- STATUS (R34): bit 5 RATIO_OK, bit 4 FAULT, bit 3 HALF, bits 2:0 PHASE, bits 63:6 read 0. -/
def Arch.status (a : Arch) : Data :=
  0#58 ++ flagBit a.ratioOk ++ flagBit a.fault ++ flagBit a.half ++ a.phase.number

/-- The level output `fault_o` (R240). -/
def Arch.faultO (a : Arch) : Bool := a.fault

/-- `CSR[n]` zero-extended (R32); numbers 13 to 255 are unassigned. -/
def Arch.csr (a : Arch) (n : Byte) : Option Data :=
  match n.toNat with
  | 0  => some (Config.id.setWidth 64)
  | 1  => some (Config.cap.setWidth 64)
  | 2  => some a.status
  | 3  => some (a.fcause.setWidth 64)
  | 4  => some (a.finfo.setWidth 64)
  | 5  => some (a.nsym.setWidth 64)
  | 6  => some (a.kdist.setWidth 64)
  | 7  => some (a.nnode.setWidth 64)
  | 8  => some (a.root.setWidth 64)
  | 9  => some (a.maxlen.setWidth 64)
  | 10 => some (a.nenc.setWidth 64)
  | 11 => some a.encbits
  | 12 => some a.origbits
  | _  => none

end Sys2Proof.Machine
end

