-- ==== Sys2Proof/Machine/Operands.lean ====
section
/-! DEFINITION. Operands: the pairing of bytes into a symbol (spec/20_memory.md R61, spec/40 R110), bit lists and
their packed form (spec/00_scope.md R11), the layout of a node read (spec/44 R209), the argument ranges (R87 step 3). -/

namespace Sys2Proof.Machine

/-- `{first, second}` (R61): the first byte of a pair is the more significant. -/
def pairBytes (first second : Byte) : Sym := first ++ second

/-- `AsmByte(b)` (R110): hold a first byte, or complete the pair. The caller clears HALF when it accepts the symbol. -/
def asmByte (b : Byte) (a : Arch) : Arch × Option Sym :=
  if a.half then (a, some (pairBytes a.hold b)) else ({ a with hold := b, half := true }, none)

/-- A bit list read as a binary numeral, first bit most significant (R11). -/
def packNat (p : List Bool) : Nat := p.foldl (fun n b => 2 * n + b.toNat) 0

/-- `pack(p)` (R11): right-aligned in the code word, upper bits zero. -/
def pack (p : List Bool) : Data := BitVec.ofNat 64 (packNat p)

/-- The result of RDNC (R209): bit 63 LEAF; a leaf has SYM in 15:0, an internal node RIGHT in 48:32 and LEFT in 16:0. -/
def nodeWord (n : Node) : Data :=
  if n.leaf then 1#1 ++ 0#47 ++ n.sym else 0#1 ++ 0#14 ++ n.right ++ 0#15 ++ n.left

/-- R87 step 3, the argument range: `reg <= 12` for RDREG, `node < NNODE` for RDNW and RDNC, every other operand legal
(R66). -/
def argumentOk (i : Instr) (a : Arch) : Bool :=
  match i with
  | .rdreg reg => reg.toNat ≤ 12
  | .rdnw n | .rdnc n => n.toNat < a.nnode.toNat
  | .clear | .srcerr | .cntb _ | .cnth _ | .build | .gencode | .encbegin | .encb _ | .ench _ | .encend | .encsum
  | .rdfreq _ | .rdclen _ | .rdcode _ => true

end Sys2Proof.Machine
end

