-- ==== Sys2Proof/Machine/Admission.lean ====
section
/-! DEFINITION. Admission of a decoded command (spec/30_encoding.md R87 steps 2 to 5, R94) and the one frame every
command runs in. -/

namespace Sys2Proof.Machine

/-- The six read commands, group `0x4_` (R88). -/
def isRead : Instr → Bool
  | .rdreg _ | .rdfreq _ | .rdclen _ | .rdcode _ | .rdnw _ | .rdnc _ => true
  | .clear | .srcerr | .cntb _ | .cnth _ | .build | .gencode | .encbegin | .encb _ | .ench _ | .encend | .encsum => false

/-- The commands executed while FAULT = 1 (R236): CLEAR and the reads. -/
def passesGate (i : Instr) : Bool := i = .clear || isRead i

/-- The legality table R94. -/
def legalIn (i : Instr) (p : Phase) : Bool :=
  match i with
  | .clear | .srcerr => true
  | .cntb _ | .cnth _ | .build => p = .count
  | .gencode => p = .tree
  | .encbegin | .encsum => p = .code || p = .done
  | .encb _ | .ench _ | .encend => p = .enc
  | .rdreg _ | .rdfreq _ | .rdclen _ | .rdcode _ | .rdnw _ | .rdnc _ => true

/-- The whole-symbol pushes, which HALF = 1 refuses (R63, R87 step 5). -/
def isWholeSymbolPush : Instr → Bool
  | .cnth _ | .ench _ => true
  | .clear | .srcerr | .cntb _ | .build | .gencode | .encbegin | .encb _ | .encend | .encsum
  | .rdreg _ | .rdfreq _ | .rdclen _ | .rdcode _ | .rdnw _ | .rdnc _ => false

/-- R87 steps 2 to 5: the first check a decoded command fails. -/
def admission (i : Instr) (a : Arch) : Option Cause :=
  if a.fault && !passesGate i then some .faulted
  else if !argumentOk i a then some .badArgument
  else if !legalIn i a.phase then some .phaseError
  else if isWholeSymbolPush i && a.half then some .misaligned
  else none

/-- R87 steps 2 to 6: raise the first failed check with the command word as information (R232), or execute. A command
stopped by the faulted gate changes nothing (R236), because FAULT is then 1 and R233 records nothing. -/
def issue (i : Instr) (s : State) (body : Arch → Effect) : Host.Outcome State Fault Refusal :=
  match admission i s.arch with
  | some c => .next (State.raiseFault ⟨c, encode i⟩ s)
  | none => deliver s (body s.arch)

end Sys2Proof.Machine
end

