-- ==== Sys2Proof/Machine/Codebook.lean ====
section
/-! DEFINITION. The code-path generator GENCODE (spec/42_code_generator.md). -/

namespace Sys2Proof.Machine

/-- The walk of R150 and R154 from node `x`, reached by `path`: each leaf's symbol with its path, left before right.
`fuel` bounds the depth; a walk deeper than the arena has nodes is no walk of a tree and answers `none`. -/
def walk (node : Memory Node) : Nat → Nat → List Bool → Option (List (Sym × List Bool))
  | 0, _, _ => none
  | fuel + 1, x, path =>
    let n := Memory.read Node.zero node x
    if n.leaf then some [(n.sym, path)]
    else
      match walk node fuel n.left.toNat (path ++ [false]), walk node fuel n.right.toNat (path ++ [true]) with
      | some l, some r => some (l ++ r)
      | _, _ => none

/-- The code of every leaf's symbol (R153): its path, or `[0]` where the root is the only leaf. -/
def codes (a : Arch) : Option (List (Sym × List Bool)) :=
  (walk a.node a.nnode.toNat a.root.toNat []).map fun cs =>
    if a.nnode = 1 then cs.map fun c => (c.1, [false]) else cs

/-- The length of the longest code (R151). -/
def longest (cs : List (Sym × List Bool)) : Nat := cs.foldl (fun l c => max l c.2.length) 0

/-- `CLEN[s] <- len(code(s)); CBITS[s] <- pack(code(s))` for every leaf (R151). -/
def writeCodes (cs : List (Sym × List Bool)) (a : Arch) : Arch :=
  cs.foldl (fun a c => a.setCode c.1 (BitVec.ofNat 7 c.2.length) (pack c.2)) a

/-- The effect of GENCODE (R151, R152) for command word `w` and longest code length allowed `codeW`. -/
def gencodeEffect (codeW : Nat) (w : Word) (a : Arch) : Effect :=
  match codes a with
  | none => .stuck .notATree
  | some cs =>
    if codeW < longest cs then .trap ⟨.codeOverflow, w⟩
    else .done { writeCodes cs a with maxlen := BitVec.ofNat 7 (longest cs), phase := .code } 0

/-- `GENCODE` (R151). -/
def execGencode (s : State) : Host.Outcome State Fault Refusal :=
  issue .gencode s (gencodeEffect Config.codeW (encode .gencode))

end Sys2Proof.Machine
end

