-- ==== Sys2Proof/Machine/Control.lean ====
section
/-! DEFINITION. The control commands CLEAR and SRCERR (spec/44_control_readout.md, section 1). -/

namespace Sys2Proof.Machine

/-- `CLEAR` (R200): every register and memory at its reset value. -/
def execClear (s : State) : Host.Outcome State Fault Refusal :=
  issue .clear s fun _ => .done (State.clearRun s).arch 0

/-- `SRCERR` (R203): always raises SourceUnavailable. -/
def execSrcerr (s : State) : Host.Outcome State Fault Refusal :=
  issue .srcerr s fun _ => .trap ⟨.sourceUnavailable, encode .srcerr⟩

end Sys2Proof.Machine
end

