-- ==== Sys2Proof/Machine/Histogram.lean ====
section
/-! DEFINITION. The symbol extractor's and the histogram's commands CNTB and CNTH (spec/40_extractor_histogram.md). -/

namespace Sys2Proof.Machine

/-- `Count(s)` (R111) for command word `w`: CountOverflow at CNTMAX (R114), else one more occurrence of `sym`. -/
def count (w : Word) (sym : Sym) (a : Arch) : Except Trap Arch :=
  if a.nsym.toNat = Config.cntMax then .error ⟨.countOverflow, w⟩
  else
    let k := if a.freqAt sym = 0 then a.kdist + 1 else a.kdist
    .ok { a.setFreq sym (a.freqAt sym + 1) with kdist := k, nsym := a.nsym + 1 }

/-- `CNTB byte` (R112). -/
def execCntb (byte : Byte) (s : State) : Host.Outcome State Fault Refusal :=
  issue (.cntb byte) s fun a =>
    match asmByte byte a with
    | (held, none) => .done held 0
    | (_, some sym) =>
      match count (encode (.cntb byte)) sym a with
      | .error t => .trap t
      | .ok counted => .done { counted with half := false } 0

/-- `CNTH sym` (R113); the Misaligned check is step 5 of R87. -/
def execCnth (sym : Sym) (s : State) : Host.Outcome State Fault Refusal :=
  issue (.cnth sym) s fun a =>
    match count (encode (.cnth sym)) sym a with
    | .error t => .trap t
    | .ok counted => .done counted 0

end Sys2Proof.Machine
end

