-- ==== Sys2Proof/Machine/Length.lean ====
section
/-! DEFINITION. The bit-stream length calculator ENCBEGIN, ENCB, ENCH, ENCEND, ENCSUM (spec/43_length_calculator.md). -/

namespace Sys2Proof.Machine

/-- `ENCBEGIN` (R170). -/
def execEncbegin (s : State) : Host.Outcome State Fault Refusal :=
  issue .encbegin s fun a => .done { a with nenc := 0, encbits := 0, half := false, phase := .enc } 0

/-- `Encode(s)` (R171) for command word `w`: LookupFailure first (R172), then CountOverflow (R173). -/
def encodeSym (w : Word) (sym : Sym) (a : Arch) : Except Trap Arch :=
  if a.clenAt sym = 0 then .error ⟨.lookupFailure, sym.setWidth 32⟩
  else if a.nenc.toNat = Config.cntMax then .error ⟨.countOverflow, w⟩
  else .ok { a with nenc := a.nenc + 1, encbits := a.encbits + (a.clenAt sym).setWidth 64 }

/-- `ENCB byte` (R174). -/
def execEncb (byte : Byte) (s : State) : Host.Outcome State Fault Refusal :=
  issue (.encb byte) s fun a =>
    match asmByte byte a with
    | (held, none) => .done held 0
    | (_, some sym) =>
      match encodeSym (encode (.encb byte)) sym a with
      | .error t => .trap t
      | .ok encoded => .done { encoded with half := false } 0

/-- `ENCH sym` (R175); the Misaligned check is step 5 of R87. -/
def execEnch (sym : Sym) (s : State) : Host.Outcome State Fault Refusal :=
  issue (.ench sym) s fun a =>
    match encodeSym (encode (.ench sym)) sym a with
    | .error t => .trap t
    | .ok encoded => .done encoded 0

/-- `ENCEND` (R176). -/
def execEncend (s : State) : Host.Outcome State Fault Refusal :=
  issue .encend s fun a => .done { a with half := false, phase := .done } 0

/-- `sum over s of FREQ[s] x CLEN[s]` (R177), exact (R12); only the listed entries of FREQ are not 0. -/
def weightedLength (a : Arch) : Nat :=
  (a.freq.map fun e => e.2.toNat * (Memory.read 0 a.clen e.1).toNat).sum

/-- `ENCSUM` (R177). -/
def execEncsum (s : State) : Host.Outcome State Fault Refusal :=
  issue .encsum s fun a =>
    .done { a with nenc := a.nsym, encbits := BitVec.ofNat 64 (weightedLength a), phase := .done } 0

end Sys2Proof.Machine
end

