-- ==== Sys2Proof/Machine/Readout.lean ====
section
/-! DEFINITION. The six read commands (spec/44_control_readout.md, section 2), without side effect (spec/20 R65). -/

namespace Sys2Proof.Machine

/-- `RDREG reg` (R204); the range check is step 3 of R87. -/
def execRdreg (reg : Byte) (s : State) : Host.Outcome State Fault Refusal :=
  issue (.rdreg reg) s fun a =>
    match a.csr reg with
    | some v => .done a v
    | none => .trap ⟨.badArgument, encode (.rdreg reg)⟩

/-- `RDFREQ sym` (R205). -/
def execRdfreq (sym : Sym) (s : State) : Host.Outcome State Fault Refusal :=
  issue (.rdfreq sym) s fun a => .done a ((a.freqAt sym).setWidth 64)

/-- `RDCLEN sym` (R206). -/
def execRdclen (sym : Sym) (s : State) : Host.Outcome State Fault Refusal :=
  issue (.rdclen sym) s fun a => .done a ((a.clenAt sym).setWidth 64)

/-- `RDCODE sym` (R207). -/
def execRdcode (sym : Sym) (s : State) : Host.Outcome State Fault Refusal :=
  issue (.rdcode sym) s fun a => .done a (a.cbitsAt sym)

/-- `RDNW node` (R208); the range check is step 3 of R87. -/
def execRdnw (node : Handle) (s : State) : Host.Outcome State Fault Refusal :=
  issue (.rdnw node) s fun a => .done a ((a.nodeAt node.toNat).wt.setWidth 64)

/-- `RDNC node` (R209); the range check is step 3 of R87. -/
def execRdnc (node : Handle) (s : State) : Host.Outcome State Fault Refusal :=
  issue (.rdnc node) s fun a => .done a (nodeWord (a.nodeAt node.toNat))

end Sys2Proof.Machine
end

