-- ==== Sys2Proof/Machine/Tree.lean ====
section
/-! DEFINITION. The priority-queue tree builder BUILD (spec/41_tree_builder.md). -/

namespace Sys2Proof.Machine

/-- A member of the priority queue: a handle with its node's weight, which is written once and never changes (R25). -/
structure QEntry where
  wt     : Count
  handle : Nat
  deriving DecidableEq, Repr

/-- The order of R131: lower weight first, among equal weights lower handle first. -/
def QEntry.before (x y : QEntry) : Bool :=
  x.wt.toNat < y.wt.toNat || (x.wt = y.wt && x.handle < y.handle)

/-- `Insert(i)` (R132) on a queue kept in the order of R131, so that `ExtractMin` takes its first member. -/
def enqueue (e : QEntry) : List QEntry → List QEntry
  | [] => [e]
  | x :: q => if e.before x then e :: x :: q else x :: enqueue e q

/-- The working state of BUILD (R134): the arena, the queue PQ and the next free handle `n`. -/
structure Builder where
  node : Memory Node
  pq   : List QEntry
  next : Nat
  deriving DecidableEq, Repr

/-- Write a node at the next free handle and insert the handle (R130, R133). -/
def Builder.create (x : Node) (pq : List QEntry) (b : Builder) : Builder :=
  { node := Memory.write Node.zero b.node b.next x
    pq   := enqueue ⟨x.wt, b.next⟩ pq
    next := b.next + 1 }

/-- Leaf creation for one symbol present in FREQ (R130). -/
def Builder.addLeaf (b : Builder) (e : Nat × Count) : Builder :=
  b.create ⟨true, e.2, BitVec.ofNat 16 e.1, 0, 0⟩ b.pq

/-- `MergeStep()` (R133): the first extracted is the left child, the second the right. -/
def Builder.mergeStep (b : Builder) : Builder :=
  match b.pq with
  | x :: y :: rest =>
    b.create ⟨false, x.wt + y.wt, 0, BitVec.ofNat 17 x.handle, BitVec.ofNat 17 y.handle⟩ rest
  | _ => b

/-- That many merge steps. -/
def Builder.mergeTimes : Nat → Builder → Builder
  | 0, b => b
  | n + 1, b => Builder.mergeTimes n b.mergeStep

/-- The loops of BUILD (R134). FREQ lists its non-zero entries in ascending symbol order, which is the scan of R130;
each merge step lowers the queue by one, so one less than its length leaves one member. -/
def buildTree (node : Memory Node) (freq : Memory Count) : Builder :=
  let leaves := freq.foldl Builder.addLeaf ⟨node, [], 0⟩
  Builder.mergeTimes (leaves.pq.length - 1) leaves

/-- The effect of BUILD (R134, R137) for command word `w`. -/
def buildEffect (w : Word) (a : Arch) : Effect :=
  if a.kdist = 0 then .trap ⟨.emptyInput, w⟩
  else
    let b := buildTree a.node a.freq
    match b.pq with
    | [] => .stuck .emptyQueue
    | r :: _ =>
      .done { a with half := false, node := b.node, nnode := BitVec.ofNat 17 b.next, root := BitVec.ofNat 17 r.handle,
                     phase := .tree } 0

/-- `BUILD` (R134). -/
def execBuild (s : State) : Host.Outcome State Fault Refusal :=
  issue .build s (buildEffect (encode .build))

end Sys2Proof.Machine
end

