-- ==== Sys2Proof/Machine/Dispatch.lean ====
section
/-! DEFINITION. One arm per command: the admission and the execution of a decoded command (spec/30_encoding.md R87). -/

namespace Sys2Proof.Machine

def exec (i : Instr) (s : State) : Host.Outcome State Fault Refusal :=
  match i with
  | .clear => Sys2Proof.Machine.execClear s
  | .srcerr => Sys2Proof.Machine.execSrcerr s
  | .cntb byte => Sys2Proof.Machine.execCntb byte s
  | .cnth sym => Sys2Proof.Machine.execCnth sym s
  | .build => Sys2Proof.Machine.execBuild s
  | .gencode => Sys2Proof.Machine.execGencode s
  | .encbegin => Sys2Proof.Machine.execEncbegin s
  | .encb byte => Sys2Proof.Machine.execEncb byte s
  | .ench sym => Sys2Proof.Machine.execEnch sym s
  | .encend => Sys2Proof.Machine.execEncend s
  | .encsum => Sys2Proof.Machine.execEncsum s
  | .rdreg reg => Sys2Proof.Machine.execRdreg reg s
  | .rdfreq sym => Sys2Proof.Machine.execRdfreq sym s
  | .rdclen sym => Sys2Proof.Machine.execRdclen sym s
  | .rdcode sym => Sys2Proof.Machine.execRdcode sym s
  | .rdnw node => Sys2Proof.Machine.execRdnw node s
  | .rdnc node => Sys2Proof.Machine.execRdnc node s

end Sys2Proof.Machine
end

