-- ==== Sys2Proof/Machine/Step.lean ====
section
/-! DEFINITION. One step of the machine: the host's next move, to completion (spec/00_scope.md R6, spec/30_encoding.md
R81, R82, R87). -/

namespace Sys2Proof.Machine

/-- Decode a command word and run it (R87). -/
def runWord (w : Word) (s : State) : Host.Outcome State Fault Refusal :=
  match decode w with
  | .ok i => exec i s
  | .error _ => illegalWord w s

/-- One step: take the host's next move and complete it; with none to come, wait (R264). -/
def step (s : State) : Host.Outcome State Fault Refusal :=
  match nextMove s with
  | none => wait s
  | some (.command w, t) => runWord w t
  | some (.reset, t) => resetMove t
  | some (.abandoned _, t) => resetMove t

/-- `s` with the word of the opcode table's bits as the host's next move (log entry 1). -/
def State.withFetchWord (s : State) (nbits w : Nat) : State :=
  s.offer (.command (tableWord nbits w))

end Sys2Proof.Machine
end

