-- ==== Sys2Proof/Machine/Assembler.lean ====
section
/-! DEFINITION. The assembler syntax and the pseudo-commands (spec/30_encoding.md R92, R93). What the spec leaves
open of the text's form is in log entry 10. -/

namespace Sys2Proof.Machine

/-- A hexadecimal digit. -/
def hexDigit (c : Char) : Option Nat :=
  if '0' ≤ c ∧ c ≤ '9' then some (c.toNat - '0'.toNat)
  else if 'a' ≤ c ∧ c ≤ 'f' then some (c.toNat - 'a'.toNat + 10)
  else if 'A' ≤ c ∧ c ≤ 'F' then some (c.toNat - 'A'.toNat + 10)
  else none

/-- The digits `ds` in base `b`, after the value `n`. -/
def digitsValue (b : Nat) : Nat → List Char → Option Nat
  | n, [] => some n
  | n, c :: ds =>
    match hexDigit c with
    | some d => if d < b then digitsValue b (b * n + d) ds else none
    | none => none

/-- An unsigned number in decimal, or in hexadecimal with `0x` (R92). -/
def parseNumber : List Char → Option Nat
  | [] => none
  | ['0', 'x'] => none
  | '0' :: 'x' :: ds => digitsValue 16 0 ds
  | ds => digitsValue 10 0 ds

/-- The mnemonics of R88 as text. -/
def mnemonicNames : List (List Char × Mnemonic) :=
  [("CLEAR".toList, .CLEAR), ("SRCERR".toList, .SRCERR), ("CNTB".toList, .CNTB), ("CNTH".toList, .CNTH),
   ("BUILD".toList, .BUILD), ("GENCODE".toList, .GENCODE), ("ENCBEGIN".toList, .ENCBEGIN), ("ENCB".toList, .ENCB),
   ("ENCH".toList, .ENCH), ("ENCEND".toList, .ENCEND), ("ENCSUM".toList, .ENCSUM), ("RDREG".toList, .RDREG),
   ("RDFREQ".toList, .RDFREQ), ("RDCLEN".toList, .RDCLEN), ("RDCODE".toList, .RDCODE), ("RDNW".toList, .RDNW),
   ("RDNC".toList, .RDNC)]

/-- The control register names of R32, in the order of their numbers 0 to 12. -/
def registerNames : List (List Char) :=
  ["ID".toList, "CAP".toList, "STATUS".toList, "FCAUSE".toList, "FINFO".toList, "NSYM".toList, "KDIST".toList,
   "NNODE".toList, "ROOT".toList, "MAXLEN".toList, "NENC".toList, "ENCBITS".toList, "ORIGBITS".toList]

/-- The command of an assembler line; none where the operand does not fit its format's field (R92). -/
def assemble (l : AsmLine) : Option Instr :=
  if l.wellFormed then some (operandsOf l.mnemonic (BitVec.ofNat 24 (l.operand.getD 0))) else none

/-- An operand's number; RDREG also takes a register's name (R92). -/
def parseOperand (m : Mnemonic) (t : List Char) : Option Nat :=
  match registerNames.findIdx? (· = t) with
  | some n => if m = .RDREG then some n else none
  | none => parseNumber t

/-- `COUNTBYTES b0 ... bn` (R93). -/
def countBytes (bs : List Byte) : List Instr := bs.map .cntb

/-- `ENCBYTES b0 ... bn` (R93). -/
def encBytes (bs : List Byte) : List Instr := [.encbegin] ++ bs.map .encb ++ [.encend]

/-- `COMPRESS b0 ... bn` (R93). -/
def compress (bs : List Byte) : List Instr := [.clear] ++ countBytes bs ++ [.build, .gencode] ++ encBytes bs

/-- `MEASURE b0 ... bn` (R93). -/
def measure (bs : List Byte) : List Instr := [.clear] ++ countBytes bs ++ [.build, .gencode, .encsum]

/-- `RATIO` (R93): STATUS, ORIGBITS, ENCBITS. -/
def ratio : List Instr := [.rdreg 2, .rdreg 12, .rdreg 11]

/-- The text before a comment (R92). -/
def dropComment : List Char → List Char := List.takeWhile (· ≠ ';')

/-- The words of a line, split at blanks. -/
def words (line : List Char) : List (List Char) :=
  (line.splitOnP fun c => c = ' ' || c = '\t').filter (· ≠ [])

/-- A byte operand of a pseudo-command. -/
def parseByte (t : List Char) : Option Byte :=
  match parseNumber t with
  | some n => if n < 256 then some (BitVec.ofNat 8 n) else none
  | none => none

/-- The commands of one line of text: none for a blank or comment line, one for a command, the expansion for a
pseudo-command (R92, R93). -/
def assembleText (line : List Char) : Option (List Instr) :=
  match words (dropComment line) with
  | [] => some []
  | name :: args =>
    match mnemonicNames.find? (·.1 = name), args with
    | some (_, m), [] => (assemble ⟨m, none⟩).map ([·])
    | some (_, m), [t] => ((parseOperand m t).bind fun v => assemble ⟨m, some v⟩).map ([·])
    | some _, _ :: _ :: _ => none
    | none, _ =>
      if name = "COUNTBYTES".toList then (args.mapM parseByte).map countBytes
      else if name = "ENCBYTES".toList then (args.mapM parseByte).map encBytes
      else if name = "COMPRESS".toList then (args.mapM parseByte).map compress
      else if name = "MEASURE".toList then (args.mapM parseByte).map measure
      else if name = "RATIO".toList ∧ args = [] then some ratio
      else none

end Sys2Proof.Machine
end

