-- ==== Sys2Proof/Safety.lean ====
section
/-! DEFINITION. What claims are stated in: the invariants of spec/10_state.md R40, the paths of spec/42 R150, the code
of a symbol as a bit list (spec/00 R11), sequences of commands. -/

namespace Sys2Proof.Machine

/-! ### The command boundary invariants of R40 -/

/-- Every memory is in its canonical form, its indices inside the memory of R20. -/
structure MemoriesCanonical (a : Arch) : Prop where
  freq  : Memory.wf 0 Config.numSymbols a.freq = true
  clen  : Memory.wf 0 Config.numSymbols a.clen = true
  cbits : Memory.wf 0 Config.numSymbols a.cbits = true
  node  : Memory.wf Node.zero Config.maxNodes a.node = true

/-- The fault record (R31, R231): both words are 0 while FAULT = 0; a recorded cause is one of 2 to 10. -/
def FaultRecordOk (a : Arch) : Prop :=
  if a.fault then 2 ≤ a.fcause.toNat ∧ a.fcause.toNat ≤ 10 else a.fcause = 0 ∧ a.finfo = 0

/-- R40 items 1 to 4, the canonical memories and the fault record. FREQ lists its non-zero entries, so its length is
the number of symbols present. -/
structure Bookkeeping (a : Arch) : Prop where
  memories : MemoriesCanonical a
  record   : FaultRecordOk a
  /-- Item 1. -/
  nsym     : a.nsym.toNat = (a.freq.map fun e => e.2.toNat).sum
  /-- Item 2. -/
  kdist    : a.kdist.toNat = a.freq.length
  /-- Item 3. -/
  half     : a.half = true → a.phase = .count ∨ a.phase = .enc
  /-- Item 4, the tree. -/
  noTree   : a.phase = .count → a.node = [] ∧ a.nnode = 0 ∧ a.root = 0
  /-- Item 4, the codebook and the totals; they stay so in phase TREE, and the totals in phase CODE. -/
  noCode   : a.phase = .count ∨ a.phase = .tree → a.clen = [] ∧ a.cbits = [] ∧ a.maxlen = 0
  noTotals : a.phase = .count ∨ a.phase = .tree ∨ a.phase = .code → a.nenc = 0 ∧ a.encbits = 0

/-- The order of R131 on the handles of the arena: the pair (weight, handle), compared lexicographically. -/
def ArenaBefore (a : Arch) (i j : Nat) : Prop :=
  (a.nodeAt i).wt.toNat < (a.nodeAt j).wt.toNat ∨ ((a.nodeAt i).wt = (a.nodeAt j).wt ∧ i < j)

/-- `p` is an internal node of the arena and `i` one of its children. -/
def IsChildOf (a : Arch) (i p : Nat) : Prop :=
  a.kdist.toNat ≤ p ∧ p < a.nnode.toNat ∧ ((a.nodeAt p).left.toNat = i ∨ (a.nodeAt p).right.toNat = i)

/-- R40 items 5 to 7 with R130 and R133: what the arena is in phases TREE and later. -/
structure TreeOk (a : Arch) : Prop where
  kdist_pos : 1 ≤ a.kdist.toNat
  nnode     : a.nnode.toNat = 2 * a.kdist.toNat - 1
  root      : a.root.toNat = a.nnode.toNat - 1
  root_wt   : (a.nodeAt a.root.toNat).wt = a.nsym
  /-- Handle `i` below KDIST is the leaf of the `i`-th symbol present, in ascending order (R130). -/
  leaf      : ∀ i < a.kdist.toNat, ∃ e, a.freq[i]? = some e ∧
    a.nodeAt i = ⟨true, e.2, BitVec.ofNat 16 e.1, 0, 0⟩
  /-- Handles from KDIST are internal nodes over two older children, weights exactly summed (R12, R25). -/
  internal  : ∀ p, a.kdist.toNat ≤ p → p < a.nnode.toNat →
    (a.nodeAt p).leaf = false ∧ (a.nodeAt p).sym = 0 ∧
    (a.nodeAt p).left.toNat < p ∧ (a.nodeAt p).right.toNat < p ∧
    (a.nodeAt p).wt.toNat =
      (a.nodeAt (a.nodeAt p).left.toNat).wt.toNat + (a.nodeAt (a.nodeAt p).right.toNat).wt.toNat
  /-- The left child was extracted before the right one (R133). -/
  siblings  : ∀ p, a.kdist.toNat ≤ p → p < a.nnode.toNat →
    ArenaBefore a (a.nodeAt p).left.toNat (a.nodeAt p).right.toNat
  /-- A merge step extracts nothing that an earlier one should have (R131, R132). -/
  extracted : ∀ p, a.kdist.toNat ≤ p → p + 1 < a.nnode.toNat →
    ArenaBefore a (a.nodeAt p).right.toNat (a.nodeAt (p + 1)).left.toNat
  /-- Every node but the root has exactly one parent (R40 item 7). -/
  parent    : ∀ i, i + 1 < a.nnode.toNat → ∃! p, IsChildOf a i p
  /-- Handles not in use hold the reset value (R25). -/
  unused    : ∀ i, a.nnode.toNat ≤ i → a.nodeAt i = Node.zero

/-- The bookkeeping, and the arena in phases TREE and later. -/
structure TreeInv (a : Arch) : Prop where
  book : Bookkeeping a
  tree : a.phase ≠ .count → TreeOk a

/-- `path(x)` of R150: the root has the empty path, a left step appends 0, a right step appends 1. -/
inductive Path (a : Arch) : Nat → List Bool → Prop where
  | root : Path a a.root.toNat []
  | left (p : Nat) (l : List Bool) : Path a p l → (a.nodeAt p).leaf = false →
      Path a (a.nodeAt p).left.toNat (l ++ [false])
  | right (p : Nat) (l : List Bool) : Path a p l → (a.nodeAt p).leaf = false →
      Path a (a.nodeAt p).right.toNat (l ++ [true])

/-- The bit list that the pair (CLEN[s], CBITS[s]) stands for (R11, R27): the low CLEN[s] bits, first code bit most
significant. -/
def Arch.codeOf (a : Arch) (s : Sym) : List Bool :=
  (List.range (a.clenAt s).toNat).map fun j => (a.cbitsAt s).getLsbD ((a.clenAt s).toNat - 1 - j)

/-- The sum of `2^(-CLEN[s])` over the symbols present, in units of `2^(-64)`. -/
def kraftSum (a : Arch) : Nat :=
  (a.freq.map fun e => 2 ^ (64 - (Memory.read 0 a.clen e.1).toNat)).sum

/-- R40 item 8 with R27, R28, R153, R155: what the codebook is in phases CODE and later. -/
structure CodeOk (a : Arch) : Prop where
  /-- The code of a leaf's symbol is its path, or `[0]` where the root is the only leaf (R153). -/
  paths      : ∀ x < a.kdist.toNat, ∃ p, Path a x p ∧
    a.codeOf (a.nodeAt x).sym = if a.nnode.toNat = 1 then [false] else p
  present    : ∀ s : Sym, a.clenAt s ≠ 0 ↔ a.freqAt s ≠ 0
  absent     : ∀ s : Sym, a.clenAt s = 0 → a.cbitsAt s = 0
  fits       : ∀ s : Sym, (a.cbitsAt s).toNat < 2 ^ (a.clenAt s).toNat
  bounded    : ∀ s : Sym, (a.clenAt s).toNat ≤ a.maxlen.toNat
  attained   : ∃ s : Sym, a.clenAt s = a.maxlen
  maxlen     : 1 ≤ a.maxlen.toNat ∧ a.maxlen.toNat ≤ Config.codeW
  prefixFree : ∀ s t : Sym, s ≠ t → a.freqAt s ≠ 0 → a.freqAt t ≠ 0 → ¬ a.codeOf s <+: a.codeOf t
  kraft      : 2 ≤ a.kdist.toNat → kraftSum a = 2 ^ 64
  single     : a.kdist.toNat = 1 → ∀ s : Sym, a.freqAt s ≠ 0 → a.codeOf s = [false]

/-- What the totals of a pass satisfy in phases CODE and later (R12, R40 item 9): every symbol accepted added a code
length between 1 and MAXLEN. -/
def TotalsOk (a : Arch) : Prop :=
  a.nenc.toNat ≤ a.encbits.toNat ∧ a.encbits.toNat ≤ a.nenc.toNat * a.maxlen.toNat

/-- The whole invariant: the bookkeeping, the arena, the codebook and the totals. -/
structure Inv (a : Arch) : Prop where
  base   : TreeInv a
  code   : a.phase ≠ .count → a.phase ≠ .tree → CodeOk a
  totals : a.phase ≠ .count → a.phase ≠ .tree → TotalsOk a

/-! ### Tables of the spec that statements are made against, written out from it -/

/-- The match and mask columns of R88, with the format column. -/
def opcodeRows : List (Mnemonic × Format × Word × Word) :=
  [(.CLEAR, .z, 0x01000000, 0xFFFFFFFF), (.SRCERR, .z, 0x02000000, 0xFFFFFFFF), (.CNTB, .b, 0x10000000, 0xFFFFFF00),
   (.CNTH, .h, 0x11000000, 0xFFFF0000), (.BUILD, .z, 0x20000000, 0xFFFFFFFF), (.GENCODE, .z, 0x28000000, 0xFFFFFFFF),
   (.ENCBEGIN, .z, 0x30000000, 0xFFFFFFFF), (.ENCB, .b, 0x31000000, 0xFFFFFF00), (.ENCH, .h, 0x32000000, 0xFFFF0000),
   (.ENCEND, .z, 0x33000000, 0xFFFFFFFF), (.ENCSUM, .z, 0x34000000, 0xFFFFFFFF), (.RDREG, .r, 0x40000000, 0xFFFFFF00),
   (.RDFREQ, .h, 0x41000000, 0xFFFF0000), (.RDCLEN, .h, 0x42000000, 0xFFFF0000), (.RDCODE, .h, 0x43000000, 0xFFFF0000),
   (.RDNW, .n, 0x44000000, 0xFFFE0000), (.RDNC, .n, 0x45000000, 0xFFFE0000)]

/-- The ranges of reserved opcodes of R89. -/
def reservedOp (op : Nat) : Bool :=
  op = 0x00 || (0x03 ≤ op && op ≤ 0x0F) || (0x12 ≤ op && op ≤ 0x1F) || (0x21 ≤ op && op ≤ 0x27) ||
  (0x29 ≤ op && op ≤ 0x2F) || (0x35 ≤ op && op ≤ 0x3F) || (0x46 ≤ op && op ≤ 0xFF)

/-- The phases marked `yes` in R94. -/
def legalPhases : Mnemonic → List Phase
  | .CLEAR | .SRCERR => [.count, .tree, .code, .enc, .done]
  | .CNTB | .CNTH => [.count]
  | .BUILD => [.count]
  | .GENCODE => [.tree]
  | .ENCBEGIN => [.code, .done]
  | .ENCB | .ENCH | .ENCEND => [.enc]
  | .ENCSUM => [.code, .done]
  | .RDREG | .RDFREQ | .RDCLEN | .RDCODE | .RDNW | .RDNC => [.count, .tree, .code, .enc, .done]

/-- Two core states that differ at most in a byte that HOLD keeps while HALF = 0 (R21). -/
def SameButIdleHold (a b : Arch) : Prop :=
  { a with hold := 0 } = { b with hold := 0 } ∧ (a.half = true → a.hold = b.hold)

/-! ### Sequences of commands -/

/-- Run commands one after the other, stopping at the first stop of the model. -/
def runAll : List Instr → State → Host.Outcome State Fault Refusal
  | [], s => .next s
  | i :: is, s =>
    match exec i s with
    | .next t => runAll is t
    | .fault r => .fault r
    | .refused r => .refused r

/-- The error code and data of the last response; 0 if there is none. -/
def State.lastErr (s : State) : BitVec 4 := (s.responses.head?.map Response.err).getD 0

/-- The data of the last response; 0 if there is none. -/
def State.lastData (s : State) : Data := (s.responses.head?.map Response.data).getD 0

end Sys2Proof.Machine
end

