-- ==== Sys2Proof/Certificates/Slice0/Obligations.lean ====
section
/-! DEFINITION. The statements for the provers. Each docstring names the rule of spec/ it formalises or rests on. A
command that succeeds ends in `respond 0 data` of the state it leaves, one that fails in `raiseFault`; an equation with
such a right side is the command's whole frame, since every field it does not name keeps its value. -/

open Sys2Proof Sys2Proof.Machine

/-! ### Encoding and decoding (spec/30_encoding.md) -/

/-- Words written out from the encodings of R88 and the examples of R90 and R92. -/
def Obligations.SampleWordsDecode : Prop :=
  decode 0x01000000 = .ok .clear ∧ decode 0x02000000 = .ok .srcerr ∧ decode 0x10000041 = .ok (.cntb 0x41) ∧
  decode 0x11001234 = .ok (.cnth 0x1234) ∧ decode 0x20000000 = .ok .build ∧ decode 0x28000000 = .ok .gencode ∧
  decode 0x32000043 = .ok (.ench 0x43) ∧ decode 0x4000000B = .ok (.rdreg 11) ∧ decode 0x44000006 = .ok (.rdnw 6) ∧
  decode 0x4501FFFE = .ok (.rdnc 0x1FFFE) ∧ decode 0x44020000 = .error .mustBeZero ∧
  decode 0x10000141 = .error .mustBeZero ∧ decode 0x46000000 = .error .reservedOpcode

/-- Decoding the word of a command gives the command back, for every command and operand (R84, R85, R88, R92). -/
def Obligations.DecodeOfEncodeIsIdentity : Prop :=
  ∀ i : Instr, decode (encode i) = .ok i

/-- A word that decodes is the word of the command it decodes to: opcode x 2^24 + operand, the operand fitting its
format (R84, R85, R92). No bit of a legal word is dropped. -/
def Obligations.DecodedWordIsOpcodeAndOperand : Prop :=
  ∀ (w : Word) (i : Instr), decode w = .ok i →
    encode i = w ∧ w.toNat = i.mnemonic.opcode.toNat * 2 ^ 24 + i.operand ∧
    i.operand < 2 ^ i.mnemonic.format.operandBits

/-- R84, against the match and mask columns of R88: a word encodes a command iff the masked word is its match; the
match is the opcode in bits 31:24, and the operand is the unmasked low bits. -/
def Obligations.WordEncodesCommandIffMaskMatches : Prop :=
  ∀ row ∈ opcodeRows, ∀ w : Word,
    ((∃ i, decode w = .ok i ∧ i.mnemonic = row.1) ↔ w &&& row.2.2.2 = row.2.2.1) ∧
    (∀ i, decode w = .ok i → i.mnemonic = row.1 → i.operand = (w &&& ~~~row.2.2.2).toNat) ∧
    row.1.format = row.2.1 ∧ row.2.2.1.toNat = row.1.opcode.toNat * 2 ^ 24 ∧
    (~~~row.2.2.2).toNat = 2 ^ row.2.1.operandBits - 1

/-- R89: a word whose opcode is one of the 239 reserved values, which are those of no mnemonic, raises IllegalCommand,
whatever its `arg`; the all-zero and the all-ones word among them. -/
def Obligations.ReservedOpcodeRaisesIllegalCommand : Prop :=
  (∀ (s : State) (w : Word) (rest : List HostMove), s.inbox = .command w :: rest →
    reservedOp (w.toNat / 2 ^ 24) = true →
    step s = .next (State.raiseFault ⟨.illegalCommand, w⟩ { s with inbox := rest })) ∧
  (∀ op : BitVec 8, reservedOp op.toNat = true ↔ ∀ m : Mnemonic, m.opcode ≠ op) ∧
  ((List.range 256).filter reservedOp).length = 239 ∧
  reservedOp ((0x00000000 : Word).toNat / 2 ^ 24) = true ∧ reservedOp ((0xFFFFFFFF : Word).toNat / 2 ^ 24) = true

/-- R90: a word with an assigned opcode and a non-zero must-be-zero bit raises IllegalCommand, in every state. -/
def Obligations.MustBeZeroBitRaisesIllegalCommand : Prop :=
  ∀ (s : State) (w : Word) (rest : List HostMove) (m : Mnemonic), s.inbox = .command w :: rest →
    w.toNat / 2 ^ 24 = m.opcode.toNat → w.toNat % 2 ^ 24 / 2 ^ m.format.operandBits ≠ 0 →
    step s = .next (State.raiseFault ⟨.illegalCommand, w⟩ { s with inbox := rest })

/-- R92: a line whose operand fits its format assembles to a command whose word is opcode x 2^24 + operand; a line
whose operand does not fit is an error. -/
def Obligations.AssembledLineHasItsWord : Prop :=
  ∀ l : AsmLine,
    (l.wellFormed = true → ∃ i, assemble l = some i ∧ i.mnemonic = l.mnemonic ∧
      (encode i).toNat = l.mnemonic.opcode.toNat * 2 ^ 24 + l.operand.getD 0) ∧
    (l.wellFormed = false → assemble l = none)

/-! ### Steps (R81, R82, R86, R260, R261, R264) -/

/-- R81, R87: where the host's next move is a word that decodes, the step is that command on the state without the
move. The list of moves is the model's (log entry 1). -/
def Obligations.StepRunsTheDecodedCommand : Prop :=
  ∀ (s : State) (w : Word) (rest : List HostMove) (i : Instr), s.inbox = .command w :: rest → decode w = .ok i →
    step s = exec i { s with inbox := rest }

/-- R260, R261, R264: reset, also in the middle of a command, leaves every register and memory at its reset value and
answers nothing; with no move to come the core waits, unchanged. The list of moves and that responses already
transferred stay listed are the model's (log entries 1 and 2). -/
def Obligations.ResetAndWait : Prop :=
  (∀ (s : State) (rest : List HostMove),
    (s.inbox = .reset :: rest ∨ ∃ w, s.inbox = .abandoned w :: rest) →
    step s = .next { arch := Arch.reset, inbox := rest, responses := s.responses }) ∧
  (∀ s : State, s.inbox = [] → step s = .next s)

/-- R82, R86: a completed command gives exactly one response, whose code is 0 to 10, and whose data is 0 unless it is a
read that succeeded; it takes nothing from the port. The list of responses is the model's (log entry 2). -/
def Obligations.EveryCommandGetsOneResponse : Prop :=
  ∀ (i : Instr) (s t : State), exec i s = .next t →
    ∃ (e : BitVec 4) (d : Data), t.responses = ⟨e, d⟩ :: s.responses ∧ t.inbox = s.inbox ∧ e.toNat ≤ 10 ∧
      (d ≠ 0 → e = 0 ∧ isRead i = true)

/-- R21: the byte HOLD keeps while HALF = 0 is seen by no command: from two states that differ at most in it, every
command answers the same and leaves two such states. -/
def Obligations.IdleHoldIsUnobservable : Prop :=
  ∀ (i : Instr) (s s' t : State), SameButIdleHold s.arch s'.arch → exec i s = .next t →
    ∃ t', exec i s' = .next t' ∧ SameButIdleHold t.arch t'.arch ∧ t'.lastErr = t.lastErr ∧ t'.lastData = t.lastData

/-! ### Admission and faults (R87, R94, spec/60_exceptions.md) -/

/-- R236: while FAULT = 1 every command but CLEAR and the reads is answered with Faulted and data 0 and changes nothing;
CLEAR and the reads in range execute; RATIO_OK is 0. -/
def Obligations.FaultedGate : Prop :=
  ∀ s : State, s.arch.fault = true →
    s.arch.ratioOk = false ∧
    (∀ i : Instr, i ≠ .clear → isRead i = false → exec i s = .next (State.respond 1 0 s)) ∧
    exec .clear s = .next (State.respond 0 0 { s with arch := Arch.reset }) ∧
    (∀ i : Instr, isRead i = true → (∀ r, i = .rdreg r → r.toNat ≤ 12) →
      (∀ n, i = .rdnw n ∨ i = .rdnc n → n.toNat < s.arch.nnode.toNat) →
      ∃ d, exec i s = .next (State.respond 0 d s))

/-- R87 step 3, R66: a register number above 12 or a handle not below NNODE raises BadArgument, in every state. -/
def Obligations.ArgumentOutOfRangeRaisesBadArgument : Prop :=
  (∀ (s : State) (r : Byte), 12 < r.toNat →
    exec (.rdreg r) s = .next (State.raiseFault ⟨.badArgument, encode (.rdreg r)⟩ s)) ∧
  (∀ (s : State) (n : Handle), s.arch.nnode.toNat ≤ n.toNat →
    exec (.rdnw n) s = .next (State.raiseFault ⟨.badArgument, encode (.rdnw n)⟩ s) ∧
    exec (.rdnc n) s = .next (State.raiseFault ⟨.badArgument, encode (.rdnc n)⟩ s))

/-- R94: a command in a phase not marked `yes` raises PhaseError and changes nothing else; in a phase marked `yes` it
never answers PhaseError. -/
def Obligations.PhaseLegality : Prop :=
  ∀ (i : Instr) (s : State),
    (s.arch.fault = false → s.arch.phase ∉ legalPhases i.mnemonic →
      exec i s = .next (State.raiseFault ⟨.phaseError, encode i⟩ s)) ∧
    (s.arch.phase ∈ legalPhases i.mnemonic → ∀ t, exec i s = .next t → t.lastErr ≠ 4)

/-- R63, R113, R175: a whole-symbol push with HALF = 1, in its phase, raises Misaligned and changes nothing else. -/
def Obligations.WholeSymbolPushAtHalfPairIsMisaligned : Prop :=
  ∀ (s : State) (sym : Sym), s.arch.fault = false → s.arch.half = true →
    (s.arch.phase = .count → exec (.cnth sym) s = .next (State.raiseFault ⟨.misaligned, encode (.cnth sym)⟩ s)) ∧
    (s.arch.phase = .enc → exec (.ench sym) s = .next (State.raiseFault ⟨.misaligned, encode (.ench sym)⟩ s))

/-- R233: raising a fault records it if none is recorded, answers its cause with data 0, and changes nothing else; the
host sees it on `fault_o` and in STATUS[4]. -/
def Obligations.FaultEntry : Prop :=
  ∀ (t : Trap) (s : State),
    (s.arch.fault = false → State.raiseFault t s =
      { s with arch := { s.arch with fault := true, fcause := t.cause.code, finfo := t.info }
               responses := ⟨t.cause.code, 0⟩ :: s.responses }) ∧
    (s.arch.fault = true → State.raiseFault t s = { s with responses := ⟨t.cause.code, 0⟩ :: s.responses }) ∧
    (State.raiseFault t s).arch.faultO = true ∧ (State.raiseFault t s).arch.status.getLsbD 4 = true

/-- R230, R233: a step that answers an error leaves every register and memory but FAULT, FCAUSE, FINFO as it was. -/
def Obligations.FailedCommandChangesOnlyTheFaultRecord : Prop :=
  ∀ (s t : State) (w : Word) (rest : List HostMove), s.inbox = .command w :: rest → step s = .next t →
    t.lastErr ≠ 0 →
    { t.arch with fault := s.arch.fault, fcause := s.arch.fcause, finfo := s.arch.finfo } = s.arch ∧
    t.lastData = 0 ∧ t.arch.fault = true

/-- R237: a second fault comes from an illegal word or a read with a bad argument alone (every other command that fails
is answered Faulted); its own cause is answered, and the first fault's record is kept, as is all else. -/
def Obligations.FirstFaultIsKept : Prop :=
  ∀ (s t : State) (w : Word) (rest : List HostMove), s.inbox = .command w :: rest → step s = .next t →
    s.arch.fault = true → t.lastErr ≠ 0 →
    t.arch = s.arch ∧
    ((t.lastErr = 1 ∧ ∃ i, decode w = .ok i ∧ i ≠ .clear ∧ isRead i = false) ∨
     (t.lastErr = 2 ∧ ∃ e, decode w = .error e) ∨
     (t.lastErr = 3 ∧ ∃ i, decode w = .ok i ∧ isRead i = true))

/-- R238: only CLEAR or reset leaves the faulted state; each does, and discards the whole run. -/
def Obligations.OnlyClearOrResetLeavesFaultedState : Prop :=
  (∀ s t : State, step s = .next t → s.arch.fault = true → t.arch.fault = false →
    ∃ m rest, s.inbox = m :: rest ∧ (m = .reset ∨ (∃ w, m = .abandoned w) ∨ m = .command 0x01000000)) ∧
  (∀ (s : State) (m : HostMove) (rest : List HostMove), s.inbox = m :: rest → s.arch.fault = true →
    (m = .reset ∨ (∃ w, m = .abandoned w) ∨ m = .command 0x01000000) →
    ∃ t, step s = .next t ∧ t.arch = Arch.reset)

/-- R232: the information word recorded with a fault is the symbol without entry for LookupFailure and the command word
for every other cause; the cause recorded is the cause answered. -/
def Obligations.FaultInformationWord : Prop :=
  ∀ (s t : State) (w : Word) (rest : List HostMove), s.inbox = .command w :: rest → step s = .next t →
    s.arch.fault = false → t.arch.fault = true →
    t.arch.fcause = t.lastErr ∧
    (t.arch.fcause ≠ Cause.lookupFailure.code → t.arch.finfo = w) ∧
    (t.arch.fcause = Cause.emptyInput.code → t.arch.finfo = 0x20000000) ∧
    (t.arch.fcause = Cause.sourceUnavailable.code → t.arch.finfo = 0x02000000) ∧
    (t.arch.fcause = Cause.codeOverflow.code → t.arch.finfo = 0x28000000) ∧
    (t.arch.fcause = Cause.lookupFailure.code →
      ∃ sym : Sym, t.arch.finfo = sym.setWidth 32 ∧ s.arch.clenAt sym = 0 ∧
        (decode w = .ok (.ench sym) ∨ ∃ b, decode w = .ok (.encb b) ∧ sym = s.arch.hold ++ b))

/-- R231: which commands answer which error code, and when (IllegalCommand is no decoded command's). -/
def Obligations.EveryErrorCodeHasItsCause : Prop :=
  ∀ (i : Instr) (s t : State), exec i s = .next t →
    (t.lastErr = 1 → s.arch.fault = true ∧ i ≠ .clear ∧ isRead i = false) ∧
    t.lastErr ≠ 2 ∧
    (t.lastErr = 3 → (∃ r, i = .rdreg r ∧ 12 < r.toNat) ∨
      ∃ n, (i = .rdnw n ∨ i = .rdnc n) ∧ s.arch.nnode.toNat ≤ n.toNat) ∧
    (t.lastErr = 4 → s.arch.phase ∉ legalPhases i.mnemonic) ∧
    (t.lastErr = 5 → s.arch.half = true ∧ ∃ sym, i = .cnth sym ∨ i = .ench sym) ∧
    (t.lastErr = 6 → i = .srcerr) ∧
    (t.lastErr = 7 → i = .build ∧ s.arch.kdist = 0) ∧
    (t.lastErr = 8 → ∃ sym, s.arch.clenAt sym = 0 ∧
      (i = .ench sym ∨ ∃ b, i = .encb b ∧ s.arch.half = true ∧ sym = s.arch.hold ++ b)) ∧
    (t.lastErr = 9 →
      (s.arch.nsym.toNat = 2 ^ 32 - 1 ∧ ((∃ sym, i = .cnth sym) ∨ ∃ b, i = .cntb b ∧ s.arch.half = true)) ∨
      (s.arch.nenc.toNat = 2 ^ 32 - 1 ∧ ((∃ sym, i = .ench sym) ∨ ∃ b, i = .encb b ∧ s.arch.half = true))) ∧
    (t.lastErr = 10 → i = .gencode ∧ ∃ cs, codes s.arch = some cs ∧ 64 < longest cs)

/-! ### Symbol extractor and histogram (spec/40_extractor_histogram.md) -/

/-- R110, R112, R174: the first byte of a pair is held, in pass 1 by CNTB and in pass 2 by ENCB, and nothing else
changes. -/
def Obligations.FirstByteOfPairIsHeld : Prop :=
  ∀ (s : State) (b : Byte), s.arch.fault = false → s.arch.half = false →
    (s.arch.phase = .count →
      exec (.cntb b) s = .next (State.respond 0 0 { s with arch := { s.arch with hold := b, half := true } })) ∧
    (s.arch.phase = .enc →
      exec (.encb b) s = .next (State.respond 0 0 { s with arch := { s.arch with hold := b, half := true } }))

/-- R61, R111, R112, R113: below CNTMAX, CNTH of a symbol, and CNTB of the second byte of a pair that forms it (held
byte more significant), count it once: FREQ of that symbol alone and NSYM rise by one, KDIST where the symbol is new. -/
def Obligations.SymbolIsCounted : Prop :=
  ∀ (s : State) (sym : Sym), s.arch.fault = false → s.arch.phase = .count → s.arch.nsym.toNat ≠ 2 ^ 32 - 1 →
    ∃ m : Memory Count,
      (∀ j, Memory.read 0 m j = if j = sym.toNat then s.arch.freqAt sym + 1 else Memory.read 0 s.arch.freq j) ∧
      (s.arch.half = false →
        exec (.cnth sym) s = .next (State.respond 0 0 { s with arch := { s.arch with
          freq := m, nsym := s.arch.nsym + 1,
          kdist := if s.arch.freqAt sym = 0 then s.arch.kdist + 1 else s.arch.kdist } })) ∧
      (s.arch.half = true → ∀ b : Byte, sym.toNat = s.arch.hold.toNat * 256 + b.toNat →
        exec (.cntb b) s = .next (State.respond 0 0 { s with arch := { s.arch with
          freq := m, nsym := s.arch.nsym + 1, half := false,
          kdist := if s.arch.freqAt sym = 0 then s.arch.kdist + 1 else s.arch.kdist } }))

/-- R62, R113: a whole-symbol push that executes with HALF = 0 leaves what the two byte pushes of its bytes leave, but
for the byte in HOLD; in pass 1 and in pass 2. -/
def Obligations.WholeSymbolPushEqualsTwoBytePushes : Prop :=
  ∀ (s t : State) (hi lo : Byte), s.arch.half = false →
    (exec (.cnth (hi ++ lo)) s = .next t → t.lastErr = 0 →
      ∃ u v, exec (.cntb hi) s = .next u ∧ exec (.cntb lo) u = .next v ∧ v.lastErr = 0 ∧
        v.arch = { t.arch with hold := hi }) ∧
    (exec (.ench (hi ++ lo)) s = .next t → t.lastErr = 0 →
      ∃ u v, exec (.encb hi) s = .next u ∧ exec (.encb lo) u = .next v ∧ v.lastErr = 0 ∧
        v.arch = { t.arch with hold := hi })

/-- R117: counting the symbols of a list and counting those of a permutation of it leave the same state. -/
def Obligations.CountingIsOrderIndependent : Prop :=
  ∀ (s t : State) (l l' : List Sym), Memory.wf 0 Config.numSymbols s.arch.freq = true → l.Perm l' →
    runAll (l.map .cnth) s = .next t → t.arch.fault = false → runAll (l'.map .cnth) s = .next t

/-- R130, R177: in a canonical memory the scan of all indices in ascending order meets exactly the listed entries, so a
loop over the listed entries is the loop over all of them. The canonical form is the model's (log entry 3). -/
def Obligations.ListedEntriesAreTheScan : Prop :=
  ∀ (b : Nat) (m : Memory Count), Memory.wf 0 b m = true →
    m = (List.range b).filterMap fun i => if Memory.read 0 m i = 0 then none else some (i, Memory.read 0 m i)

/-! ### Tree builder (spec/41_tree_builder.md) -/

/-- R137: BUILD with KDIST = 0 raises EmptyInput, FINFO 0x20000000, and changes nothing else. -/
def Obligations.BuildOnEmptyHistogramRaisesEmptyInput : Prop :=
  ∀ s : State, s.arch.fault = false → s.arch.phase = .count → s.arch.kdist = 0 →
    exec .build s = .next (State.respond 7 0 { s with arch := { s.arch with
      fault := true, fcause := 7, finfo := 0x20000000 } })

/-- R130 to R135, R40 items 5 to 7: BUILD on a histogram that is not empty answers a next state in phase TREE whose
arena is the tree those rules describe, with HALF = 0; only HALF, NODE, NNODE, ROOT and PHASE are written. -/
def Obligations.BuildMakesTheTree : Prop :=
  ∀ s : State, Bookkeeping s.arch → s.arch.fault = false → s.arch.phase = .count → s.arch.kdist ≠ 0 →
    ∃ (node : Memory Node) (nnode : BitVec 17) (root : Handle),
      exec .build s = .next (State.respond 0 0 { s with arch := { s.arch with
        half := false, node := node, nnode := nnode, root := root, phase := .tree } }) ∧
      TreeOk { s.arch with half := false, node := node, nnode := nnode, root := root, phase := .tree }

/-- R136: with one symbol counted, BUILD makes its leaf the root at handle 0, merging nothing. -/
def Obligations.BuildOfOneSymbolIsItsLeaf : Prop :=
  ∀ (s : State) (sym : Sym), Bookkeeping s.arch → s.arch.fault = false → s.arch.phase = .count →
    s.arch.kdist = 1 → s.arch.freqAt sym ≠ 0 →
    exec .build s = .next (State.respond 0 0 { s with arch := { s.arch with
      half := false, node := [(0, ⟨true, s.arch.nsym, sym, 0, 0⟩)], nnode := 1, root := 0, phase := .tree } })

/-- R139: the tree is a function of the histogram alone. -/
def Obligations.TreeDependsOnHistogramAlone : Prop :=
  ∀ s s' t : State, Bookkeeping s.arch → Bookkeeping s'.arch → s.arch.fault = false → s'.arch.fault = false →
    s.arch.phase = .count → s'.arch.phase = .count → s.arch.freq = s'.arch.freq → s.arch.kdist ≠ 0 →
    exec .build s = .next t →
    ∃ t', exec .build s' = .next t' ∧ t'.arch.node = t.arch.node ∧ t'.arch.nnode = t.arch.nnode ∧
      t'.arch.root = t.arch.root

/-- R140 (a): internal nodes are created in non-decreasing weight order. -/
def Obligations.InternalWeightsRise : Prop :=
  ∀ (a : Arch) (p q : Nat), TreeOk a → a.kdist.toNat ≤ p → p ≤ q → q < a.nnode.toNat →
    (a.nodeAt p).wt.toNat ≤ (a.nodeAt q).wt.toNat

/-- R138: for two symbols or more the encoded length of the histogram is the sum of the internal nodes' weights. -/
def Obligations.WeightedLengthIsSumOfInternalWeights : Prop :=
  ∀ a : Arch, Inv a → a.phase ≠ .count → a.phase ≠ .tree → 2 ≤ a.kdist.toNat →
    weightedLength a =
      ((List.range a.nnode.toNat).map fun p => if a.kdist.toNat ≤ p then (a.nodeAt p).wt.toNat else 0).sum

/-- R138: the encoded length of the histogram is least among all codes in which no present symbol's code begins with
another's. -/
def Obligations.CodebookIsOptimal : Prop :=
  ∀ (a : Arch) (c : Sym → List Bool), Inv a → a.phase ≠ .count → a.phase ≠ .tree → 2 ≤ a.kdist.toNat →
    (∀ s t : Sym, s ≠ t → a.freqAt s ≠ 0 → a.freqAt t ≠ 0 → ¬ c s <+: c t) →
    weightedLength a ≤ (a.freq.map fun e => e.2.toNat * (c (BitVec.ofNat 16 e.1)).length).sum

/-! ### Code-path generator (spec/42_code_generator.md) -/

/-- R150, R151, R153, R155: GENCODE over a tree whose paths are not longer than CODEW answers a next state in phase CODE
whose codebook gives each leaf's symbol its path; only CLEN, CBITS, MAXLEN and PHASE are written. -/
def Obligations.GencodeWritesTheCodebook : Prop :=
  ∀ s : State, TreeInv s.arch → s.arch.fault = false → s.arch.phase = .tree →
    (∀ x < s.arch.kdist.toNat, ∀ p, Path s.arch x p → p.length ≤ 64) →
    ∃ (clen : Memory CodeLen) (cbits : Memory Data) (maxlen : CodeLen),
      exec .gencode s = .next (State.respond 0 0 { s with arch := { s.arch with
        clen := clen, cbits := cbits, maxlen := maxlen, phase := .code } }) ∧
      CodeOk { s.arch with clen := clen, cbits := cbits, maxlen := maxlen, phase := .code }

/-- R152: with the default parameters CodeOverflow cannot occur; no code is longer than 45. -/
def Obligations.GencodeNeverOverflows : Prop :=
  ∀ s : State, TreeInv s.arch → s.arch.fault = false → s.arch.phase = .tree →
    ∃ t, exec .gencode s = .next t ∧ t.lastErr = 0 ∧ t.arch.phase = .code ∧ t.arch.maxlen.toNat ≤ 45

/-- R151 to R153, V39: whatever limit CODEW sets, a longer code raises CodeOverflow with nothing written, the code `[0]`
of a single leaf included; codes within the limit are written, as the codebook where they fit its 64 bits. -/
def Obligations.LongCodeRaisesCodeOverflow : Prop :=
  ∀ (limit : Nat) (w : Word) (a : Arch), TreeInv a → a.phase = .tree →
    (∀ x p, 2 ≤ a.kdist.toNat → x < a.kdist.toNat → Path a x p → limit < p.length →
      gencodeEffect limit w a = .trap ⟨.codeOverflow, w⟩) ∧
    (a.kdist = 1 → limit = 0 → gencodeEffect limit w a = .trap ⟨.codeOverflow, w⟩) ∧
    (1 ≤ limit → (∀ x < a.kdist.toNat, ∀ p, Path a x p → p.length ≤ limit) →
      ∃ (clen : Memory CodeLen) (cbits : Memory Data) (maxlen : CodeLen),
        gencodeEffect limit w a = .done { a with clen := clen, cbits := cbits, maxlen := maxlen, phase := .code } 0 ∧
        (limit ≤ 64 → CodeOk { a with clen := clen, cbits := cbits, maxlen := maxlen, phase := .code }))

/-! ### Bit-stream length calculator (spec/43_length_calculator.md) -/

/-- R170: ENCBEGIN in phases CODE and DONE. -/
def Obligations.EncbeginStartsAPass : Prop :=
  ∀ s : State, s.arch.fault = false → s.arch.phase = .code ∨ s.arch.phase = .done →
    exec .encbegin s = .next (State.respond 0 0 { s with arch := { s.arch with
      nenc := 0, encbits := 0, half := false, phase := .enc } })

/-- R171, R174, R175: a symbol with an entry, pushed whole or completed by a second byte below CNTMAX, adds one to NENC
and its code length to ENCBITS. -/
def Obligations.SymbolIsEncoded : Prop :=
  ∀ (s : State) (sym : Sym), s.arch.fault = false → s.arch.phase = .enc → s.arch.clenAt sym ≠ 0 →
    s.arch.nenc.toNat ≠ 2 ^ 32 - 1 →
    (s.arch.half = false →
      exec (.ench sym) s = .next (State.respond 0 0 { s with arch := { s.arch with
        nenc := s.arch.nenc + 1, encbits := s.arch.encbits + (s.arch.clenAt sym).setWidth 64 } })) ∧
    (s.arch.half = true → ∀ b : Byte, sym.toNat = s.arch.hold.toNat * 256 + b.toNat →
      exec (.encb b) s = .next (State.respond 0 0 { s with arch := { s.arch with
        nenc := s.arch.nenc + 1, encbits := s.arch.encbits + (s.arch.clenAt sym).setWidth 64, half := false } }))

/-- R172: a pass-2 symbol with no entry raises LookupFailure (code 8) with the symbol and changes nothing else, also at
NENC = CNTMAX, because the lookup check comes first. -/
def Obligations.SymbolWithoutEntryRaisesLookupFailure : Prop :=
  ∀ (s : State) (sym : Sym), s.arch.fault = false → s.arch.phase = .enc → s.arch.clenAt sym = 0 →
    (s.arch.half = false →
      exec (.ench sym) s = .next (State.respond 8 0 { s with arch := { s.arch with
        fault := true, fcause := 8, finfo := sym.setWidth 32 } })) ∧
    (s.arch.half = true → ∀ b : Byte, sym.toNat = s.arch.hold.toNat * 256 + b.toNat →
      exec (.encb b) s = .next (State.respond 8 0 { s with arch := { s.arch with
        fault := true, fcause := 8, finfo := sym.setWidth 32 } }))

/-- R114, R173: at NSYM = CNTMAX a command that would count one more symbol, and at NENC = CNTMAX a command that would
accept one more symbol whose CLEN is non-zero, raises CountOverflow (cause 9) with the command word and changes nothing
else. -/
def Obligations.CountOverflowChangesNothingElse : Prop :=
  ∀ s : State, s.arch.fault = false →
    (s.arch.phase = .count → s.arch.nsym.toNat = 4294967295 →
      (s.arch.half = false → ∀ sym, exec (.cnth sym) s = .next (State.respond 9 0 { s with arch := { s.arch with
        fault := true, fcause := 9, finfo := encode (.cnth sym) } })) ∧
      (s.arch.half = true → ∀ b, exec (.cntb b) s = .next (State.respond 9 0 { s with arch := { s.arch with
        fault := true, fcause := 9, finfo := encode (.cntb b) } }))) ∧
    (s.arch.phase = .enc → s.arch.nenc.toNat = 4294967295 → ∀ sym : Sym, s.arch.clenAt sym ≠ 0 →
      (s.arch.half = false → exec (.ench sym) s = .next (State.respond 9 0 { s with arch := { s.arch with
        fault := true, fcause := 9, finfo := encode (.ench sym) } })) ∧
      (s.arch.half = true → ∀ b : Byte, sym.toNat = s.arch.hold.toNat * 256 + b.toNat →
        exec (.encb b) s = .next (State.respond 9 0 { s with arch := { s.arch with
          fault := true, fcause := 9, finfo := encode (.encb b) } })))

/-- R176: ENCEND drops an odd byte and makes the totals final; RATIO_OK becomes 1 iff ENCBITS is not 0. -/
def Obligations.EncendEndsThePass : Prop :=
  ∀ s : State, s.arch.fault = false → s.arch.phase = .enc →
    ∃ t, exec .encend s = .next t ∧
      t = State.respond 0 0 { s with arch := { s.arch with half := false, phase := .done } } ∧
      (t.arch.ratioOk = true ↔ s.arch.encbits ≠ 0)

/-- R177: ENCSUM in phases CODE and DONE sets NENC to NSYM and ENCBITS to the sum over all 65536 symbols of FREQ x CLEN.
-/
def Obligations.EncsumAddsTheHistogram : Prop :=
  ∀ s : State, Memory.wf 0 Config.numSymbols s.arch.freq = true → s.arch.fault = false →
    s.arch.phase = .code ∨ s.arch.phase = .done →
    exec .encsum s = .next (State.respond 0 0 { s with arch := { s.arch with
      nenc := s.arch.nsym, phase := .done,
      encbits := BitVec.ofNat 64 (∑ j ∈ Finset.range 65536,
        (s.arch.freqAt (BitVec.ofNat 16 j)).toNat * (s.arch.clenAt (BitVec.ofNat 16 j)).toNat) } })

/-- R178: a pass 2 over any order of the symbols counted in pass 1 meets no LookupFailure and ends in the state ENCSUM
leaves. -/
def Obligations.PassTwoAgreesWithEncsum : Prop :=
  ∀ (s : State) (l : List Sym), Inv s.arch → s.arch.fault = false → s.arch.phase = .code ∨ s.arch.phase = .done →
    (∀ x : Sym, l.count x = (s.arch.freqAt x).toNat) →
    ∃ t u, runAll ([.encbegin] ++ l.map .ench ++ [.encend]) s = .next t ∧ exec .encsum s = .next u ∧
      t.arch = u.arch

/-- R179: with one symbol counted every code length is 1, the encoded length is the number of symbols, and the ratio
is 16. -/
def Obligations.SingleSymbolRatioIsSixteen : Prop :=
  ∀ a : Arch, Inv a → a.phase ≠ .count → a.phase ≠ .tree → a.kdist = 1 →
    (∀ sym : Sym, a.clenAt sym ≠ 0 → a.clenAt sym = 1) ∧ a.encbits.toNat = a.nenc.toNat ∧
    (a.ratioOk = true → 0 < a.encbits.toNat ∧ a.origbits.toNat = 16 * a.encbits.toNat)

/-- R181, R30: ORIGBITS is 16 x NENC, and a defined ratio ORIGBITS / ENCBITS lies between 1/4 and 16. -/
def Obligations.DefinedRatioIsBounded : Prop :=
  ∀ a : Arch, a.origbits.toNat = 16 * a.nenc.toNat ∧
    (Inv a → a.ratioOk = true → 0 < a.encbits.toNat ∧ a.encbits.toNat ≤ 4 * a.origbits.toNat ∧
      a.origbits.toNat ≤ 16 * a.encbits.toNat)

/-! ### Control and readout (spec/44_control_readout.md) -/

/-- R200, R201: CLEAR in every state leaves the reset state, bit for bit the one the input `rst` leaves. -/
def Obligations.ClearLeavesResetState : Prop :=
  (∀ s : State, exec .clear s = .next (State.respond 0 0 { s with arch := State.reset.arch })) ∧
  (∀ (s : State) (rest : List HostMove), s.inbox = .reset :: rest →
    ∃ t u, step s = .next t ∧ exec .clear s = .next u ∧ u.arch = t.arch)

/-- R203: SRCERR raises SourceUnavailable in every phase and changes nothing else; with FAULT = 1 it answers Faulted. -/
def Obligations.SrcerrRaisesSourceUnavailable : Prop :=
  ∀ s : State,
    (s.arch.fault = false → exec .srcerr s = .next (State.respond 6 0 { s with arch := { s.arch with
      fault := true, fcause := 6, finfo := 0x02000000 } })) ∧
    (s.arch.fault = true → exec .srcerr s = .next (State.respond 1 0 s))

/-- R32, R33, R204: RDREG answers each of the thirteen control registers, zero-extended, and changes nothing. -/
def Obligations.RdregAnswersTheControlRegister : Prop :=
  ∀ s : State,
    exec (.rdreg 0) s = .next (State.respond 0 0x5A504E4E s) ∧
    exec (.rdreg 1) s = .next (State.respond 0 0x104020 s) ∧
    exec (.rdreg 2) s = .next (State.respond 0 s.arch.status s) ∧
    exec (.rdreg 3) s = .next (State.respond 0 (s.arch.fcause.setWidth 64) s) ∧
    exec (.rdreg 4) s = .next (State.respond 0 (s.arch.finfo.setWidth 64) s) ∧
    exec (.rdreg 5) s = .next (State.respond 0 (s.arch.nsym.setWidth 64) s) ∧
    exec (.rdreg 6) s = .next (State.respond 0 (s.arch.kdist.setWidth 64) s) ∧
    exec (.rdreg 7) s = .next (State.respond 0 (s.arch.nnode.setWidth 64) s) ∧
    exec (.rdreg 8) s = .next (State.respond 0 (s.arch.root.setWidth 64) s) ∧
    exec (.rdreg 9) s = .next (State.respond 0 (s.arch.maxlen.setWidth 64) s) ∧
    exec (.rdreg 10) s = .next (State.respond 0 (s.arch.nenc.setWidth 64) s) ∧
    exec (.rdreg 11) s = .next (State.respond 0 s.arch.encbits s) ∧
    exec (.rdreg 12) s = .next (State.respond 0 (BitVec.ofNat 64 (16 * s.arch.nenc.toNat)) s)

/-- R34: the fields of STATUS. -/
def Obligations.StatusFields : Prop :=
  ∀ a : Arch,
    a.status.toNat % 8 = (match a.phase with | .count => 0 | .tree => 1 | .code => 2 | .enc => 3 | .done => 4) ∧
    a.status.getLsbD 3 = a.half ∧ a.status.getLsbD 4 = a.fault ∧
    (a.status.getLsbD 5 = true ↔ a.phase = .done ∧ a.fault = false ∧ a.encbits ≠ 0) ∧
    a.status.toNat < 64

/-- R205, R206, R207: the symbol reads answer FREQ, CLEN and CBITS of the symbol, zero-extended, in every state, and
change nothing. -/
def Obligations.SymbolReadsAnswerTheMemories : Prop :=
  ∀ (s : State) (sym : Sym),
    exec (.rdfreq sym) s = .next (State.respond 0 ((s.arch.freqAt sym).setWidth 64) s) ∧
    exec (.rdclen sym) s = .next (State.respond 0 ((s.arch.clenAt sym).setWidth 64) s) ∧
    exec (.rdcode sym) s = .next (State.respond 0 (s.arch.cbitsAt sym) s)

/-- R208, R209: the node reads of a handle below NNODE answer the node's weight, and its kind with its symbol or its
children in the layout given, and change nothing. -/
def Obligations.NodeReadsAnswerTheArena : Prop :=
  ∀ (s : State) (n : Handle), n.toNat < s.arch.nnode.toNat →
    exec (.rdnw n) s = .next (State.respond 0 ((s.arch.nodeAt n.toNat).wt.setWidth 64) s) ∧
    ((s.arch.nodeAt n.toNat).leaf = true → exec (.rdnc n) s =
      .next (State.respond 0 (BitVec.ofNat 64 (2 ^ 63 + (s.arch.nodeAt n.toNat).sym.toNat)) s)) ∧
    ((s.arch.nodeAt n.toNat).leaf = false → exec (.rdnc n) s =
      .next (State.respond 0 (BitVec.ofNat 64
        ((s.arch.nodeAt n.toNat).right.toNat * 2 ^ 32 + (s.arch.nodeAt n.toNat).left.toNat)) s))

/-- R65: a read that succeeds leaves the state as it was. -/
def Obligations.SuccessfulReadHasNoSideEffect : Prop :=
  ∀ (i : Instr) (s t : State), isRead i = true → exec i s = .next t → t.lastErr = 0 →
    t.arch = s.arch ∧ exec i t = .next (State.respond 0 t.lastData t)

/-! ### The whole machine (spec/10_state.md) -/

/-- R20, the column `written by`: a register or memory changes only under the commands listed for it. -/
def Obligations.RegistersChangeOnlyUnderTheirWriters : Prop :=
  ∀ (i : Instr) (s t : State), exec i s = .next t →
    (t.arch.phase ≠ s.arch.phase → i.mnemonic ∈ [.BUILD, .GENCODE, .ENCBEGIN, .ENCEND, .ENCSUM, .CLEAR]) ∧
    (t.arch.half ≠ s.arch.half → i.mnemonic ∈ [.CNTB, .ENCB, .BUILD, .ENCBEGIN, .ENCEND, .CLEAR]) ∧
    (t.arch.hold ≠ s.arch.hold → i.mnemonic ∈ [.CNTB, .ENCB, .CLEAR]) ∧
    (t.arch.nsym ≠ s.arch.nsym → i.mnemonic ∈ [.CNTB, .CNTH, .CLEAR]) ∧
    (t.arch.kdist ≠ s.arch.kdist → i.mnemonic ∈ [.CNTB, .CNTH, .CLEAR]) ∧
    (t.arch.freq ≠ s.arch.freq → i.mnemonic ∈ [.CNTB, .CNTH, .CLEAR]) ∧
    (t.arch.node ≠ s.arch.node → i.mnemonic ∈ [.BUILD, .CLEAR]) ∧
    (t.arch.nnode ≠ s.arch.nnode → i.mnemonic ∈ [.BUILD, .CLEAR]) ∧
    (t.arch.root ≠ s.arch.root → i.mnemonic ∈ [.BUILD, .CLEAR]) ∧
    (t.arch.clen ≠ s.arch.clen → i.mnemonic ∈ [.GENCODE, .CLEAR]) ∧
    (t.arch.cbits ≠ s.arch.cbits → i.mnemonic ∈ [.GENCODE, .CLEAR]) ∧
    (t.arch.maxlen ≠ s.arch.maxlen → i.mnemonic ∈ [.GENCODE, .CLEAR]) ∧
    (t.arch.nenc ≠ s.arch.nenc → i.mnemonic ∈ [.ENCBEGIN, .ENCB, .ENCH, .ENCSUM, .CLEAR]) ∧
    (t.arch.encbits ≠ s.arch.encbits → i.mnemonic ∈ [.ENCBEGIN, .ENCB, .ENCH, .ENCSUM, .CLEAR]) ∧
    (t.arch.fault ≠ s.arch.fault ∨ t.arch.fcause ≠ s.arch.fcause ∨ t.arch.finfo ≠ s.arch.finfo →
      t.lastErr ≠ 0 ∨ i = .clear)

/-- R23: the only changes of PHASE, each by its command; a failed command changes it never. -/
def Obligations.PhaseTransitions : Prop :=
  ∀ (i : Instr) (s t : State), exec i s = .next t →
    t.arch.phase = s.arch.phase ∨
    (t.lastErr = 0 ∧
      ((i = .build ∧ s.arch.phase = .count ∧ t.arch.phase = .tree) ∨
       (i = .gencode ∧ s.arch.phase = .tree ∧ t.arch.phase = .code) ∨
       (i = .encbegin ∧ (s.arch.phase = .code ∨ s.arch.phase = .done) ∧ t.arch.phase = .enc) ∨
       (i = .encend ∧ s.arch.phase = .enc ∧ t.arch.phase = .done) ∨
       (i = .encsum ∧ s.arch.phase = .code ∧ t.arch.phase = .done) ∨
       (i = .clear ∧ t.arch.phase = .count)))

/-- R39, R20: what reset leaves in every register and at every index of every memory. -/
def Obligations.ResetValues : Prop :=
  let a := State.reset.arch
  a.phase = .count ∧ a.half = false ∧ a.hold = 0 ∧ a.nsym = 0 ∧ a.kdist = 0 ∧ a.nnode = 0 ∧ a.root = 0 ∧
  a.maxlen = 0 ∧ a.nenc = 0 ∧ a.encbits = 0 ∧ a.fault = false ∧ a.fcause = 0 ∧ a.finfo = 0 ∧
  (∀ s : Sym, a.freqAt s = 0 ∧ a.clenAt s = 0 ∧ a.cbitsAt s = 0) ∧ (∀ n, a.nodeAt n = ⟨false, 0, 0, 0, 0⟩) ∧
  a.status = 0 ∧ a.origbits = 0 ∧ a.csr 0 = some 0x5A504E4E ∧ a.csr 1 = some 0x104020

/-- The invariant of R40 holds at reset. -/
def Obligations.InvariantHoldsAtReset : Prop := Inv State.reset.arch

/-- R40 items 1 to 4, R31, the canonical memories: every step keeps the bookkeeping. -/
def Obligations.StepKeepsBookkeeping : Prop :=
  ∀ s t : State, Bookkeeping s.arch → step s = .next t → Bookkeeping t.arch

/-- R40 items 5 to 7, R141: every step keeps the arena the tree that R130 to R133 describe. -/
def Obligations.StepKeepsTheTree : Prop :=
  ∀ s t : State, TreeInv s.arch → step s = .next t → TreeInv t.arch

/-- R40 items 1 to 10, R155 to R157: every step keeps the whole invariant. -/
def Obligations.StepKeepsTheInvariant : Prop :=
  ∀ s t : State, Inv s.arch → step s = .next t → Inv t.arch

/-- R82, R268: from every state that meets the invariant of the tree, a step answers a next state: no command stops the
model. -/
def Obligations.StepNeverStops : Prop :=
  ∀ s : State, TreeInv s.arch → ∃ t, step s = .next t
end

