-- ==== Sys2Proof/Laws/State.lean ====
section
/-! SUPPORT. One lemma per field per named update of the state, each true by rfl (or by the one case split the
update makes). -/

namespace Sys2Proof.Machine

/-! ### respond -/

@[simp] theorem respond_arch (e : BitVec 4) (d : Data) (s : State) : (s.respond e d).arch = s.arch := rfl
@[simp] theorem respond_inbox (e : BitVec 4) (d : Data) (s : State) : (s.respond e d).inbox = s.inbox := rfl
@[simp] theorem respond_responses (e : BitVec 4) (d : Data) (s : State) :
    (s.respond e d).responses = ⟨e, d⟩ :: s.responses := rfl
@[simp] theorem respond_lastErr (e : BitVec 4) (d : Data) (s : State) : (s.respond e d).lastErr = e := rfl
@[simp] theorem respond_lastData (e : BitVec 4) (d : Data) (s : State) : (s.respond e d).lastData = d := rfl

/-! ### recordFault -/

theorem recordFault_of_fault (t : Trap) {a : Arch} (h : a.fault = true) : a.recordFault t = a := by
  simp [Arch.recordFault, h]

theorem recordFault_of_noFault (t : Trap) {a : Arch} (h : a.fault = false) :
    a.recordFault t = { a with fault := true, fcause := t.cause.code, finfo := t.info } := by
  simp [Arch.recordFault, h]

@[simp] theorem recordFault_fault (t : Trap) (a : Arch) : (a.recordFault t).fault = true := by
  cases h : a.fault <;> simp [Arch.recordFault, h]
@[simp] theorem recordFault_phase (t : Trap) (a : Arch) : (a.recordFault t).phase = a.phase := by
  cases h : a.fault <;> simp [Arch.recordFault, h]
@[simp] theorem recordFault_half (t : Trap) (a : Arch) : (a.recordFault t).half = a.half := by
  cases h : a.fault <;> simp [Arch.recordFault, h]
@[simp] theorem recordFault_hold (t : Trap) (a : Arch) : (a.recordFault t).hold = a.hold := by
  cases h : a.fault <;> simp [Arch.recordFault, h]
@[simp] theorem recordFault_nsym (t : Trap) (a : Arch) : (a.recordFault t).nsym = a.nsym := by
  cases h : a.fault <;> simp [Arch.recordFault, h]
@[simp] theorem recordFault_kdist (t : Trap) (a : Arch) : (a.recordFault t).kdist = a.kdist := by
  cases h : a.fault <;> simp [Arch.recordFault, h]
@[simp] theorem recordFault_freq (t : Trap) (a : Arch) : (a.recordFault t).freq = a.freq := by
  cases h : a.fault <;> simp [Arch.recordFault, h]
@[simp] theorem recordFault_node (t : Trap) (a : Arch) : (a.recordFault t).node = a.node := by
  cases h : a.fault <;> simp [Arch.recordFault, h]
@[simp] theorem recordFault_nnode (t : Trap) (a : Arch) : (a.recordFault t).nnode = a.nnode := by
  cases h : a.fault <;> simp [Arch.recordFault, h]
@[simp] theorem recordFault_root (t : Trap) (a : Arch) : (a.recordFault t).root = a.root := by
  cases h : a.fault <;> simp [Arch.recordFault, h]
@[simp] theorem recordFault_clen (t : Trap) (a : Arch) : (a.recordFault t).clen = a.clen := by
  cases h : a.fault <;> simp [Arch.recordFault, h]
@[simp] theorem recordFault_cbits (t : Trap) (a : Arch) : (a.recordFault t).cbits = a.cbits := by
  cases h : a.fault <;> simp [Arch.recordFault, h]
@[simp] theorem recordFault_maxlen (t : Trap) (a : Arch) : (a.recordFault t).maxlen = a.maxlen := by
  cases h : a.fault <;> simp [Arch.recordFault, h]
@[simp] theorem recordFault_nenc (t : Trap) (a : Arch) : (a.recordFault t).nenc = a.nenc := by
  cases h : a.fault <;> simp [Arch.recordFault, h]
@[simp] theorem recordFault_encbits (t : Trap) (a : Arch) : (a.recordFault t).encbits = a.encbits := by
  cases h : a.fault <;> simp [Arch.recordFault, h]

/-! ### raiseFault -/

@[simp] theorem raiseFault_arch (t : Trap) (s : State) : (s.raiseFault t).arch = s.arch.recordFault t := rfl
@[simp] theorem raiseFault_inbox (t : Trap) (s : State) : (s.raiseFault t).inbox = s.inbox := rfl
@[simp] theorem raiseFault_responses (t : Trap) (s : State) :
    (s.raiseFault t).responses = ⟨t.cause.code, 0⟩ :: s.responses := rfl
@[simp] theorem raiseFault_lastErr (t : Trap) (s : State) : (s.raiseFault t).lastErr = t.cause.code := rfl
@[simp] theorem raiseFault_lastData (t : Trap) (s : State) : (s.raiseFault t).lastData = 0 := rfl

/-! ### clearRun, offer -/

@[simp] theorem clearRun_arch (s : State) : s.clearRun.arch = Arch.reset := rfl
@[simp] theorem clearRun_inbox (s : State) : s.clearRun.inbox = s.inbox := rfl
@[simp] theorem clearRun_responses (s : State) : s.clearRun.responses = s.responses := rfl
@[simp] theorem offer_arch (m : HostMove) (s : State) : (s.offer m).arch = s.arch := rfl
@[simp] theorem offer_inbox (m : HostMove) (s : State) : (s.offer m).inbox = m :: s.inbox := rfl
@[simp] theorem offer_responses (m : HostMove) (s : State) : (s.offer m).responses = s.responses := rfl

/-! ### setFreq, setCode: the field each writes; every other field by rfl in `simp` -/

@[simp] theorem setFreq_freq (a : Arch) (s : Sym) (v : Count) :
    (a.setFreq s v).freq = Memory.write 0 a.freq s.toNat v := rfl
@[simp] theorem setFreq_rest (a : Arch) (s : Sym) (v : Count) : { a.setFreq s v with freq := a.freq } = a := rfl
@[simp] theorem setCode_clen (a : Arch) (s : Sym) (l : CodeLen) (b : Data) :
    (a.setCode s l b).clen = Memory.write 0 a.clen s.toNat l := rfl
@[simp] theorem setCode_cbits (a : Arch) (s : Sym) (l : CodeLen) (b : Data) :
    (a.setCode s l b).cbits = Memory.write 0 a.cbits s.toNat b := rfl
@[simp] theorem setCode_rest (a : Arch) (s : Sym) (l : CodeLen) (b : Data) :
    { a.setCode s l b with clen := a.clen, cbits := a.cbits } = a := rfl

/-! ### Causes -/

theorem Cause.code_ne_zero (c : Cause) : c.code ≠ 0 := by cases c <;> decide
theorem Cause.code_le (c : Cause) : c.code.toNat ≤ 10 := by cases c <;> decide
theorem Cause.two_le_code {c : Cause} (h : c ≠ .faulted) : 2 ≤ c.code.toNat := by
  cases c <;> first | exact absurd rfl h | decide

/-! ### deliver, asmByte -/

/-- Everything a command's completion can do. -/
theorem deliver_next {s t : State} {e : Effect} (h : deliver s e = .next t) :
    (∃ a d, e = .done a d ∧ t = State.respond 0 d { s with arch := a }) ∨
    (∃ tr, e = .trap tr ∧ t = State.raiseFault tr s) := by
  cases e with
  | done a d => exact .inl ⟨a, d, rfl, by simpa [deliver] using h.symm⟩
  | trap tr => exact .inr ⟨tr, rfl, by simpa [deliver] using h.symm⟩
  | stuck f => simp [deliver] at h

theorem asmByte_first (b : Byte) {a : Arch} (h : a.half = false) :
    asmByte b a = ({ a with hold := b, half := true }, none) := by simp [asmByte, h]

theorem asmByte_second (b : Byte) {a : Arch} (h : a.half = true) :
    asmByte b a = (a, some (pairBytes a.hold b)) := by simp [asmByte, h]

/-- A next move takes the head of the inbox and nothing else. -/
theorem nextMove_some {s : State} {m : HostMove} {rest : List HostMove} (h : s.inbox = m :: rest) :
    nextMove s = some (m, { s with inbox := rest }) := by simp [nextMove, h]

end Sys2Proof.Machine
end

