-- ==== Sys2Proof/Laws/Memory.lean ====
section
/-! SUPPORT. The laws of a memory: what a write leaves to be read, the canonical form is kept and is unique, a sum over
the listed entries is the sum over all indices. -/

namespace Sys2Proof.Machine

variable {α : Type} {z : α} {m m' : Memory α} {i j : Nat} {v : α} {lo b : Nat}

/-! ### Reading -/

theorem read_insert_of_absent (h : ∀ e ∈ m, e.1 ≠ i) :
    Memory.read z (Memory.insert i v m) j = if j = i then v else Memory.read z m j := by
  induction m with
  | nil => simp [Memory.insert, Memory.read, eq_comm]
  | cons e m ih =>
    obtain ⟨k, w⟩ := e
    have hk : k ≠ i := h (k, w) (by simp)
    have ih := ih fun e he => h e (by simp [he])
    simp only [Memory.insert]
    split
    · simp [Memory.read, eq_comm]
    · simp only [Memory.read, ih]
      grind

theorem read_others : Memory.read z (m.filter fun e => e.1 ≠ i) j = if j = i then z else Memory.read z m j := by
  induction m with
  | nil => simp [Memory.read]
  | cons e m ih =>
    obtain ⟨k, w⟩ := e
    by_cases hk : k = i
    · subst hk
      simp only [ne_eq, not_true_eq_false, decide_false, Bool.false_eq_true, not_false_eq_true, List.filter_cons_of_neg,
        ih, Memory.read]
      grind
    · simp only [ne_eq, hk, not_false_eq_true, decide_true, List.filter_cons_of_pos, Memory.read, ih]
      grind

@[simp] theorem read_nil : Memory.read z ([] : Memory α) i = z := rfl

theorem mem_of_read_ne (h : Memory.read z m i ≠ z) : (i, Memory.read z m i) ∈ m := by
  induction m with
  | nil => simp at h
  | cons x m ih =>
    obtain ⟨k, w⟩ := x
    simp only [Memory.read] at h ⊢
    split
    · next hk => simp [hk]
    · next hk =>
      rw [if_neg hk] at h
      simp [ih h]

variable [DecidableEq α]

/-- Read after write, and a write leaves every other index alone. -/
theorem read_write : Memory.read z (Memory.write z m i v) j = if j = i then v else Memory.read z m j := by
  unfold Memory.write
  split
  · next h => rw [read_others, h]
  · rw [read_insert_of_absent (by simp), read_others]
    grind

@[simp] theorem read_write_self : Memory.read z (Memory.write z m i v) i = v := by simp [read_write]

theorem read_write_ne (h : j ≠ i) : Memory.read z (Memory.write z m i v) j = Memory.read z m j := by
  simp [read_write, h]

/-! ### The canonical form -/

theorem wfFrom_mono {lo' : Nat} (hl : lo' ≤ lo) (h : Memory.wfFrom z b lo m = true) :
    Memory.wfFrom z b lo' m = true := by
  cases m with
  | nil => rfl
  | cons e m =>
    obtain ⟨k, w⟩ := e
    simp only [Memory.wfFrom, Bool.and_eq_true, decide_eq_true_eq] at h ⊢
    exact ⟨⟨⟨hl.trans h.1.1.1, h.1.1.2⟩, h.1.2⟩, h.2⟩

theorem wfFrom_mem (h : Memory.wfFrom z b lo m = true) : ∀ e ∈ m, lo ≤ e.1 ∧ e.1 < b ∧ e.2 ≠ z := by
  induction m generalizing lo with
  | nil => simp
  | cons e m ih =>
    obtain ⟨k, w⟩ := e
    simp only [Memory.wfFrom, Bool.and_eq_true, decide_eq_true_eq] at h
    intro x hx
    rcases List.mem_cons.mp hx with rfl | hx
    · exact ⟨h.1.1.1, h.1.1.2, by simpa using h.1.2⟩
    · have hx := ih h.2 x hx
      exact ⟨by omega, hx.2⟩

theorem wfFrom_others (h : Memory.wfFrom z b lo m = true) :
    Memory.wfFrom z b lo (m.filter fun e => e.1 ≠ i) = true := by
  induction m generalizing lo with
  | nil => rfl
  | cons e m ih =>
    obtain ⟨k, w⟩ := e
    simp only [Memory.wfFrom, Bool.and_eq_true, decide_eq_true_eq] at h
    by_cases hk : k = i
    · simpa [hk] using wfFrom_mono (by omega) (ih h.2)
    · simpa [hk, Memory.wfFrom, h.1] using ih h.2

theorem wfFrom_insert (h : Memory.wfFrom z b lo m = true) (ha : ∀ e ∈ m, e.1 ≠ i) (hlo : lo ≤ i) (hb : i < b)
    (hv : v ≠ z) : Memory.wfFrom z b lo (Memory.insert i v m) = true := by
  induction m generalizing lo with
  | nil => simp [Memory.insert, Memory.wfFrom, hlo, hb, hv]
  | cons e m ih =>
    obtain ⟨k, w⟩ := e
    have hk : k ≠ i := ha (k, w) (by simp)
    simp only [Memory.wfFrom, Bool.and_eq_true, decide_eq_true_eq] at h
    simp only [Memory.insert]
    split
    · simp only [Memory.wfFrom, Bool.and_eq_true, decide_eq_true_eq]
      exact ⟨⟨⟨hlo, hb⟩, by simpa using hv⟩, ⟨⟨by omega, h.1.1.2⟩, h.1.2⟩, h.2⟩
    · simp only [Memory.wfFrom, Bool.and_eq_true, decide_eq_true_eq]
      exact ⟨h.1, ih h.2 (fun e he => ha e (by simp [he])) (by omega)⟩

/-- Every memory operation keeps the canonical form: a write does. -/
theorem wf_write (h : Memory.wf z b m = true) (hb : i < b) : Memory.wf z b (Memory.write z m i v) = true := by
  unfold Memory.write
  split
  · exact wfFrom_others h
  · next hv => exact wfFrom_insert (wfFrom_others h) (by simp) (Nat.zero_le _) hb hv

@[simp] theorem wf_nil : Memory.wf z b ([] : Memory α) = true := rfl

theorem read_of_below (h : Memory.wfFrom z b lo m = true) (hi : i < lo) : Memory.read z m i = z := by
  induction m generalizing lo with
  | nil => rfl
  | cons e m ih =>
    obtain ⟨k, w⟩ := e
    simp only [Memory.wfFrom, Bool.and_eq_true, decide_eq_true_eq] at h
    rw [Memory.read, if_neg (by omega)]
    exact ih h.2 (by omega)

/-- Equal memories are equal data: two canonical memories that read alike are the same list. -/
theorem ext_of_wfFrom (h : Memory.wfFrom z b lo m = true) (h' : Memory.wfFrom z b lo m' = true)
    (hr : ∀ i, Memory.read z m i = Memory.read z m' i) : m = m' := by
  induction m generalizing lo m' with
  | nil =>
    cases m' with
    | nil => rfl
    | cons e m' =>
      obtain ⟨k, w⟩ := e
      have := hr k
      simp only [Memory.wfFrom, Bool.and_eq_true, decide_eq_true_eq, Memory.read] at h' this
      simp_all
  | cons e m ih =>
    obtain ⟨k, w⟩ := e
    cases m' with
    | nil =>
      have := hr k
      simp only [Memory.wfFrom, Bool.and_eq_true, decide_eq_true_eq, Memory.read] at h this
      simp_all
    | cons e' m' =>
      obtain ⟨k', w'⟩ := e'
      simp only [Memory.wfFrom, Bool.and_eq_true, decide_eq_true_eq] at h h'
      have hk : k = k' := by
        have a := hr k
        have a' := hr k'
        have b1 : k < k' → Memory.read z m' k = z := fun hlt => read_of_below h'.2 (by omega)
        have b2 : k' < k → Memory.read z m k' = z := fun hlt => read_of_below h.2 (by omega)
        simp only [Memory.read, if_true] at a a'
        rcases Nat.lt_trichotomy k k' with hlt | he | hlt
        · rw [if_neg (by omega), b1 hlt] at a
          simp [a] at h
        · exact he
        · rw [if_neg (by omega), b2 hlt] at a'
          simp [← a'] at h'
      subst hk
      have hw : w = w' := by simpa [Memory.read] using hr k
      subst hw
      refine congrArg _ (ih h.2 h'.2 fun i => ?_)
      by_cases hi : i = k
      · subst hi
        rw [read_of_below h.2 (by omega), read_of_below h'.2 (by omega)]
      · have := hr i
        simpa [Memory.read, Ne.symm hi] using this

theorem ext_of_wf (h : Memory.wf z b m = true) (h' : Memory.wf z b m' = true)
    (hr : ∀ i, Memory.read z m i = Memory.read z m' i) : m = m' := ext_of_wfFrom h h' hr

theorem read_of_mem (h : Memory.wfFrom z b lo m = true) {e : Nat × α} (he : e ∈ m) : Memory.read z m e.1 = e.2 := by
  induction m generalizing lo with
  | nil => simp at he
  | cons x m ih =>
    obtain ⟨k, w⟩ := x
    simp only [Memory.wfFrom, Bool.and_eq_true, decide_eq_true_eq] at h
    rcases List.mem_cons.mp he with rfl | he
    · simp [Memory.read]
    · have := (wfFrom_mem h.2 e he).1
      rw [Memory.read, if_neg (by omega)]
      exact ih h.2 he

end Sys2Proof.Machine
end

