-- ==== Sys2Proof/Laws/Commands.lean ====
section
/-! SUPPORT. What a command can do, said once: every command is admission and then one effect, and the lemmas here say
when it is admitted, how it ends, and what each shared operation answers. -/

namespace Sys2Proof.Machine

/-! ### Every command is `issue` of an effect -/

/-- A byte push: hold the first byte, or accept the completed symbol by `f`. -/
def pushByte (b : Byte) (f : Sym → Arch → Except Trap Arch) (a : Arch) : Effect :=
  match asmByte b a with
  | (held, none) => .done held 0
  | (_, some sym) =>
    match f sym a with
    | .error t => .trap t
    | .ok accepted => .done { accepted with half := false } 0

/-- A whole-symbol push. -/
def pushSym (sym : Sym) (f : Sym → Arch → Except Trap Arch) (a : Arch) : Effect :=
  match f sym a with
  | .error t => .trap t
  | .ok accepted => .done accepted 0

/-- The effect each command has once it is admitted (R87 step 6). -/
def effect : Instr → Arch → Effect
  | .clear => fun _ => .done Arch.reset 0
  | .srcerr => fun _ => .trap ⟨.sourceUnavailable, encode .srcerr⟩
  | .cntb b => pushByte b (count (encode (.cntb b)))
  | .cnth sym => pushSym sym (count (encode (.cnth sym)))
  | .build => buildEffect (encode .build)
  | .gencode => gencodeEffect Config.codeW (encode .gencode)
  | .encbegin => fun a => .done { a with nenc := 0, encbits := 0, half := false, phase := .enc } 0
  | .encb b => pushByte b (encodeSym (encode (.encb b)))
  | .ench sym => pushSym sym (encodeSym (encode (.ench sym)))
  | .encend => fun a => .done { a with half := false, phase := .done } 0
  | .encsum => fun a => .done { a with nenc := a.nsym, encbits := BitVec.ofNat 64 (weightedLength a), phase := .done } 0
  | .rdreg reg => fun a =>
    match a.csr reg with
    | some v => .done a v
    | none => .trap ⟨.badArgument, encode (.rdreg reg)⟩
  | .rdfreq sym => fun a => .done a ((a.freqAt sym).setWidth 64)
  | .rdclen sym => fun a => .done a ((a.clenAt sym).setWidth 64)
  | .rdcode sym => fun a => .done a (a.cbitsAt sym)
  | .rdnw n => fun a => .done a ((a.nodeAt n.toNat).wt.setWidth 64)
  | .rdnc n => fun a => .done a (nodeWord (a.nodeAt n.toNat))

theorem exec_eq_issue (i : Instr) (s : State) : exec i s = issue i s (effect i) := by
  cases i <;> rfl

/-! ### Admission -/

/-- When a command is admitted (R87 steps 2 to 5). -/
theorem admission_eq_none {i : Instr} {a : Arch} :
    admission i a = none ↔ (a.fault = true → passesGate i = true) ∧ argumentOk i a = true ∧
      legalIn i a.phase = true ∧ (isWholeSymbolPush i = true → a.half = false) := by
  unfold admission
  cases a.fault <;> cases passesGate i <;> cases argumentOk i a <;> cases legalIn i a.phase <;>
    cases isWholeSymbolPush i <;> cases a.half <;> simp

theorem admission_faulted {i : Instr} {a : Arch} (h : a.fault = true) (hi : passesGate i = false) :
    admission i a = some .faulted := by simp [admission, h, hi]

theorem admission_badArgument {i : Instr} {a : Arch} (h : a.fault = true → passesGate i = true)
    (ha : argumentOk i a = false) : admission i a = some .badArgument := by
  unfold admission
  cases hf : a.fault <;> simp_all

theorem admission_phaseError {i : Instr} {a : Arch} (h : a.fault = false) (ha : argumentOk i a = true)
    (hp : legalIn i a.phase = false) : admission i a = some .phaseError := by simp [admission, *]

theorem admission_misaligned {i : Instr} {a : Arch} (h : a.fault = false) (ha : argumentOk i a = true)
    (hp : legalIn i a.phase = true) (hw : isWholeSymbolPush i = true) (hh : a.half = true) :
    admission i a = some .misaligned := by simp [admission, *]

/-- What each answer of the admission says (R231). -/
theorem admission_some {i : Instr} {a : Arch} {c : Cause} (h : admission i a = some c) :
    (c = .faulted ∧ a.fault = true ∧ passesGate i = false) ∨
    (c = .badArgument ∧ argumentOk i a = false) ∨
    (c = .phaseError ∧ a.fault = false ∧ legalIn i a.phase = false) ∨
    (c = .misaligned ∧ a.fault = false ∧ legalIn i a.phase = true ∧ isWholeSymbolPush i = true ∧ a.half = true) := by
  have hg : passesGate i = true → (∀ p, legalIn i p = true) ∧ isWholeSymbolPush i = false := by
    cases i <;> simp [passesGate, isRead, legalIn, isWholeSymbolPush]
  unfold admission at h
  cases hf : a.fault <;> cases hp : passesGate i <;> cases ha : argumentOk i a <;> cases hl : legalIn i a.phase <;>
    cases hs : isWholeSymbolPush i <;> cases hh : a.half <;> simp_all

/-! ### How a command ends -/

theorem exec_of_admitted {i : Instr} {s : State} (h : admission i s.arch = none) :
    exec i s = deliver s (effect i s.arch) := by simp [exec_eq_issue, issue, h]

theorem exec_of_refused {i : Instr} {s : State} {c : Cause} (h : admission i s.arch = some c) :
    exec i s = .next (State.raiseFault ⟨c, encode i⟩ s) := by simp [exec_eq_issue, issue, h]

/-- Everything a command can do, when it answers a next state: fail admission, execute, or raise an execution fault. -/
theorem exec_next {i : Instr} {s t : State} (h : exec i s = .next t) :
    (∃ c, admission i s.arch = some c ∧ t = State.raiseFault ⟨c, encode i⟩ s) ∨
    (admission i s.arch = none ∧ ∃ a d, effect i s.arch = .done a d ∧ t = State.respond 0 d { s with arch := a }) ∨
    (admission i s.arch = none ∧ ∃ tr, effect i s.arch = .trap tr ∧ t = State.raiseFault tr s) := by
  cases ha : admission i s.arch with
  | some c => exact .inl ⟨c, rfl, by simpa [exec_of_refused ha] using h.symm⟩
  | none =>
    rw [exec_of_admitted ha] at h
    rcases deliver_next h with ⟨a, d, he, rfl⟩ | ⟨tr, he, rfl⟩
    · exact .inr (.inl ⟨rfl, a, d, he, rfl⟩)
    · exact .inr (.inr ⟨rfl, tr, he, rfl⟩)

/-! ### The shared operations -/

/-- Everything `Count` can do (R111, R114). -/
theorem count_cases (w : Word) (sym : Sym) (a : Arch) :
    (a.nsym.toNat = Config.cntMax ∧ count w sym a = .error ⟨.countOverflow, w⟩) ∨
    (a.nsym.toNat ≠ Config.cntMax ∧ count w sym a = .ok { a with
      freq := Memory.write 0 a.freq sym.toNat (a.freqAt sym + 1)
      kdist := if a.freqAt sym = 0 then a.kdist + 1 else a.kdist
      nsym := a.nsym + 1 }) := by
  unfold count
  by_cases h : a.nsym.toNat = Config.cntMax <;> simp [h, Arch.setFreq]

/-- Everything `Encode` can do (R171 to R173). -/
theorem encodeSym_cases (w : Word) (sym : Sym) (a : Arch) :
    (a.clenAt sym = 0 ∧ encodeSym w sym a = .error ⟨.lookupFailure, sym.setWidth 32⟩) ∨
    (a.clenAt sym ≠ 0 ∧ a.nenc.toNat = Config.cntMax ∧ encodeSym w sym a = .error ⟨.countOverflow, w⟩) ∨
    (a.clenAt sym ≠ 0 ∧ a.nenc.toNat ≠ Config.cntMax ∧ encodeSym w sym a = .ok { a with
      nenc := a.nenc + 1, encbits := a.encbits + (a.clenAt sym).setWidth 64 }) := by
  unfold encodeSym
  by_cases h : a.clenAt sym = 0
  · simp [h]
  · by_cases h' : a.nenc.toNat = Config.cntMax <;> simp [h', em]

/-- Everything a byte push can do. -/
theorem pushByte_cases (b : Byte) (f : Sym → Arch → Except Trap Arch) (a : Arch) :
    (a.half = false ∧ pushByte b f a = .done { a with hold := b, half := true } 0) ∨
    (a.half = true ∧ ∃ t, f (pairBytes a.hold b) a = .error t ∧ pushByte b f a = .trap t) ∨
    (a.half = true ∧ ∃ a', f (pairBytes a.hold b) a = .ok a' ∧ pushByte b f a = .done { a' with half := false } 0) := by
  unfold pushByte
  cases h : a.half
  · simp [asmByte_first b h]
  · rw [asmByte_second b h]
    cases hf : f (pairBytes a.hold b) a <;> simp [hf]

/-- Everything a whole-symbol push can do. -/
theorem pushSym_cases (sym : Sym) (f : Sym → Arch → Except Trap Arch) (a : Arch) :
    (∃ t, f sym a = .error t ∧ pushSym sym f a = .trap t) ∨
    (∃ a', f sym a = .ok a' ∧ pushSym sym f a = .done a' 0) := by
  unfold pushSym
  cases hf : f sym a <;> simp

/-- The symbol of a pair as a number (R61). -/
theorem pairBytes_toNat (hi lo : Byte) : (pairBytes hi lo).toNat = hi.toNat * 256 + lo.toNat := by
  have := lo.isLt
  simp only [pairBytes, BitVec.toNat_append]
  rw [← Nat.shiftLeft_add_eq_or_of_lt lo.isLt, Nat.shiftLeft_eq]

theorem csr_isSome {a : Arch} {r : Byte} (h : r.toNat ≤ 12) : ∃ v, a.csr r = some v := by
  unfold Arch.csr
  generalize r.toNat = n at h
  interval_cases n <;> exact ⟨_, rfl⟩

/-! ### Steps -/

theorem step_command {s : State} {w : Word} {rest : List HostMove} (h : s.inbox = .command w :: rest) :
    step s = runWord w { s with inbox := rest } := by simp [step, nextMove, h]

/-- Everything a step can do, when it answers a next state. -/
theorem step_cases {s t : State} (h : step s = .next t) :
    (s.inbox = [] ∧ t = s) ∨
    (∃ rest, (s.inbox = .reset :: rest ∨ ∃ w, s.inbox = .abandoned w :: rest) ∧
      t = { arch := Arch.reset, inbox := rest, responses := s.responses }) ∨
    (∃ w rest i, s.inbox = .command w :: rest ∧ decode w = .ok i ∧ exec i { s with inbox := rest } = .next t) ∨
    (∃ w rest e, s.inbox = .command w :: rest ∧ decode w = .error e ∧
      t = State.raiseFault ⟨.illegalCommand, w⟩ { s with inbox := rest }) := by
  unfold step nextMove at h
  cases hi : s.inbox with
  | nil => simp_all [wait]
  | cons m rest =>
    cases m with
    | reset =>
      simp only [hi, resetMove, State.clearRun, Host.Outcome.next.injEq] at h
      exact .inr (.inl ⟨rest, .inl rfl, h.symm⟩)
    | abandoned w =>
      simp only [hi, resetMove, State.clearRun, Host.Outcome.next.injEq] at h
      exact .inr (.inl ⟨rest, .inr ⟨w, rfl⟩, h.symm⟩)
    | command w =>
      simp only [hi, runWord] at h
      cases hd : decode w with
      | ok i => exact .inr (.inr (.inl ⟨w, rest, i, rfl, hd, by simpa [hd] using h⟩))
      | error e => exact .inr (.inr (.inr ⟨w, rest, e, rfl, hd, by simpa [hd, illegalWord] using h.symm⟩))

end Sys2Proof.Machine
end

