-- ==== Sys2Proof/Laws/Effects.lean ====
section
/-! SUPPORT. The inversion of execution: every way an admitted command executes, with the state it leaves, and every
fault it raises. Whole-machine claims are proved by cases on `Executes` and `Traps`, without unfolding a meaning. -/

namespace Sys2Proof.Machine

/-- The state after one more symbol in pass 1 (R111). -/
def counted (sym : Sym) (a : Arch) : Arch :=
  { a with
    freq := Memory.write 0 a.freq sym.toNat (a.freqAt sym + 1)
    kdist := if a.freqAt sym = 0 then a.kdist + 1 else a.kdist
    nsym := a.nsym + 1 }

/-- The state after one more symbol in pass 2 (R171). -/
def encoded (sym : Sym) (a : Arch) : Arch :=
  { a with nenc := a.nenc + 1, encbits := a.encbits + (a.clenAt sym).setWidth 64 }

/-- `Executes a i a' d`: admitted in `a`, the command `i` executes, leaves `a'` and answers `d`. -/
inductive Executes (a : Arch) : Instr → Arch → Data → Prop where
  | clear : Executes a .clear Arch.reset 0
  | cntbFirst (b : Byte) : a.half = false → Executes a (.cntb b) { a with hold := b, half := true } 0
  | cntbSecond (b : Byte) : a.half = true → a.nsym.toNat ≠ Config.cntMax →
      Executes a (.cntb b) { counted (pairBytes a.hold b) a with half := false } 0
  | cnth (sym : Sym) : a.nsym.toNat ≠ Config.cntMax → Executes a (.cnth sym) (counted sym a) 0
  | build (r : QEntry) (q : List QEntry) : a.kdist ≠ 0 → (buildTree a.node a.freq).pq = r :: q →
      Executes a .build { a with
        half := false, node := (buildTree a.node a.freq).node,
        nnode := BitVec.ofNat 17 (buildTree a.node a.freq).next, root := BitVec.ofNat 17 r.handle, phase := .tree } 0
  | gencode (cs : List (Sym × List Bool)) : codes a = some cs → longest cs ≤ Config.codeW →
      Executes a .gencode { writeCodes cs a with maxlen := BitVec.ofNat 7 (longest cs), phase := .code } 0
  | encbegin : Executes a .encbegin { a with nenc := 0, encbits := 0, half := false, phase := .enc } 0
  | encbFirst (b : Byte) : a.half = false → Executes a (.encb b) { a with hold := b, half := true } 0
  | encbSecond (b : Byte) : a.half = true → a.clenAt (pairBytes a.hold b) ≠ 0 → a.nenc.toNat ≠ Config.cntMax →
      Executes a (.encb b) { encoded (pairBytes a.hold b) a with half := false } 0
  | ench (sym : Sym) : a.clenAt sym ≠ 0 → a.nenc.toNat ≠ Config.cntMax → Executes a (.ench sym) (encoded sym a) 0
  | encend : Executes a .encend { a with half := false, phase := .done } 0
  | encsum : Executes a .encsum
      { a with nenc := a.nsym, encbits := BitVec.ofNat 64 (weightedLength a), phase := .done } 0
  | rdreg (reg : Byte) (v : Data) : a.csr reg = some v → Executes a (.rdreg reg) a v
  | rdfreq (sym : Sym) : Executes a (.rdfreq sym) a ((a.freqAt sym).setWidth 64)
  | rdclen (sym : Sym) : Executes a (.rdclen sym) a ((a.clenAt sym).setWidth 64)
  | rdcode (sym : Sym) : Executes a (.rdcode sym) a (a.cbitsAt sym)
  | rdnw (n : Handle) : Executes a (.rdnw n) a ((a.nodeAt n.toNat).wt.setWidth 64)
  | rdnc (n : Handle) : Executes a (.rdnc n) a (nodeWord (a.nodeAt n.toNat))

/-- `Traps a i t`: admitted in `a`, the command `i` raises the execution fault `t` (R87 step 6). -/
inductive Traps (a : Arch) : Instr → Trap → Prop where
  | srcerr : Traps a .srcerr ⟨.sourceUnavailable, encode .srcerr⟩
  | emptyInput : a.kdist = 0 → Traps a .build ⟨.emptyInput, encode .build⟩
  | codeOverflow (cs : List (Sym × List Bool)) : codes a = some cs → Config.codeW < longest cs →
      Traps a .gencode ⟨.codeOverflow, encode .gencode⟩
  | cntbOverflow (b : Byte) : a.half = true → a.nsym.toNat = Config.cntMax →
      Traps a (.cntb b) ⟨.countOverflow, encode (.cntb b)⟩
  | cnthOverflow (sym : Sym) : a.nsym.toNat = Config.cntMax → Traps a (.cnth sym) ⟨.countOverflow, encode (.cnth sym)⟩
  | encbLookup (b : Byte) : a.half = true → a.clenAt (pairBytes a.hold b) = 0 →
      Traps a (.encb b) ⟨.lookupFailure, (pairBytes a.hold b).setWidth 32⟩
  | encbOverflow (b : Byte) : a.half = true → a.clenAt (pairBytes a.hold b) ≠ 0 → a.nenc.toNat = Config.cntMax →
      Traps a (.encb b) ⟨.countOverflow, encode (.encb b)⟩
  | enchLookup (sym : Sym) : a.clenAt sym = 0 → Traps a (.ench sym) ⟨.lookupFailure, sym.setWidth 32⟩
  | enchOverflow (sym : Sym) : a.clenAt sym ≠ 0 → a.nenc.toNat = Config.cntMax →
      Traps a (.ench sym) ⟨.countOverflow, encode (.ench sym)⟩
  | rdreg (reg : Byte) : a.csr reg = none → Traps a (.rdreg reg) ⟨.badArgument, encode (.rdreg reg)⟩

/-- What an effect says of its command: how it executed, which fault it raised, or why the model stops. -/
def EffectSpec (i : Instr) (a : Arch) : Effect → Prop
  | .done a' d => Executes a i a' d
  | .trap t => Traps a i t
  | .stuck .emptyQueue => i = .build ∧ a.kdist ≠ 0 ∧ (buildTree a.node a.freq).pq = []
  | .stuck .notATree => i = .gencode ∧ codes a = none

theorem effect_cntb (b : Byte) (a : Arch) : EffectSpec (.cntb b) a (effect (.cntb b) a) := by
  simp only [effect]
  rcases pushByte_cases b (count (encode (.cntb b))) a with ⟨hh, h⟩ | ⟨hh, t, hf, h⟩ | ⟨hh, a', hf, h⟩ <;> rw [h]
  · exact .cntbFirst b hh
  all_goals rcases count_cases (encode (.cntb b)) (pairBytes a.hold b) a with ⟨hn, hc⟩ | ⟨hn, hc⟩ <;> rw [hc] at hf
  · obtain rfl := Except.error.inj hf
    exact .cntbOverflow b hh hn
  · cases hf
  · cases hf
  · obtain rfl := Except.ok.inj hf
    exact .cntbSecond b hh hn

theorem effect_cnth (sym : Sym) (a : Arch) : EffectSpec (.cnth sym) a (effect (.cnth sym) a) := by
  simp only [effect]
  rcases pushSym_cases sym (count (encode (.cnth sym))) a with ⟨t, hf, h⟩ | ⟨a', hf, h⟩ <;> rw [h] <;>
    rcases count_cases (encode (.cnth sym)) sym a with ⟨hn, hc⟩ | ⟨hn, hc⟩ <;> rw [hc] at hf
  · obtain rfl := Except.error.inj hf
    exact .cnthOverflow sym hn
  · cases hf
  · cases hf
  · obtain rfl := Except.ok.inj hf
    exact .cnth sym hn

theorem effect_encb (b : Byte) (a : Arch) : EffectSpec (.encb b) a (effect (.encb b) a) := by
  simp only [effect]
  rcases pushByte_cases b (encodeSym (encode (.encb b))) a with ⟨hh, h⟩ | ⟨hh, t, hf, h⟩ | ⟨hh, a', hf, h⟩ <;> rw [h]
  · exact .encbFirst b hh
  all_goals
    rcases encodeSym_cases (encode (.encb b)) (pairBytes a.hold b) a with ⟨hl, hc⟩ | ⟨hl, hn, hc⟩ | ⟨hl, hn, hc⟩ <;>
      rw [hc] at hf
  · obtain rfl := Except.error.inj hf
    exact .encbLookup b hh hl
  · obtain rfl := Except.error.inj hf
    exact .encbOverflow b hh hl hn
  · cases hf
  · cases hf
  · cases hf
  · obtain rfl := Except.ok.inj hf
    exact .encbSecond b hh hl hn

theorem effect_ench (sym : Sym) (a : Arch) : EffectSpec (.ench sym) a (effect (.ench sym) a) := by
  simp only [effect]
  rcases pushSym_cases sym (encodeSym (encode (.ench sym))) a with ⟨t, hf, h⟩ | ⟨a', hf, h⟩ <;> rw [h] <;>
    rcases encodeSym_cases (encode (.ench sym)) sym a with ⟨hl, hc⟩ | ⟨hl, hn, hc⟩ | ⟨hl, hn, hc⟩ <;> rw [hc] at hf
  · obtain rfl := Except.error.inj hf
    exact .enchLookup sym hl
  · obtain rfl := Except.error.inj hf
    exact .enchOverflow sym hl hn
  · cases hf
  · cases hf
  · cases hf
  · obtain rfl := Except.ok.inj hf
    exact .ench sym hl hn

theorem effect_build (a : Arch) : EffectSpec .build a (effect .build a) := by
  simp only [effect, buildEffect]
  split
  · next h => exact .emptyInput h
  · next h =>
    cases hq : (buildTree a.node a.freq).pq with
    | nil => exact ⟨rfl, h, hq⟩
    | cons r q => exact .build r q h hq

theorem effect_gencode (a : Arch) : EffectSpec .gencode a (effect .gencode a) := by
  simp only [effect, gencodeEffect]
  cases hc : codes a with
  | none => exact ⟨rfl, hc⟩
  | some cs =>
    by_cases h : Config.codeW < longest cs
    · simp only [h, if_true]
      exact .codeOverflow cs hc h
    · simp only [h, if_false]
      exact .gencode cs hc (by omega)

theorem effect_rdreg (reg : Byte) (a : Arch) : EffectSpec (.rdreg reg) a (effect (.rdreg reg) a) := by
  simp only [effect]
  cases h : a.csr reg with
  | none => exact .rdreg reg h
  | some v => exact .rdreg reg v h

/-- Every effect of every command is one of the ways listed. -/
theorem effect_spec (i : Instr) (a : Arch) : EffectSpec i a (effect i a) := by
  cases i with
  | clear => exact .clear
  | srcerr => exact .srcerr
  | cntb b => exact effect_cntb b a
  | cnth sym => exact effect_cnth sym a
  | build => exact effect_build a
  | gencode => exact effect_gencode a
  | encbegin => exact .encbegin
  | encb b => exact effect_encb b a
  | ench sym => exact effect_ench sym a
  | encend => exact .encend
  | encsum => exact .encsum
  | rdreg reg => exact effect_rdreg reg a
  | rdfreq sym => exact .rdfreq sym
  | rdclen sym => exact .rdclen sym
  | rdcode sym => exact .rdcode sym
  | rdnw n => exact .rdnw n
  | rdnc n => exact .rdnc n

/-- Everything a command can do: execute, with the state left and the data answered, or raise one fault. -/
theorem exec_cases {i : Instr} {s t : State} (h : exec i s = .next t) :
    (admission i s.arch = none ∧ ∃ a d, Executes s.arch i a d ∧ t = State.respond 0 d { s with arch := a }) ∨
    (∃ tr, t = State.raiseFault tr s ∧
      ((∃ c, admission i s.arch = some c ∧ tr = ⟨c, encode i⟩) ∨ (admission i s.arch = none ∧ Traps s.arch i tr))) := by
  have hs := effect_spec i s.arch
  rcases exec_next h with ⟨c, hc, rfl⟩ | ⟨ha, a, d, he, rfl⟩ | ⟨ha, tr, he, rfl⟩
  · exact .inr ⟨_, rfl, .inl ⟨c, hc, rfl⟩⟩
  · rw [he] at hs
    exact .inl ⟨ha, a, d, hs, rfl⟩
  · rw [he] at hs
    exact .inr ⟨tr, rfl, .inr ⟨ha, hs⟩⟩

/-- `Executes` is what the effect does, not only what it may do. -/
theorem effect_of_executes {i : Instr} {a a' : Arch} {d : Data} (h : Executes a i a' d) : effect i a = .done a' d := by
  cases h with
  | cntbFirst b hh => simp [effect, pushByte, asmByte, hh]
  | cntbSecond b hh hn => simp [effect, pushByte, asmByte, hh, count, hn, counted, Arch.setFreq]
  | cnth sym hn => simp [effect, pushSym, count, hn, counted, Arch.setFreq]
  | build r q hk hq => simp_all [effect, buildEffect]
  | gencode cs hc hl => simp [effect, gencodeEffect, hc, Nat.not_lt.mpr hl]
  | encbFirst b hh => simp [effect, pushByte, asmByte, hh]
  | encbSecond b hh hl hn => simp_all [effect, pushByte, asmByte, encodeSym, encoded]
  | ench sym hl hn => simp_all [effect, pushSym, encodeSym, encoded]
  | rdreg reg v hv => simp [effect, hv]
  | clear | encbegin | encend | encsum | rdfreq _ | rdclen _ | rdcode _ | rdnw _ | rdnc _ => rfl

/-- `Traps` is the fault the effect raises. -/
theorem effect_of_traps {i : Instr} {a : Arch} {t : Trap} (h : Traps a i t) : effect i a = .trap t := by
  cases h with
  | srcerr => rfl
  | emptyInput hk => simp [effect, buildEffect, hk]
  | codeOverflow cs hc hl => simp [effect, gencodeEffect, hc, hl]
  | cntbOverflow b hh hn => simp [effect, pushByte, asmByte, hh, count, hn]
  | cnthOverflow sym hn => simp [effect, pushSym, count, hn]
  | encbLookup b hh hl => simp [effect, pushByte, asmByte, hh, encodeSym, hl]
  | encbOverflow b hh hl hn => simp_all [effect, pushByte, asmByte, encodeSym]
  | enchLookup sym hl => simp [effect, pushSym, encodeSym, hl]
  | enchOverflow sym hl hn => simp_all [effect, pushSym, encodeSym]
  | rdreg reg hv => simp [effect, hv]

theorem exec_of_executes {i : Instr} {s : State} {a : Arch} {d : Data} (ha : admission i s.arch = none)
    (h : Executes s.arch i a d) : exec i s = .next (State.respond 0 d { s with arch := a }) := by
  rw [exec_of_admitted ha, effect_of_executes h]
  rfl

theorem exec_of_traps {i : Instr} {s : State} {t : Trap} (ha : admission i s.arch = none)
    (h : Traps s.arch i t) : exec i s = .next (State.raiseFault t s) := by
  rw [exec_of_admitted ha, effect_of_traps h]
  rfl

/-- A command stops the model only where BUILD meets an empty queue or GENCODE an arena that is not a tree. -/
theorem exec_fault {i : Instr} {s : State} {f : Fault} (h : exec i s = .fault f) :
    (f = .emptyQueue ∧ i = .build ∧ s.arch.kdist ≠ 0 ∧ (buildTree s.arch.node s.arch.freq).pq = []) ∨
    (f = .notATree ∧ i = .gencode ∧ codes s.arch = none) := by
  have hs := effect_spec i s.arch
  cases ha : admission i s.arch with
  | some c => simp [exec_of_refused ha] at h
  | none =>
    rw [exec_of_admitted ha] at h
    cases he : effect i s.arch with
    | done a d => simp [he, deliver] at h
    | trap t => simp [he, deliver] at h
    | stuck g =>
      obtain rfl : g = f := by simpa [he, deliver] using h
      rw [he] at hs
      cases g with
      | emptyQueue => exact .inl ⟨rfl, hs⟩
      | notATree => exact .inr ⟨rfl, hs⟩

/-- No command is without a meaning. -/
theorem exec_ne_refused (i : Instr) (s : State) (r : Refusal) : exec i s ≠ .refused r := by
  cases ha : admission i s.arch with
  | some c => simp [exec_of_refused ha]
  | none =>
    rw [exec_of_admitted ha]
    cases effect i s.arch <;> simp [deliver]

end Sys2Proof.Machine
end

