-- ==== Sys2Proof/Laws/Tree.lean ====
section
/-! SUPPORT. The tree builder: the queue's order (spec/41 R131), insertion keeps it and loses nothing (R132), what one
merge step does (R133), and how many nodes BUILD creates (R134, R135). -/

namespace Sys2Proof.Machine

/-! ### The order of R131 -/

theorem before_iff (x y : QEntry) :
    x.before y = true ↔ x.wt.toNat < y.wt.toNat ∨ (x.wt = y.wt ∧ x.handle < y.handle) := by
  simp [QEntry.before]

theorem before_trans {x y w : QEntry} (h : x.before y = true) (h' : y.before w = true) : x.before w = true := by
  rw [before_iff] at *
  rcases h with h | ⟨h, hi⟩ <;> rcases h' with h' | ⟨h', hi'⟩
  · exact .inl (h.trans h')
  · exact .inl (h' ▸ h)
  · exact .inl (h ▸ h')
  · exact .inr ⟨h.trans h', hi.trans hi'⟩

theorem before_irrefl (x : QEntry) : x.before x = false := by simp [QEntry.before]

/-- Handles are distinct, so the order is total. -/
theorem before_total {x y : QEntry} (h : x.handle ≠ y.handle) : x.before y = true ∨ y.before x = true := by
  rw [before_iff, before_iff, ← BitVec.toNat_inj, ← BitVec.toNat_inj]
  omega

/-! ### Insertion -/

theorem enqueue_perm (e : QEntry) (q : List QEntry) : (enqueue e q).Perm (e :: q) := by
  induction q with
  | nil => exact .refl _
  | cons x q ih =>
    rw [enqueue]
    split
    · exact .refl _
    · exact (ih.cons x).trans (.swap e x q)

@[simp] theorem enqueue_length (e : QEntry) (q : List QEntry) : (enqueue e q).length = q.length + 1 := by
  simpa using (enqueue_perm e q).length_eq

theorem mem_enqueue {e x : QEntry} {q : List QEntry} : x ∈ enqueue e q ↔ x = e ∨ x ∈ q := by
  simpa using (enqueue_perm e q).mem_iff

/-- A queue in the order of R131. -/
abbrev Ordered (q : List QEntry) : Prop := q.Pairwise fun x y => x.before y = true

/-- Inserting a handle not yet in the queue keeps the order, so that its head is what `ExtractMin` returns. -/
theorem enqueue_ordered {e : QEntry} {q : List QEntry} (h : Ordered q) (hn : ∀ x ∈ q, x.handle ≠ e.handle) :
    Ordered (enqueue e q) := by
  induction q with
  | nil => simp [enqueue, Ordered]
  | cons x q ih =>
    rw [Ordered, List.pairwise_cons] at h
    rw [enqueue]
    split
    · next hb =>
      refine List.pairwise_cons.mpr ⟨fun y hy => ?_, List.pairwise_cons.mpr h⟩
      rcases List.mem_cons.mp hy with rfl | hy
      · exact hb
      · exact before_trans hb (h.1 y hy)
    · next hb =>
      refine List.pairwise_cons.mpr ⟨fun y hy => ?_, ih h.2 fun y hy => hn y (by simp [hy])⟩
      rcases mem_enqueue.mp hy with rfl | hy
      · exact (before_total (hn x (by simp))).resolve_right hb
      · exact h.1 y hy

/-! ### Builder steps -/

@[simp] theorem create_node (x : Node) (pq : List QEntry) (b : Builder) :
    (b.create x pq).node = Memory.write Node.zero b.node b.next x := rfl
@[simp] theorem create_pq (x : Node) (pq : List QEntry) (b : Builder) :
    (b.create x pq).pq = enqueue ⟨x.wt, b.next⟩ pq := rfl
@[simp] theorem create_next (x : Node) (pq : List QEntry) (b : Builder) : (b.create x pq).next = b.next + 1 := rfl

theorem mergeStep_of_two {b : Builder} {x y : QEntry} {rest : List QEntry} (h : b.pq = x :: y :: rest) :
    b.mergeStep =
      b.create ⟨false, x.wt + y.wt, 0, BitVec.ofNat 17 x.handle, BitVec.ofNat 17 y.handle⟩ rest := by
  simp [Builder.mergeStep, h]

theorem mergeStep_of_one {b : Builder} (h : b.pq.length ≤ 1) : b.mergeStep = b := by
  unfold Builder.mergeStep
  split
  · next hq => simp [hq] at h
  · rfl

/-- Each merge step lowers the queue by one and creates one node (R134). -/
theorem mergeTimes_counts (n : Nat) (b : Builder) (h : n < b.pq.length) :
    (Builder.mergeTimes n b).pq.length = b.pq.length - n ∧ (Builder.mergeTimes n b).next = b.next + n := by
  induction n generalizing b with
  | zero => simp [Builder.mergeTimes]
  | succ n ih =>
    match hq : b.pq with
    | [] => simp [hq] at h
    | [x] => simp [hq] at h
    | x :: y :: rest =>
      rw [Builder.mergeTimes, mergeStep_of_two hq]
      have := ih (b.create ⟨false, x.wt + y.wt, 0, BitVec.ofNat 17 x.handle, BitVec.ofNat 17 y.handle⟩ rest)
        (by simp [hq] at h ⊢; omega)
      simp at this ⊢
      omega

theorem addLeaves_counts (freq : Memory Count) (b : Builder) :
    (freq.foldl Builder.addLeaf b).pq.length = b.pq.length + freq.length ∧
    (freq.foldl Builder.addLeaf b).next = b.next + freq.length := by
  induction freq generalizing b with
  | nil => simp
  | cons e freq ih =>
    have := ih (b.addLeaf e)
    simp [Builder.addLeaf] at this ⊢
    omega

/-- BUILD on a histogram of `k + 1` symbols ends with one member in the queue and `2 * (k + 1) - 1` nodes (R134, R135). -/
theorem buildTree_counts (node : Memory Node) {freq : Memory Count} (h : freq ≠ []) :
    (buildTree node freq).pq.length = 1 ∧ (buildTree node freq).next = 2 * freq.length - 1 := by
  have hl := addLeaves_counts freq ⟨node, [], 0⟩
  have hpos : 0 < freq.length := List.length_pos_iff.mpr h
  simp at hl
  have := mergeTimes_counts (freq.length - 1) (freq.foldl Builder.addLeaf ⟨node, [], 0⟩) (by omega)
  simp only [buildTree, hl.1]
  omega

end Sys2Proof.Machine
end

