-- ==== Sys2Proof/Laws/Codebook.lean ====
section
/-! SUPPORT. The code generator: packed bit lists (spec/00 R11), what the walk visits and how its codes relate
(spec/42 R150, R155, R156), what writing the codebook writes (R151). -/

namespace Sys2Proof.Machine

/-! ### Packed bit lists -/

@[simp] theorem packNat_nil : packNat [] = 0 := rfl

theorem packNat_append_singleton (p : List Bool) (b : Bool) : packNat (p ++ [b]) = 2 * packNat p + b.toNat := by
  simp [packNat]

theorem packNat_lt (p : List Bool) : packNat p < 2 ^ p.length := by
  induction p using List.reverseRecOn with
  | nil => simp
  | append_singleton p b ih =>
    rw [packNat_append_singleton, List.length_append, List.length_singleton, pow_succ]
    have := Bool.toNat_le b
    omega

theorem pack_toNat {p : List Bool} (h : p.length ≤ 64) : (pack p).toNat = packNat p := by
  have h1 := packNat_lt p
  have h2 : 2 ^ p.length ≤ 2 ^ 64 := Nat.pow_le_pow_right (by omega) h
  simp only [pack, BitVec.toNat_ofNat]
  exact Nat.mod_eq_of_lt (by omega)

/-! ### The walk -/

variable {node : Memory Node} {fuel x : Nat} {p : List Bool} {cs : List (Sym × List Bool)}

/-- Everything the walk can do at a node: end at a leaf, or join the walks of the two children. -/
theorem walk_cases (h : walk node fuel x p = some cs) :
    ∃ f, fuel = f + 1 ∧
      ((∃ n, n = Memory.read Node.zero node x ∧ n.leaf = true ∧ cs = [(n.sym, p)]) ∨
       (∃ n l r, n = Memory.read Node.zero node x ∧ n.leaf = false ∧ cs = l ++ r ∧
          walk node f n.left.toNat (p ++ [false]) = some l ∧ walk node f n.right.toNat (p ++ [true]) = some r)) := by
  cases fuel with
  | zero => simp [walk] at h
  | succ f =>
    refine ⟨f, rfl, ?_⟩
    rw [walk] at h
    cases hl : (Memory.read Node.zero node x).leaf with
    | true =>
      simp only [hl, if_true, Option.some.injEq] at h
      exact .inl ⟨_, rfl, hl, h.symm⟩
    | false =>
      simp only [hl, Bool.false_eq_true, if_false] at h
      split at h
      · next l r h1 h2 =>
        refine .inr ⟨_, l, r, rfl, hl, ?_, h1, h2⟩
        simpa using h.symm
      · cases h

theorem walk_ne_nil (h : walk node fuel x p = some cs) : cs ≠ [] := by
  induction fuel generalizing x p cs with
  | zero => simp [walk] at h
  | succ f ih =>
    obtain ⟨g, hg, ⟨n, _, _, rfl⟩ | ⟨n, l, r, _, _, rfl, h1, _⟩⟩ := walk_cases h
    · simp
    · obtain rfl : f = g := by omega
      simp [ih h1]

/-- Every code the walk gives begins with the path that led to where it started. -/
theorem walk_path_mem (h : walk node fuel x p = some cs) : ∀ c ∈ cs, p <+: c.2 := by
  induction fuel generalizing x p cs with
  | zero => simp [walk] at h
  | succ f ih =>
    obtain ⟨g, hg, ⟨n, _, _, rfl⟩ | ⟨n, l, r, _, _, rfl, h1, h2⟩⟩ := walk_cases h
    · simp
    · obtain rfl : f = g := by omega
      intro c hc
      rcases List.mem_append.mp hc with hc | hc
      · exact (List.prefix_append p [false]).trans (ih h1 c hc)
      · exact (List.prefix_append p [true]).trans (ih h2 c hc)

/-- The codes of a walk are free of beginnings of one another (R155 (b)). -/
theorem walk_codes_free (h : walk node fuel x p = some cs) :
    cs.Pairwise fun c d => ¬ c.2 <+: d.2 ∧ ¬ d.2 <+: c.2 := by
  induction fuel generalizing x p cs with
  | zero => simp [walk] at h
  | succ f ih =>
    obtain ⟨g, hg, ⟨n, _, _, rfl⟩ | ⟨n, l, r, _, _, rfl, h1, h2⟩⟩ := walk_cases h
    · simp
    · obtain rfl : f = g := by omega
      refine List.pairwise_append.mpr ⟨ih h1, ih h2, fun c hc d hd => ?_⟩
      obtain ⟨t, ht⟩ := walk_path_mem h1 c hc
      obtain ⟨u, hu⟩ := walk_path_mem h2 d hd
      rw [← ht, ← hu, List.append_assoc, List.append_assoc]
      simp

/-- The codes of a walk fill the space below its start (R156): in units of `2^(-N)` they sum to `2^(N - len p)`. -/
theorem walk_kraft {N : Nat} (h : walk node fuel x p = some cs) (hN : ∀ c ∈ cs, c.2.length ≤ N) :
    (cs.map fun c => 2 ^ (N - c.2.length)).sum = 2 ^ (N - p.length) := by
  induction fuel generalizing x p cs with
  | zero => simp [walk] at h
  | succ f ih =>
    obtain ⟨g, hg, ⟨n, _, _, rfl⟩ | ⟨n, l, r, _, _, rfl, h1, h2⟩⟩ := walk_cases h
    · simp
    · obtain rfl : f = g := by omega
      have hp : p.length + 1 ≤ N := by
        obtain ⟨c, hc⟩ := List.exists_mem_of_ne_nil _ (walk_ne_nil h1)
        have hlen := (walk_path_mem h1 c hc).length_le
        have := hN c (by simp [hc])
        simp at hlen
        omega
      have hl := ih h1 fun c hc => hN c (by simp [hc])
      have hr := ih h2 fun c hc => hN c (by simp [hc])
      rw [List.map_append, List.sum_append, hl, hr]
      obtain ⟨k, rfl⟩ : ∃ k, N = p.length + 1 + k := ⟨N - (p.length + 1), by omega⟩
      have e1 : p.length + 1 + k - (p ++ [false]).length = k := by simp
      have e2 : p.length + 1 + k - (p ++ [true]).length = k := by simp
      have e3 : p.length + 1 + k - p.length = k + 1 := by omega
      rw [e1, e2, e3, pow_succ]
      omega

/-! ### The longest code -/

theorem longest_foldl (cs : List (Sym × List Bool)) (n : Nat) :
    n ≤ cs.foldl (fun l c => max l c.2.length) n ∧
    (∀ c ∈ cs, c.2.length ≤ cs.foldl (fun l c => max l c.2.length) n) ∧
    (cs.foldl (fun l c => max l c.2.length) n = n ∨ ∃ c ∈ cs, c.2.length = cs.foldl (fun l c => max l c.2.length) n) := by
  induction cs generalizing n with
  | nil => simp
  | cons c cs ih =>
    obtain ⟨h1, h2, h3⟩ := ih (max n c.2.length)
    simp only [List.foldl_cons, List.forall_mem_cons, List.exists_mem_cons_iff]
    refine ⟨by omega, ⟨by omega, h2⟩, ?_⟩
    rcases h3 with h3 | h3
    · rcases Nat.le_total c.2.length n with h | h
      · left
        omega
      · right
        left
        omega
    · exact .inr (.inr h3)

theorem le_longest {c : Sym × List Bool} (h : c ∈ cs) : c.2.length ≤ longest cs := (longest_foldl cs 0).2.1 c h

/-! ### Writing the codebook -/

/-- Only CLEN and CBITS are written. -/
theorem writeCodes_frame (cs : List (Sym × List Bool)) (a : Arch) :
    ∃ l b, writeCodes cs a = { a with clen := l, cbits := b } := by
  induction cs generalizing a with
  | nil => exact ⟨_, _, rfl⟩
  | cons c cs ih =>
    obtain ⟨l, b, h⟩ := ih (a.setCode c.1 (BitVec.ofNat 7 c.2.length) (pack c.2))
    exact ⟨l, b, h⟩

theorem setCode_clenAt (a : Arch) (s t : Sym) (l : CodeLen) (b : Data) :
    (a.setCode s l b).clenAt t = if t = s then l else a.clenAt t := by
  simp [Arch.clenAt, Arch.setCode, read_write, BitVec.toNat_inj]

theorem setCode_cbitsAt (a : Arch) (s t : Sym) (l : CodeLen) (b : Data) :
    (a.setCode s l b).cbitsAt t = if t = s then b else a.cbitsAt t := by
  simp [Arch.cbitsAt, Arch.setCode, read_write, BitVec.toNat_inj]

/-- A symbol that no code is for keeps its entry (R151). -/
theorem writeCodes_absent {s : Sym} (a : Arch) (h : ∀ c ∈ cs, c.1 ≠ s) :
    (writeCodes cs a).clenAt s = a.clenAt s ∧ (writeCodes cs a).cbitsAt s = a.cbitsAt s := by
  induction cs generalizing a with
  | nil => exact ⟨rfl, rfl⟩
  | cons c cs ih =>
    have hc : s ≠ c.1 := (h c (by simp)).symm
    have := ih (a.setCode c.1 (BitVec.ofNat 7 c.2.length) (pack c.2)) fun d hd => h d (by simp [hd])
    rw [setCode_clenAt, setCode_cbitsAt, if_neg hc, if_neg hc] at this
    exact this

/-- A symbol that exactly one code is for has that code's length and packed bits (R151). -/
theorem writeCodes_present {c : Sym × List Bool} (a : Arch) (hc : c ∈ cs) (hn : (cs.map Prod.fst).Nodup) :
    (writeCodes cs a).clenAt c.1 = BitVec.ofNat 7 c.2.length ∧ (writeCodes cs a).cbitsAt c.1 = pack c.2 := by
  induction cs generalizing a with
  | nil => simp at hc
  | cons d cs ih =>
    rw [List.map_cons, List.nodup_cons] at hn
    rcases List.mem_cons.mp hc with rfl | hc
    · have := writeCodes_absent (cs := cs) (s := c.1) (a.setCode c.1 (BitVec.ofNat 7 c.2.length) (pack c.2))
        fun d hd he => hn.1 (he ▸ List.mem_map_of_mem hd)
      rw [setCode_clenAt, setCode_cbitsAt, if_pos rfl, if_pos rfl] at this
      exact this
    · exact ih (a.setCode d.1 (BitVec.ofNat 7 d.2.length) (pack d.2)) hc hn.2

/-- Writing the codebook keeps its memories canonical. -/
theorem writeCodes_wf {a : Arch} (h : Memory.wf 0 Config.numSymbols a.clen = true)
    (h' : Memory.wf 0 Config.numSymbols a.cbits = true) :
    Memory.wf 0 Config.numSymbols (writeCodes cs a).clen = true ∧
    Memory.wf 0 Config.numSymbols (writeCodes cs a).cbits = true := by
  induction cs generalizing a with
  | nil => exact ⟨h, h'⟩
  | cons c cs ih => exact ih (wf_write h c.1.isLt) (wf_write h' c.1.isLt)

end Sys2Proof.Machine
end

