-- ==== Sys2Proof/Laws/PerInstr.lean ====
section
/-! SUPPORT. Per command, about the command as syntax: its operand fits its format (spec/30_encoding.md R84), and its
word is opcode x 2^24 + operand (R92). -/

namespace Sys2Proof.Laws

/-- The operand fits its format, and the word is opcode x 2^24 + operand. -/
def HasItsWord.Statement (i : Instr) : Prop :=
  i.wellFormed = true ∧ (encode i).toNat = i.mnemonic.opcode.toNat * 2 ^ 24 + i.operand

theorem HasItsWord.of_wellFormed {i : Instr} (h : i.wellFormed = true) : HasItsWord.Statement i := by
  refine ⟨h, ?_⟩
  have h1 : i.operand < 2 ^ i.mnemonic.format.operandBits := of_decide_eq_true h
  have h2 : i.mnemonic.format.operandBits ≤ 24 := by cases i.mnemonic.format <;> decide
  have h3 : i.operand < 2 ^ 24 := h1.trans_le (Nat.pow_le_pow_right (by omega) h2)
  simp only [encode, BitVec.toNat_append]
  rw [← Nat.shiftLeft_add_eq_or_of_lt (BitVec.isLt _), Nat.shiftLeft_eq, BitVec.toNat_ofNat, Nat.mod_eq_of_lt h3]

theorem HasItsWord.clear : HasItsWord.Statement .clear := of_wellFormed rfl
theorem HasItsWord.srcerr : HasItsWord.Statement .srcerr := of_wellFormed rfl
theorem HasItsWord.cntb (byte : Byte) : HasItsWord.Statement (.cntb byte) := of_wellFormed (decide_eq_true byte.isLt)
theorem HasItsWord.cnth (sym : Sym) : HasItsWord.Statement (.cnth sym) := of_wellFormed (decide_eq_true sym.isLt)
theorem HasItsWord.build : HasItsWord.Statement .build := of_wellFormed rfl
theorem HasItsWord.gencode : HasItsWord.Statement .gencode := of_wellFormed rfl
theorem HasItsWord.encbegin : HasItsWord.Statement .encbegin := of_wellFormed rfl
theorem HasItsWord.encb (byte : Byte) : HasItsWord.Statement (.encb byte) := of_wellFormed (decide_eq_true byte.isLt)
theorem HasItsWord.ench (sym : Sym) : HasItsWord.Statement (.ench sym) := of_wellFormed (decide_eq_true sym.isLt)
theorem HasItsWord.encend : HasItsWord.Statement .encend := of_wellFormed rfl
theorem HasItsWord.encsum : HasItsWord.Statement .encsum := of_wellFormed rfl
theorem HasItsWord.rdreg (reg : Byte) : HasItsWord.Statement (.rdreg reg) := of_wellFormed (decide_eq_true reg.isLt)
theorem HasItsWord.rdfreq (sym : Sym) : HasItsWord.Statement (.rdfreq sym) := of_wellFormed (decide_eq_true sym.isLt)
theorem HasItsWord.rdclen (sym : Sym) : HasItsWord.Statement (.rdclen sym) := of_wellFormed (decide_eq_true sym.isLt)
theorem HasItsWord.rdcode (sym : Sym) : HasItsWord.Statement (.rdcode sym) := of_wellFormed (decide_eq_true sym.isLt)
theorem HasItsWord.rdnw (node : Handle) : HasItsWord.Statement (.rdnw node) := of_wellFormed (decide_eq_true node.isLt)
theorem HasItsWord.rdnc (node : Handle) : HasItsWord.Statement (.rdnc node) := of_wellFormed (decide_eq_true node.isLt)

end Sys2Proof.Laws
end

