-- ==== Sys2Proof/Tests/Slice0.lean ====
section
/-! SUPPORT. The model's own tests. Expected results are the vectors of spec/95_test_vectors.md (V1 to V73, S8) or the
examples of the rules; each test names its source. After them, one witness per statement that has hypotheses. -/

namespace Sys2Proof.Machine

/-! ### Well-formedness: one ill-formed line for each check (R84, R92) -/

theorem test_wf_noOperandWhereNoneGoes : AsmLine.wellFormed ⟨.BUILD, none⟩ = true := by decide
theorem test_wf_operandOnFormatZ : AsmLine.wellFormed ⟨.BUILD, some 0⟩ = false := by decide
theorem test_wf_missingOperand : AsmLine.wellFormed ⟨.CNTB, none⟩ = false := by decide
theorem test_wf_byteTooLarge : AsmLine.wellFormed ⟨.CNTB, some 256⟩ = false := by decide
theorem test_wf_symTooLarge : AsmLine.wellFormed ⟨.CNTH, some 65536⟩ = false := by decide
theorem test_wf_nodeTooLarge : AsmLine.wellFormed ⟨.RDNW, some 131072⟩ = false := by decide
theorem test_wf_regTooLarge : AsmLine.wellFormed ⟨.RDREG, some 256⟩ = false := by decide
theorem test_wf_largestOperands : (AsmLine.wellFormed ⟨.ENCB, some 255⟩ && AsmLine.wellFormed ⟨.ENCH, some 65535⟩ &&
    AsmLine.wellFormed ⟨.RDNC, some 131071⟩) = true := by decide

/-! ### Decoding: words written out from the encodings of R88 (V1, V2) -/

theorem test_decode_control : decode 0x01000000 = .ok .clear ∧ decode 0x02000000 = .ok .srcerr := by decide
theorem test_decode_count : decode 0x10000041 = .ok (.cntb 0x41) ∧ decode 0x1100ABCD = .ok (.cnth 0xABCD) := by decide
theorem test_decode_tree : decode 0x20000000 = .ok .build ∧ decode 0x28000000 = .ok .gencode := by decide
theorem test_decode_encode_pass : decode 0x30000000 = .ok .encbegin ∧ decode 0x310000FE = .ok (.encb 0xFE) ∧
    decode 0x3200FFFF = .ok (.ench 0xFFFF) ∧ decode 0x33000000 = .ok .encend ∧
    decode 0x34000000 = .ok .encsum := by decide
theorem test_decode_read_symbols : decode 0x4000000B = .ok (.rdreg 11) ∧ decode 0x41000041 = .ok (.rdfreq 0x41) ∧
    decode 0x42000041 = .ok (.rdclen 0x41) ∧ decode 0x43000041 = .ok (.rdcode 0x41) := by decide
theorem test_decode_read_nodes : decode 0x4401FFFF = .ok (.rdnw 0x1FFFF) ∧
    decode 0x4501FFFE = .ok (.rdnc 0x1FFFE) := by decide
theorem test_decode_reserved : [0x00000000, 0xFFFFFFFF, 0x03000000, 0x12000000, 0x46000000].map decode =
    List.replicate 5 (.error .reservedOpcode) := by decide
theorem test_decode_mustBeZero :
    [0x10000141, 0x20000001, 0x01800000, 0x11010000, 0x40000100, 0x44020000, 0x44030D40].map decode =
    List.replicate 7 (.error .mustBeZero) := by decide
theorem test_encode_words : encode (.cnth 0x1234) = 0x11001234 ∧ encode (.rdnw 6) = 0x44000006 ∧
    encode (.rdreg 11) = 0x4000000B ∧ encode .build = 0x20000000 := by decide
theorem test_table_word : decodeTableWord 32 0x44000006 = some (.rdnw 6) := by decide

/-! ### Assembler (R92, R93) -/

theorem test_assemble_hex_comment : assembleText "CNTB 0x41 ; first byte".toList = some [.cntb 0x41] := by decide
theorem test_assemble_register : assembleText "RDREG ENCBITS".toList = some [.rdreg 11] := by decide
theorem test_assemble_measure : assembleText "MEASURE 1 0xFF".toList =
    some [.clear, .cntb 1, .cntb 0xFF, .build, .gencode, .encsum] := by decide
theorem test_assemble_too_large : assembleText "CNTB 256".toList = none := by decide

/-! ### Small states -/

/-- A core state at a command boundary, with empty ports. -/
def idle (a : Arch) : State := ⟨a, [], []⟩

/-- The state after a command; the reset state where the model stops. -/
def after (i : Instr) (a : Arch) : State :=
  match exec i (idle a) with
  | .next t => t
  | .fault _ | .refused _ => State.reset

/-- Two symbols counted, 5 three times and 9 once (the second case of V23). -/
def twoCounted : Arch := { Arch.reset with nsym := 4, kdist := 2, freq := [(5, 3), (9, 1)] }

/-- The tree of V23, second case: `0: L(3,5)`, `1: L(1,9)`, `2: I(4,1,0)`. -/
def twoTree : Arch := { twoCounted with
  phase := .tree, nnode := 3, root := 2,
  node := [(0, ⟨true, 3, 5, 0, 0⟩), (1, ⟨true, 1, 9, 0, 0⟩), (2, ⟨false, 4, 0, 1, 0⟩)] }

/-- The codes of V32, second case: `5 -> '1'`, `9 -> '0'`. -/
def twoCoded : Arch := { twoTree with phase := .code, clen := [(5, 1), (9, 1)], cbits := [(5, 1)], maxlen := 1 }

/-- The same in a pass 2, and in one with a first byte held that leads to symbol 5. -/
def twoEncoding : Arch := { twoCoded with phase := .enc }
def twoEncodingHalf : Arch := { twoEncoding with half := true, hold := 0 }

/-- One symbol counted, 7 three times, with its tree, code and ENCSUM totals (V21, V31, V50). -/
def oneCounted : Arch := { Arch.reset with nsym := 3, kdist := 1, freq := [(7, 3)] }
def oneDone : Arch := { oneCounted with
  phase := .done, nnode := 1, root := 0, node := [(0, ⟨true, 3, 7, 0, 0⟩)],
  clen := [(7, 1)], maxlen := 1, nenc := 3, encbits := 3 }

/-- The histogram of S8 and V20, its tree and its codebook (V30). -/
def s8Counted : Arch := { Arch.reset with
  nsym := 9, kdist := 4, freq := [(0x41, 5), (0x42, 2), (0x43, 1), (0x44, 1)] }
def s8Tree : Arch := { s8Counted with
  phase := .tree, nnode := 7, root := 6,
  node := [(0, ⟨true, 5, 0x41, 0, 0⟩), (1, ⟨true, 2, 0x42, 0, 0⟩), (2, ⟨true, 1, 0x43, 0, 0⟩),
    (3, ⟨true, 1, 0x44, 0, 0⟩), (4, ⟨false, 2, 0, 2, 3⟩), (5, ⟨false, 4, 0, 1, 4⟩), (6, ⟨false, 9, 0, 5, 0⟩)] }
def s8Coded : Arch := { s8Tree with
  phase := .code, maxlen := 3, clen := [(0x41, 1), (0x42, 2), (0x43, 3), (0x44, 3)],
  cbits := [(0x41, 1), (0x43, 2), (0x44, 3)] }

/-- A core with FAULT = 1, after V22. -/
def faulted : Arch := { Arch.reset with fault := true, fcause := 7, finfo := 0x20000000 }

/-! ### Commands (at most two each) -/

/-- V60: from V30, CLEAR leaves the reset state. -/
theorem test_clear : after .clear s8Coded = ⟨Arch.reset, [], [⟨0, 0⟩]⟩ := by decide
/-- V61: SRCERR answers 6 and records itself; with FAULT = 1 it answers 1. -/
theorem test_srcerr : after .srcerr twoCounted =
    ⟨{ twoCounted with fault := true, fcause := 6, finfo := 0x02000000 }, [], [⟨6, 0⟩]⟩ := by decide
theorem test_srcerr_faulted : after .srcerr faulted = ⟨faulted, [], [⟨1, 0⟩]⟩ := by decide
/-- V10: the second byte is the less significant. -/
theorem test_cntb_pair : (after (.cntb 0x34) { Arch.reset with half := true, hold := 0x12 }).arch =
    { Arch.reset with hold := 0x12, nsym := 1, kdist := 1, freq := [(0x1234, 1)] } := by decide
/-- V13: the second byte raises CountOverflow and the pair is not consumed. -/
theorem test_cntb_overflow :
    let a : Arch := { Arch.reset with half := true, nsym := 0xFFFFFFFF, kdist := 1, freq := [(7, 0xFFFFFFFF)] }
    (after (.cntb 7) a).arch = { a with fault := true, fcause := 9, finfo := 0x10000007 } := by decide
/-- V14: the last count that fits. -/
theorem test_cnth_last :
    let a : Arch := { Arch.reset with nsym := 0xFFFFFFFE, kdist := 1, freq := [(7, 0xFFFFFFFE)] }
    (after (.cnth 8) a).arch = { a with nsym := 0xFFFFFFFF, kdist := 2, freq := [(7, 0xFFFFFFFE), (8, 1)] } := by
  decide
/-- V12: Misaligned. -/
theorem test_cnth_misaligned :
    let a : Arch := { Arch.reset with half := true, hold := 0xAA }
    after (.cnth 0x1234) a = ⟨{ a with fault := true, fcause := 5, finfo := 0x11001234 }, [], [⟨5, 0⟩]⟩ := by decide
/-- V20: the source's scenario. -/
theorem test_build_s8 : (after .build { s8Counted with half := true }).arch = s8Tree := by decide
/-- V24: at equal weight the leaf is extracted before the internal node. -/
theorem test_build_tie :
    (after .build { Arch.reset with nsym := 4, kdist := 3, freq := [(1, 1), (2, 1), (3, 2)] }).arch.node =
    [(0, ⟨true, 1, 1, 0, 0⟩), (1, ⟨true, 1, 2, 0, 0⟩), (2, ⟨true, 2, 3, 0, 0⟩), (3, ⟨false, 2, 0, 0, 1⟩),
      (4, ⟨false, 4, 0, 2, 3⟩)] := by decide
/-- V30. -/
theorem test_gencode_s8 : (after .gencode s8Tree).arch = s8Coded := by decide
/-- V39 in small: a limit below the longest code raises CodeOverflow and writes nothing. -/
theorem test_gencode_limit : gencodeEffect 2 0x28000000 s8Tree = .trap ⟨.codeOverflow, 0x28000000⟩ := by decide
/-- R170: from CODE and from DONE. -/
theorem test_encbegin : (after .encbegin oneDone).arch = { oneDone with phase := .enc, nenc := 0, encbits := 0 } := by
  decide
/-- R174's example, second byte. -/
theorem test_encb_second :
    (after (.encb 0x41) { s8Coded with phase := .enc, half := true }).arch =
    { s8Coded with phase := .enc, nenc := 1, encbits := 1 } := by decide
/-- V45, by bytes: the symbol, not the word, is recorded, and HALF stays 1. -/
theorem test_encb_lookup :
    let a : Arch := { s8Coded with phase := .enc, half := true }
    (after (.encb 0x45) a).arch = { a with fault := true, fcause := 8, finfo := 0x45 } := by decide
/-- R175's example. -/
theorem test_ench : (after (.ench 0x43) { s8Coded with phase := .enc }).arch =
    { s8Coded with phase := .enc, nenc := 1, encbits := 3 } := by decide
/-- V49: the lookup comes before the overflow check. -/
theorem test_ench_lookup_first : (after (.ench 0x99) { s8Coded with phase := .enc, nenc := 0xFFFFFFFF }).lastErr = 8 ∧
    (after (.ench 0x41) { s8Coded with phase := .enc, nenc := 0xFFFFFFFF }).lastErr = 9 := by decide
/-- V44: ENCEND drops the odd byte. -/
theorem test_encend :
    (after .encend { s8Coded with phase := .enc, half := true, nenc := 1, encbits := 1 }).arch.status = 0x24 := by decide
/-- V41, S8: 15 bits for 9 symbols. -/
theorem test_encsum_s8 : (after .encsum s8Coded).arch = { s8Coded with phase := .done, nenc := 9, encbits := 15 } := by
  decide
/-- V62. -/
theorem test_rdreg : (after (.rdreg 0) Arch.reset).lastData = 0x5A504E4E ∧
    (after (.rdreg 1) Arch.reset).lastData = 0x104020 ∧ (after (.rdreg 13) Arch.reset).lastErr = 3 := by decide
/-- R32, V40: ORIGBITS is 16 x NENC, STATUS has RATIO_OK. -/
theorem test_rdreg_done : (after (.rdreg 12) { s8Coded with phase := .done, nenc := 9, encbits := 15 }).lastData = 0x90 ∧
    (after (.rdreg 2) { s8Coded with phase := .done, nenc := 9, encbits := 15 }).lastData = 0x24 := by decide
theorem test_rdfreq : (after (.rdfreq 0x41) s8Coded).lastData = 5 ∧ (after (.rdfreq 0x45) s8Coded).lastData = 0 := by
  decide
theorem test_rdclen : (after (.rdclen 0x43) s8Coded).lastData = 3 ∧ (after (.rdclen 0x45) s8Coded).lastData = 0 := by
  decide
theorem test_rdcode : (after (.rdcode 0x44) s8Coded).lastData = 3 ∧ (after (.rdcode 0x42) s8Coded).lastData = 0 := by
  decide
/-- V63. -/
theorem test_rdnw : (after (.rdnw 6) s8Tree).lastData = 9 ∧ (after (.rdnw 7) s8Tree).lastErr = 3 := by decide
/-- V20. -/
theorem test_rdnc : (after (.rdnc 0) s8Tree).lastData = 0x8000000000000041 ∧
    (after (.rdnc 4) s8Tree).lastData = 0x0000000300000002 := by decide
/-- V16, V17: PhaseError, and it comes before Misaligned. -/
theorem test_phase_error : (after (.cnth 1) twoTree).lastErr = 4 ∧
    (after (.ench 1) { Arch.reset with half := true }).lastErr = 4 := by decide
/-- V73: `fault_o` is FAULT. -/
theorem test_fault_o : Arch.faultO (after .build Arch.reset).arch = true ∧ Arch.faultO Arch.reset = false := by decide
/-- V3, R264: an illegal word while faulted answers 2 and keeps the record; with nothing offered the core waits. -/
theorem test_step_illegal : step ⟨faulted, [.command 0], []⟩ = .next ⟨faulted, [], [⟨2, 0⟩]⟩ := rfl
/-- R261: an abandoned command leaves the reset state and no response. -/
theorem test_step_abandoned : step ⟨s8Tree, [.abandoned 0x28000000], []⟩ = .next State.reset := rfl
/-- From reset, the word placed by `withFetchWord` runs at the next step. -/
theorem test_withFetchWord : step (State.reset.withFetchWord 32 0x11000041) =
    .next ⟨{ Arch.reset with nsym := 1, kdist := 1, freq := [(0x41, 1)] }, [], [⟨0, 0⟩]⟩ := rfl

/-! ### The small states meet the invariants -/

theorem twoCounted_book : Bookkeeping twoCounted :=
  ⟨by constructor <;> decide, by unfold FaultRecordOk; decide, by decide, by decide, by decide, by decide, by decide,
    by decide⟩

theorem oneCounted_book : Bookkeeping oneCounted :=
  ⟨by constructor <;> decide, by unfold FaultRecordOk; decide, by decide, by decide, by decide, by decide, by decide,
    by decide⟩

theorem twoTree_tree : TreeOk twoTree where
  kdist_pos := by decide
  nnode := by decide
  root := by decide
  root_wt := by decide
  leaf i hi := by
    have : i < 2 := hi
    interval_cases i
    exacts [⟨(5, 3), rfl, rfl⟩, ⟨(9, 1), rfl, rfl⟩]
  internal p hp hp' := by
    obtain rfl : p = 2 := Nat.le_antisymm (Nat.lt_succ_iff.mp hp') hp
    decide
  siblings p hp hp' := by
    obtain rfl : p = 2 := Nat.le_antisymm (Nat.lt_succ_iff.mp hp') hp
    exact .inl (by decide)
  extracted p hp hp' := absurd (Nat.lt_of_succ_lt_succ hp') (Nat.not_lt.mpr hp)
  parent i hi := by
    refine ⟨2, ⟨by decide, by decide, ?_⟩, fun p hp => Nat.le_antisymm (Nat.lt_succ_iff.mp hp.2.1) hp.1⟩
    have : i < 2 := Nat.lt_of_succ_lt_succ hi
    interval_cases i
    exacts [.inr rfl, .inl rfl]
  unused i hi := by
    have : 3 ≤ i := hi
    simp only [Arch.nodeAt, twoTree, Memory.read]
    repeat rw [if_neg (by omega)]

theorem twoTree_inv : TreeInv twoTree :=
  ⟨⟨by constructor <;> decide, by unfold FaultRecordOk; decide, by decide, by decide, by decide, by decide, by decide,
    by decide⟩, fun _ => twoTree_tree⟩

theorem oneDone_tree : TreeOk oneDone where
  kdist_pos := by decide
  nnode := by decide
  root := by decide
  root_wt := by decide
  leaf i hi := by
    obtain rfl : i = 0 := Nat.lt_one_iff.mp hi
    exact ⟨(7, 3), rfl, rfl⟩
  internal p hp hp' := absurd (hp.trans_lt hp') (by decide)
  siblings p hp hp' := absurd (hp.trans_lt hp') (by decide)
  extracted p hp hp' := absurd ((Nat.le_succ_of_le hp).trans_lt hp') (by decide)
  parent i hi := absurd hi (by have : oneDone.nnode.toNat = 1 := rfl; omega)
  unused i hi := by
    have : 1 ≤ i := hi
    simp only [Arch.nodeAt, oneDone, Memory.read]
    repeat rw [if_neg (by omega)]

theorem sym_ne_nat {s t : Sym} (h : s ≠ t) : t.toNat ≠ s.toNat := fun e => h (BitVec.eq_of_toNat_eq e.symm)

theorem twoCoded_clen (s : Sym) : twoCoded.clenAt s = if s = 5 ∨ s = 9 then 1 else 0 := by
  by_cases h : s = 5
  · subst h; decide
  by_cases h' : s = 9
  · subst h'; decide
  have h5 : 5 ≠ s.toNat := sym_ne_nat h
  have h9 : 9 ≠ s.toNat := sym_ne_nat h'
  rw [if_neg (not_or.mpr ⟨h, h'⟩)]
  simp [Arch.clenAt, twoCoded, Memory.read, h5, h9]

theorem twoCoded_cbits (s : Sym) : twoCoded.cbitsAt s = if s = 5 then 1 else 0 := by
  by_cases h : s = 5
  · subst h; decide
  have h5 : 5 ≠ s.toNat := sym_ne_nat h
  rw [if_neg h]
  simp [Arch.cbitsAt, twoCoded, Memory.read, h5]

theorem twoCoded_freq (s : Sym) : twoCoded.freqAt s = if s = 5 then 3 else if s = 9 then 1 else 0 := by
  by_cases h : s = 5
  · subst h; decide
  by_cases h' : s = 9
  · subst h'; decide
  have h5 : 5 ≠ s.toNat := sym_ne_nat h
  have h9 : 9 ≠ s.toNat := sym_ne_nat h'
  rw [if_neg h, if_neg h']
  simp [Arch.freqAt, twoCoded, twoTree, twoCounted, Memory.read, h5, h9]

/-- Only 5 and 9 are present. -/
theorem twoCoded_present {s : Sym} (h : twoCoded.freqAt s ≠ 0) : s = 5 ∨ s = 9 := by
  rw [twoCoded_freq] at h
  split at h
  · exact .inl ‹_›
  · split at h
    · exact .inr ‹_›
    · exact absurd rfl h

theorem twoCoded_prefixFree (s t : Sym) (hst : s ≠ t) (hs : twoCoded.freqAt s ≠ 0) (ht : twoCoded.freqAt t ≠ 0) :
    ¬ twoCoded.codeOf s <+: twoCoded.codeOf t := by
  rcases twoCoded_present hs with rfl | rfl <;> rcases twoCoded_present ht with rfl | rfl <;>
    first | exact absurd rfl hst | decide

theorem twoTree_paths : Path twoTree 0 [true] ∧ Path twoTree 1 [false] :=
  ⟨.right 2 [] .root rfl, .left 2 [] .root rfl⟩

theorem twoCoded_paths : Path twoCoded 0 [true] ∧ Path twoCoded 1 [false] :=
  ⟨.right 2 [] .root rfl, .left 2 [] .root rfl⟩

theorem twoCoded_code : CodeOk twoCoded where
  paths x hx := by
    have : x < 2 := hx
    interval_cases x
    exacts [⟨_, twoCoded_paths.1, by decide⟩, ⟨_, twoCoded_paths.2, by decide⟩]
  present s := by
    rw [twoCoded_clen, twoCoded_freq]
    split_ifs <;> simp_all
  absent s h := by
    rw [twoCoded_clen] at h
    rw [twoCoded_cbits]
    split_ifs at h ⊢ <;> simp_all
  fits s := by
    rw [twoCoded_clen, twoCoded_cbits]
    split_ifs <;> simp_all
  bounded s := by
    rw [twoCoded_clen]
    split_ifs <;> decide
  attained := ⟨5, by decide⟩
  maxlen := by decide
  prefixFree := twoCoded_prefixFree
  kraft _ := by decide
  single h := absurd h (by decide)

theorem twoCoded_inv : Inv twoCoded :=
  ⟨⟨⟨by constructor <;> decide, by unfold FaultRecordOk; decide, by decide, by decide, by decide, by decide, by decide,
      by decide⟩, fun _ => ⟨twoTree_tree.1, twoTree_tree.2, twoTree_tree.3, twoTree_tree.4, twoTree_tree.5,
      twoTree_tree.6, twoTree_tree.7, twoTree_tree.8, twoTree_tree.9, twoTree_tree.10⟩⟩,
    fun _ _ => twoCoded_code, fun _ _ => by unfold TotalsOk; decide⟩

theorem oneDone_clen (s : Sym) : oneDone.clenAt s = if s = 7 then 1 else 0 := by
  by_cases h : s = 7
  · subst h; decide
  have h7 : 7 ≠ s.toNat := sym_ne_nat h
  rw [if_neg h]
  simp [Arch.clenAt, oneDone, Memory.read, h7]

theorem oneDone_freq (s : Sym) : oneDone.freqAt s = if s = 7 then 3 else 0 := by
  by_cases h : s = 7
  · subst h; decide
  have h7 : 7 ≠ s.toNat := sym_ne_nat h
  rw [if_neg h]
  simp [Arch.freqAt, oneDone, oneCounted, Memory.read, h7]

/-- Only 7 is present. -/
theorem oneDone_present {s : Sym} (h : oneDone.freqAt s ≠ 0) : s = 7 := by
  rw [oneDone_freq] at h
  split at h
  · assumption
  · exact absurd rfl h

theorem oneDone_code : CodeOk oneDone where
  paths x hx := by
    obtain rfl : x = 0 := Nat.lt_one_iff.mp hx
    exact ⟨[], .root, by decide⟩
  present s := by
    rw [oneDone_clen, oneDone_freq]
    split_ifs <;> simp_all
  absent _ _ := rfl
  fits _ := Nat.two_pow_pos _
  bounded s := by
    rw [oneDone_clen]
    split_ifs <;> decide
  attained := ⟨7, by decide⟩
  maxlen := by decide
  prefixFree _ _ hst hs ht := absurd ((oneDone_present hs).trans (oneDone_present ht).symm) hst
  kraft h := absurd h (by decide)
  single _ s hs := by
    obtain rfl := oneDone_present hs
    decide

theorem oneDone_inv : Inv oneDone :=
  ⟨⟨⟨by constructor <;> decide, by unfold FaultRecordOk; decide, by decide, by decide, by decide, by decide, by decide,
      by decide⟩, fun _ => oneDone_tree⟩, fun _ _ => oneDone_code, fun _ _ => by unfold TotalsOk; decide⟩

/-- Every node `twoTree`'s paths reach: the root, or a leaf one step below it. -/
theorem twoTree_path {x : Nat} {p : List Bool} (h : Path twoTree x p) :
    (x = 2 ∧ p = []) ∨ (twoTree.nodeAt x).leaf = true ∧ p.length = 1 := by
  induction h with
  | root => exact .inl ⟨rfl, rfl⟩
  | left p l _ hl ih | right p l _ hl ih =>
    rcases ih with ⟨rfl, rfl⟩ | ⟨h, -⟩
    · exact .inr (by decide)
    · exact absurd (h.symm.trans hl) (by decide)

/-! ### Witnesses: for each statement with hypotheses, concrete inputs that meet all of them

A hypothesis `exec i s = .next t` is met by an equation at a concrete state; `after` names the state left. -/

theorem witness_DecodedWordIsOpcodeAndOperand : decode 0x4401FFFF = .ok (.rdnw 0x1FFFF) := by decide

theorem witness_WordEncodesCommandIffMaskMatches :
    (.RDNC, .n, 0x45000000, 0xFFFE0000) ∈ opcodeRows ∧ decode 0x4501FFFE = .ok (.rdnc 0x1FFFE) ∧
    (Instr.rdnc 0x1FFFE).mnemonic = .RDNC := by decide

/-- Both ends of every range of R89. -/
theorem witness_ReservedOpcodeRaisesIllegalCommand :
    (⟨faulted, [.command 0x12ABCDEF], []⟩ : State).inbox = .command 0x12ABCDEF :: [] ∧
    ([0x00, 0x03, 0x0F, 0x12, 0x1F, 0x21, 0x27, 0x29, 0x2F, 0x35, 0x3F, 0x46, 0xFF].map fun op =>
      reservedOp (op * 2 ^ 24 / 2 ^ 24)) = List.replicate 13 true ∧
    reservedOp ((0x12ABCDEF : Word).toNat / 2 ^ 24) = true := by decide

/-- The lowest and the highest must-be-zero bit of formats B, H and N, and bit 0 of format Z. -/
theorem witness_MustBeZeroBitRaisesIllegalCommand :
    (⟨faulted, [.command 0x44020000], []⟩ : State).inbox = .command 0x44020000 :: [] ∧
    ∀ c ∈ ([(0x44020000, .RDNW), (0x44800000, .RDNW), (0x11010000, .CNTH), (0x10000100, .CNTB), (0x40800000, .RDREG),
        (0x20000001, .BUILD)] : List (Word × Mnemonic)),
      c.1.toNat / 2 ^ 24 = c.2.opcode.toNat ∧ c.1.toNat % 2 ^ 24 / 2 ^ c.2.format.operandBits ≠ 0 := by decide

theorem witness_AssembledLineHasItsWord :
    AsmLine.wellFormed ⟨.RDNW, some 131071⟩ = true ∧ AsmLine.wellFormed ⟨.RDNW, some 131072⟩ = false := by decide

theorem witness_StepRunsTheDecodedCommand :
    (⟨s8Tree, [.command 0x28000000, .reset], []⟩ : State).inbox = .command 0x28000000 :: [.reset] ∧
    decode 0x28000000 = .ok .gencode := by decide

theorem witness_ResetAndWait :
    (⟨s8Tree, [.reset], []⟩ : State).inbox = .reset :: [] ∧
    (⟨s8Tree, [.abandoned 0x28000000], []⟩ : State).inbox = .abandoned 0x28000000 :: [] ∧
    (idle s8Tree).inbox = [] := by decide

/-- A command that succeeds, and a read with data. -/
theorem witness_EveryCommandGetsOneResponse :
    exec .gencode (idle s8Tree) = .next (after .gencode s8Tree) ∧
    exec (.rdnw 6) (idle s8Tree) = .next (after (.rdnw 6) s8Tree) ∧ (after (.rdnw 6) s8Tree).lastData ≠ 0 :=
  ⟨rfl, rfl, by decide⟩

theorem witness_IdleHoldIsUnobservable :
    SameButIdleHold twoCounted { twoCounted with hold := 0xAB } ∧
    exec (.cnth 5) (idle twoCounted) = .next (after (.cnth 5) twoCounted) :=
  ⟨⟨rfl, fun h => absurd h (by decide)⟩, rfl⟩

/-- Each of the four kinds of command, the reads at the ends of their ranges. -/
theorem witness_FaultedGate :
    faulted.fault = true ∧ { s8Tree with fault := true }.fault = true ∧ Instr.build ≠ .clear ∧
    isRead .build = false ∧ isRead (.rdreg 12) = true ∧ (12 : Byte).toNat ≤ 12 ∧
    isRead (.rdnw 6) = true ∧ (6 : Handle).toNat < s8Tree.nnode.toNat := by decide

/-- The least number and handle out of range, and a handle of the empty arena. -/
theorem witness_ArgumentOutOfRangeRaisesBadArgument :
    12 < (13 : Byte).toNat ∧ s8Tree.nnode.toNat ≤ (7 : Handle).toNat ∧
    Arch.reset.nnode.toNat ≤ (0 : Handle).toNat := by decide

theorem witness_PhaseLegality :
    s8Tree.fault = false ∧ s8Tree.phase ∉ legalPhases (Instr.cntb 1).mnemonic ∧
    s8Tree.phase ∈ legalPhases Instr.gencode.mnemonic ∧
    exec .gencode (idle s8Tree) = .next (after .gencode s8Tree) :=
  ⟨by decide, by decide, by decide, rfl⟩

theorem witness_WholeSymbolPushAtHalfPairIsMisaligned :
    { twoCounted with half := true }.fault = false ∧ { twoCounted with half := true }.half = true ∧
    { twoCounted with half := true }.phase = .count ∧
    twoEncodingHalf.fault = false ∧ twoEncodingHalf.half = true ∧ twoEncodingHalf.phase = .enc := by decide

theorem witness_FaultEntry : (idle s8Tree).arch.fault = false ∧ (idle faulted).arch.fault = true := by decide

/-- A fault of a legal word and one of an illegal word. -/
theorem witness_FailedCommandChangesOnlyTheFaultRecord :
    step ⟨twoTree, [.command 0x11000005], []⟩ = .next (after (.cnth 5) twoTree) ∧
    (after (.cnth 5) twoTree).lastErr ≠ 0 ∧
    step ⟨faulted, [.command 0], []⟩ = .next ⟨faulted, [], [⟨2, 0⟩]⟩ ∧
    (⟨faulted, [], [⟨2, 0⟩]⟩ : State).lastErr ≠ 0 :=
  ⟨rfl, by decide, rfl, by decide⟩

/-- Each of the three answers. -/
theorem witness_FirstFaultIsKept :
    faulted.fault = true ∧
    step ⟨faulted, [.command 0x20000000], []⟩ = .next ⟨faulted, [], [⟨1, 0⟩]⟩ ∧
    step ⟨faulted, [.command 0], []⟩ = .next ⟨faulted, [], [⟨2, 0⟩]⟩ ∧
    step ⟨faulted, [.command 0x4000000D], []⟩ = .next ⟨faulted, [], [⟨3, 0⟩]⟩ ∧
    (⟨faulted, [], [⟨3, 0⟩]⟩ : State).lastErr ≠ 0 :=
  ⟨rfl, rfl, rfl, rfl, by decide⟩

/-- Each of the three ways out. -/
theorem witness_OnlyClearOrResetLeavesFaultedState :
    faulted.fault = true ∧ Arch.reset.fault = false ∧
    step ⟨faulted, [.command 0x01000000], []⟩ = .next ⟨Arch.reset, [], [⟨0, 0⟩]⟩ ∧
    step ⟨faulted, [.reset], []⟩ = .next State.reset ∧
    step ⟨faulted, [.abandoned 0x01000000], []⟩ = .next State.reset :=
  ⟨rfl, rfl, rfl, rfl, rfl⟩

/-- A cause that records the word, and LookupFailure by each of its two commands. -/
theorem witness_FaultInformationWord :
    step ⟨twoTree, [.command 0x11000005], []⟩ = .next (after (.cnth 5) twoTree) ∧
    (after (.cnth 5) twoTree).arch.fcause ≠ Cause.lookupFailure.code ∧
    twoTree.fault = false ∧ (after (.cnth 5) twoTree).arch.fault = true ∧
    step ⟨twoEncoding, [.command 0x32000006], []⟩ = .next (after (.ench 6) twoEncoding) ∧
    (after (.ench 6) twoEncoding).arch.fcause = Cause.lookupFailure.code ∧
    twoEncoding.fault = false ∧ (after (.ench 6) twoEncoding).arch.fault = true ∧
    step ⟨twoEncodingHalf, [.command 0x31000006], []⟩ = .next (after (.encb 6) twoEncodingHalf) ∧
    (after (.encb 6) twoEncodingHalf).arch.fcause = Cause.lookupFailure.code ∧
    twoEncodingHalf.fault = false ∧ (after (.encb 6) twoEncodingHalf).arch.fault = true :=
  ⟨rfl, by decide, rfl, by decide, rfl, by decide, rfl, by decide, rfl, by decide, rfl, by decide⟩

/-- An arena that no run reaches, a path of 65 steps: internal node `i` below 65 has the children 65 + i and i + 1. -/
def deepTree : Arch := { twoTree with
  kdist := 0, nnode := 131, root := 0,
  node := (List.range 64).map (fun i => (i, ⟨false, 1, 0, BitVec.ofNat 17 (65 + i), BitVec.ofNat 17 (i + 1)⟩)) ++
    [(64, ⟨false, 1, 0, 129, 130⟩)] ++
    (List.range 66).map (fun i => (65 + i, ⟨true, 1, BitVec.ofNat 16 i, 0, 0⟩)) }

/-- Codes 1 and 3 to 9. No decoded command answers IllegalCommand; CodeOverflow follows. -/
theorem witness_EveryErrorCodeHasItsCause :
    exec .build (idle faulted) = .next (after .build faulted) ∧ (after .build faulted).lastErr = 1 ∧
    (after (.rdreg 13) twoTree).lastErr = 3 ∧ (after (.rdnc 3) twoTree).lastErr = 3 ∧
    (after .build twoTree).lastErr = 4 ∧ (after (.ench 5) twoEncodingHalf).lastErr = 5 ∧
    (after .srcerr twoTree).lastErr = 6 ∧ (after .build Arch.reset).lastErr = 7 ∧
    (after (.ench 6) twoEncoding).lastErr = 8 ∧ (after (.encb 6) twoEncodingHalf).lastErr = 8 ∧
    (after (.cnth 5) { twoCounted with nsym := 0xFFFFFFFF }).lastErr = 9 ∧
    (after (.encb 5) { twoEncodingHalf with nenc := 0xFFFFFFFF }).lastErr = 9 :=
  ⟨rfl, by decide, by decide, by decide, by decide, by decide, by decide, by decide, by decide, by decide, by decide,
    by decide⟩

set_option maxRecDepth 20000 in
/-- CodeOverflow, in a state that no run reaches (R152): its longest code has 65 bits, one more than CODEW. -/
theorem witness_EveryErrorCodeHasItsCause_codeOverflow :
    (after .gencode deepTree).lastErr = 10 ∧ (codes deepTree).map longest = some 65 := by decide

/-- The causes whose words R232 writes out; CodeOverflow in a state that no run reaches (R152). -/
theorem witness_FaultInformationWord_words :
    step ⟨Arch.reset, [.command 0x20000000], []⟩ = .next (after .build Arch.reset) ∧
    (after .build Arch.reset).arch.fcause = Cause.emptyInput.code ∧
    step ⟨twoTree, [.command 0x02000000], []⟩ = .next (after .srcerr twoTree) ∧
    (after .srcerr twoTree).arch.fcause = Cause.sourceUnavailable.code :=
  ⟨rfl, by decide, rfl, by decide⟩

set_option maxRecDepth 20000 in
theorem witness_FaultInformationWord_codeOverflow :
    deepTree.fault = false ∧ (after .gencode deepTree).arch.fault = true ∧
    (after .gencode deepTree).arch.fcause = Cause.codeOverflow.code := by decide

theorem witness_FirstByteOfPairIsHeld :
    twoCounted.fault = false ∧ twoCounted.half = false ∧ twoCounted.phase = .count ∧
    twoEncoding.fault = false ∧ twoEncoding.half = false ∧ twoEncoding.phase = .enc := by decide

/-- At the last count that fits; by a whole symbol and by a second byte. -/
theorem witness_SymbolIsCounted :
    let a : Arch := { twoCounted with nsym := 0xFFFFFFFE }
    a.fault = false ∧ a.phase = .count ∧ a.nsym.toNat ≠ 2 ^ 32 - 1 ∧ a.half = false ∧
    { a with half := true }.half = true ∧
    (0x1234 : Sym).toNat = { a with hold := 0x12 }.hold.toNat * 256 + (0x34 : Byte).toNat := by decide

theorem witness_WholeSymbolPushEqualsTwoBytePushes :
    twoCounted.half = false ∧
    exec (.cnth ((0 : Byte) ++ (5 : Byte))) (idle twoCounted) = .next (after (.cnth 5) twoCounted) ∧
    (after (.cnth 5) twoCounted).lastErr = 0 ∧ twoEncoding.half = false ∧
    exec (.ench ((0 : Byte) ++ (5 : Byte))) (idle twoEncoding) = .next (after (.ench 5) twoEncoding) ∧
    (after (.ench 5) twoEncoding).lastErr = 0 :=
  ⟨rfl, rfl, by decide, rfl, rfl, by decide⟩

theorem witness_CountingIsOrderIndependent :
    Memory.wf 0 Config.numSymbols twoCounted.freq = true ∧ List.Perm [(5 : Sym), 6] [6, 5] ∧
    runAll ([(5 : Sym), 6].map .cnth) (idle twoCounted) =
      .next ⟨{ twoCounted with nsym := 6, kdist := 3, freq := [(5, 4), (6, 1), (9, 1)] }, [], [⟨0, 0⟩, ⟨0, 0⟩]⟩ :=
  ⟨by decide, .swap 6 5 [], rfl⟩

theorem witness_ListedEntriesAreTheScan : Memory.wf 0 65536 ([(0, 1), (65535, 2)] : Memory Count) = true := by decide

theorem witness_BuildOnEmptyHistogramRaisesEmptyInput :
    Arch.reset.fault = false ∧ Arch.reset.phase = .count ∧ Arch.reset.kdist = 0 := by decide

theorem witness_BuildMakesTheTree :
    Bookkeeping twoCounted ∧ twoCounted.fault = false ∧ twoCounted.phase = .count ∧ twoCounted.kdist ≠ 0 :=
  ⟨twoCounted_book, by decide⟩

theorem witness_BuildOfOneSymbolIsItsLeaf :
    Bookkeeping oneCounted ∧ oneCounted.fault = false ∧ oneCounted.phase = .count ∧ oneCounted.kdist = 1 ∧
    oneCounted.freqAt 7 ≠ 0 :=
  ⟨oneCounted_book, by decide⟩

theorem witness_TreeDependsOnHistogramAlone :
    Bookkeeping twoCounted ∧ Bookkeeping { twoCounted with half := true, hold := 7 } ∧ twoCounted.fault = false ∧
    twoCounted.phase = .count ∧ twoCounted.kdist ≠ 0 ∧
    exec .build (idle twoCounted) = .next (after .build twoCounted) :=
  ⟨twoCounted_book, ⟨by constructor <;> decide, by unfold FaultRecordOk; decide, by decide, by decide, by decide,
    by decide, by decide, by decide⟩, by decide, by decide, by decide, rfl⟩

theorem witness_InternalWeightsRise :
    TreeOk twoTree ∧ twoTree.kdist.toNat ≤ 2 ∧ 2 ≤ 2 ∧ 2 < twoTree.nnode.toNat :=
  ⟨twoTree_tree, by decide⟩

theorem witness_WeightedLengthIsSumOfInternalWeights :
    Inv twoCoded ∧ twoCoded.phase ≠ .count ∧ twoCoded.phase ≠ .tree ∧ 2 ≤ twoCoded.kdist.toNat :=
  ⟨twoCoded_inv, by decide⟩

theorem witness_CodebookIsOptimal :
    Inv twoCoded ∧ twoCoded.phase ≠ .count ∧ twoCoded.phase ≠ .tree ∧ 2 ≤ twoCoded.kdist.toNat ∧
    ∀ s t : Sym, s ≠ t → twoCoded.freqAt s ≠ 0 → twoCoded.freqAt t ≠ 0 →
      ¬ twoCoded.codeOf s <+: twoCoded.codeOf t :=
  ⟨twoCoded_inv, by decide, by decide, by decide, twoCoded_prefixFree⟩

theorem witness_GencodeWritesTheCodebook :
    TreeInv twoTree ∧ twoTree.fault = false ∧ twoTree.phase = .tree ∧
    ∀ x < twoTree.kdist.toNat, ∀ p, Path twoTree x p → p.length ≤ 64 := by
  refine ⟨twoTree_inv, rfl, rfl, fun x hx p hp => ?_⟩
  rcases twoTree_path hp with ⟨-, rfl⟩ | ⟨-, h⟩
  · exact Nat.zero_le _
  · omega

theorem witness_GencodeNeverOverflows : TreeInv twoTree ∧ twoTree.fault = false ∧ twoTree.phase = .tree :=
  ⟨twoTree_inv, by decide⟩

/-- The tree of one symbol (V21). -/
def oneTree : Arch := { oneDone with phase := .tree, clen := [], maxlen := 0, nenc := 0, encbits := 0 }

theorem oneTree_inv : TreeInv oneTree :=
  ⟨⟨by constructor <;> decide, by unfold FaultRecordOk; decide, by decide, by decide, by decide, by decide, by decide,
    by decide⟩, fun _ => ⟨oneDone_tree.1, oneDone_tree.2, oneDone_tree.3, oneDone_tree.4, oneDone_tree.5,
    oneDone_tree.6, oneDone_tree.7, oneDone_tree.8, oneDone_tree.9, oneDone_tree.10⟩⟩

/-- The only path of a tree of one leaf is the empty one. -/
theorem oneTree_path {x : Nat} {p : List Bool} (h : Path oneTree x p) : x = 0 ∧ p = [] := by
  induction h with
  | root => exact ⟨rfl, rfl⟩
  | left p l _ hl ih | right p l _ hl ih => exact absurd (ih.1 ▸ hl) (by decide)

/-- The greatest limit each first clause forbids: below a path of one step, and below the code of a single leaf. -/
theorem witness_LongCodeRaisesCodeOverflow_over :
    TreeInv twoTree ∧ twoTree.phase = .tree ∧ 2 ≤ twoTree.kdist.toNat ∧ 0 < twoTree.kdist.toNat ∧
    Path twoTree 0 [true] ∧ 0 < [true].length ∧
    TreeInv oneTree ∧ oneTree.phase = .tree ∧ oneTree.kdist = 1 :=
  ⟨twoTree_inv, by decide, by decide, by decide, twoTree_paths.1, by decide, oneTree_inv, by decide, by decide⟩

/-- The least limit the last clause allows, for two symbols and for one. -/
theorem witness_LongCodeRaisesCodeOverflow_within :
    (∀ x < twoTree.kdist.toNat, ∀ p, Path twoTree x p → p.length ≤ 1) ∧
    (∀ x < oneTree.kdist.toNat, ∀ p, Path oneTree x p → p.length ≤ 1) := by
  refine ⟨fun x _ p hp => ?_, fun x _ p hp => ?_⟩
  · rcases twoTree_path hp with ⟨-, rfl⟩ | ⟨-, h⟩
    · exact Nat.zero_le 1
    · exact h.le
  · rw [(oneTree_path hp).2]
    exact Nat.zero_le 1

theorem witness_EncbeginStartsAPass :
    twoCoded.fault = false ∧ twoCoded.phase = .code ∧ oneDone.fault = false ∧ oneDone.phase = .done := by decide

/-- At the last count that fits; by a whole symbol and by a second byte. -/
theorem witness_SymbolIsEncoded :
    let a : Arch := { twoEncoding with nenc := 0xFFFFFFFE }
    a.fault = false ∧ a.phase = .enc ∧ a.clenAt 5 ≠ 0 ∧ a.nenc.toNat ≠ 2 ^ 32 - 1 ∧ a.half = false ∧
    { a with half := true }.half = true ∧ (5 : Sym).toNat = a.hold.toNat * 256 + (5 : Byte).toNat := by decide

/-- Also at NENC = CNTMAX. -/
theorem witness_SymbolWithoutEntryRaisesLookupFailure :
    let a : Arch := { twoEncoding with nenc := 0xFFFFFFFF }
    a.fault = false ∧ a.phase = .enc ∧ a.clenAt 6 = 0 ∧ a.half = false ∧
    { a with half := true }.half = true ∧ (6 : Sym).toNat = a.hold.toNat * 256 + (6 : Byte).toNat := by decide

theorem witness_CountOverflowChangesNothingElse :
    let a : Arch := { twoCounted with nsym := 0xFFFFFFFF }
    let b : Arch := { twoEncoding with nenc := 0xFFFFFFFF }
    a.fault = false ∧ a.phase = .count ∧ a.nsym.toNat = 4294967295 ∧ a.half = false ∧
    { a with half := true }.half = true ∧
    b.fault = false ∧ b.phase = .enc ∧ b.nenc.toNat = 4294967295 ∧ b.clenAt 5 ≠ 0 ∧ b.half = false ∧
    { b with half := true }.half = true ∧ (5 : Sym).toNat = b.hold.toNat * 256 + (5 : Byte).toNat := by decide

theorem witness_EncendEndsThePass : twoEncodingHalf.fault = false ∧ twoEncodingHalf.phase = .enc := by decide

theorem witness_EncsumAddsTheHistogram :
    Memory.wf 0 Config.numSymbols twoCoded.freq = true ∧ twoCoded.fault = false ∧ twoCoded.phase = .code ∧
    oneDone.phase = .done := by decide

theorem witness_PassTwoAgreesWithEncsum :
    Inv twoCoded ∧ twoCoded.fault = false ∧ twoCoded.phase = .code ∧
    ∀ x : Sym, ([5, 9, 5, 5] : List Sym).count x = (twoCoded.freqAt x).toNat := by
  refine ⟨twoCoded_inv, rfl, rfl, fun x => ?_⟩
  rw [twoCoded_freq]
  split
  · subst x; decide
  · split
    · subst x; decide
    · have h5 : ¬ (5 : Sym) = x := fun h => ‹¬ x = 5› h.symm
      have h9 : ¬ (9 : Sym) = x := fun h => ‹¬ x = 9› h.symm
      simp only [List.count_cons, List.count_nil, beq_iff_eq, if_neg h5, if_neg h9]
      rfl

theorem witness_SingleSymbolRatioIsSixteen :
    Inv oneDone ∧ oneDone.phase ≠ .count ∧ oneDone.phase ≠ .tree ∧ oneDone.kdist = 1 ∧ oneDone.clenAt 7 ≠ 0 ∧
    oneDone.ratioOk = true :=
  ⟨oneDone_inv, by decide⟩

theorem witness_DefinedRatioIsBounded : Inv oneDone ∧ oneDone.ratioOk = true := ⟨oneDone_inv, by decide⟩

theorem witness_ClearLeavesResetState :
    (⟨faulted, [.reset], []⟩ : State).inbox = .reset :: [] := by decide

theorem witness_SrcerrRaisesSourceUnavailable : s8Tree.fault = false ∧ faulted.fault = true := by decide

theorem witness_NodeReadsAnswerTheArena :
    (0 : Handle).toNat < s8Tree.nnode.toNat ∧ (s8Tree.nodeAt 0).leaf = true ∧
    (6 : Handle).toNat < s8Tree.nnode.toNat ∧ (s8Tree.nodeAt 6).leaf = false := by decide

theorem witness_SuccessfulReadHasNoSideEffect :
    isRead (.rdnc 6) = true ∧ exec (.rdnc 6) (idle s8Tree) = .next (after (.rdnc 6) s8Tree) ∧
    (after (.rdnc 6) s8Tree).lastErr = 0 :=
  ⟨rfl, rfl, by decide⟩

/-- Every register and memory does change somewhere. -/
theorem witness_RegistersChangeOnlyUnderTheirWriters :
    exec .build (idle s8Counted) = .next (after .build s8Counted) ∧
    (after .build s8Counted).arch.phase ≠ s8Counted.phase ∧ (after .build s8Counted).arch.node ≠ s8Counted.node ∧
    (after .build s8Counted).arch.nnode ≠ s8Counted.nnode ∧ (after .build s8Counted).arch.root ≠ s8Counted.root ∧
    exec (.cntb 0x12) (idle s8Counted) = .next (after (.cntb 0x12) s8Counted) ∧
    (after (.cntb 0x12) s8Counted).arch.half ≠ s8Counted.half ∧
    (after (.cntb 0x12) s8Counted).arch.hold ≠ s8Counted.hold ∧
    exec (.cnth 6) (idle s8Counted) = .next (after (.cnth 6) s8Counted) ∧
    (after (.cnth 6) s8Counted).arch.nsym ≠ s8Counted.nsym ∧
    (after (.cnth 6) s8Counted).arch.kdist ≠ s8Counted.kdist ∧
    (after (.cnth 6) s8Counted).arch.freq ≠ s8Counted.freq ∧
    exec .gencode (idle s8Tree) = .next (after .gencode s8Tree) ∧
    (after .gencode s8Tree).arch.clen ≠ s8Tree.clen ∧ (after .gencode s8Tree).arch.cbits ≠ s8Tree.cbits ∧
    (after .gencode s8Tree).arch.maxlen ≠ s8Tree.maxlen ∧
    exec .encsum (idle s8Coded) = .next (after .encsum s8Coded) ∧
    (after .encsum s8Coded).arch.nenc ≠ s8Coded.nenc ∧ (after .encsum s8Coded).arch.encbits ≠ s8Coded.encbits ∧
    exec .srcerr (idle s8Coded) = .next (after .srcerr s8Coded) ∧
    (after .srcerr s8Coded).arch.fault ≠ s8Coded.fault :=
  ⟨rfl, by decide, by decide, by decide, by decide, rfl, by decide, by decide, rfl, by decide, by decide, by decide, rfl,
    by decide, by decide, by decide, rfl, by decide, by decide, rfl, by decide⟩

theorem witness_PhaseTransitions : exec .build (idle s8Counted) = .next (after .build s8Counted) := rfl

theorem witness_StepKeepsBookkeeping :
    Bookkeeping twoCounted ∧ step ⟨twoCounted, [.command 0x11000006], []⟩ = .next (after (.cnth 6) twoCounted) :=
  ⟨twoCounted_book, rfl⟩

theorem witness_StepKeepsTheTree :
    TreeInv twoTree ∧ step ⟨twoTree, [.command 0x28000000], []⟩ = .next (after .gencode twoTree) :=
  ⟨twoTree_inv, rfl⟩

theorem witness_StepKeepsTheInvariant :
    Inv twoCoded ∧ step ⟨twoCoded, [.command 0x34000000], []⟩ = .next (after .encsum twoCoded) :=
  ⟨twoCoded_inv, rfl⟩

theorem witness_StepNeverStops : TreeInv twoTree := twoTree_inv

end Sys2Proof.Machine
end

section
/-! PROOF. Steps and the core state: every step changes the core state by a reset, a first fault or an execution, so a
predicate that these three keep is kept by every step. -/

namespace Sys2Proof.Machine

theorem Traps.cause_ne_faulted {a : Arch} {i : Instr} {tr : Trap} (h : Traps a i tr) : tr.cause ≠ .faulted := by
  cases h <;> exact nofun

/-- With FAULT = 0 no command is answered Faulted (R87 step 2). -/
theorem admission_ne_faulted {i : Instr} {a : Arch} (h : a.fault = false) : admission i a ≠ some .faulted := by
  intro ha
  rcases admission_some ha with ⟨_, hf, _⟩ | ⟨hc, _⟩ | ⟨hc, _⟩ | ⟨hc, _⟩
  · exact absurd (h.symm.trans hf) (by decide)
  all_goals cases hc

/-- A predicate of the core state that holds at reset and is kept by the entry of a first fault and by every execution
is kept by every step. -/
theorem step_keeps {P : Arch → Prop} (reset : P Arch.reset)
    (fault : ∀ (a : Arch) (c : Cause) (info : BitVec 32), P a → a.fault = false → c ≠ .faulted →
      P { a with fault := true, fcause := c.code, finfo := info })
    (executes : ∀ (i : Instr) (a a' : Arch) (d : Data), P a → admission i a = none → Executes a i a' d → P a')
    {s t : State} (hs : P s.arch) (h : step s = .next t) : P t.arch := by
  have record (tr : Trap) (hc : s.arch.fault = false → tr.cause ≠ .faulted) : P (s.arch.recordFault tr) := by
    cases hf : s.arch.fault with
    | true => rwa [recordFault_of_fault tr hf]
    | false =>
      rw [recordFault_of_noFault tr hf]
      exact fault _ _ _ hs hf (hc hf)
  rcases step_cases h with ⟨_, rfl⟩ | ⟨rest, _, rfl⟩ | ⟨w, rest, i, _, _, hx⟩ | ⟨w, rest, e, _, _, rfl⟩
  · exact hs
  · exact reset
  · rcases exec_cases hx with ⟨ha, a, d, he, rfl⟩ | ⟨tr, rfl, ⟨c, hc, rfl⟩ | ⟨_, ht⟩⟩
    · exact executes i _ a d hs ha he
    · exact record _ fun hf hc' => admission_ne_faulted hf (hc.trans (congrArg some hc'))
    · exact record _ fun _ => ht.cause_ne_faulted
  · exact record _ fun _ => nofun

/-! ### The reset state (R39) -/

/-- Settles O55: every field of the reset state is written out in `Arch.reset`. -/
theorem resetValues : Obligations.ResetValues := by
  unfold Obligations.ResetValues
  refine ⟨rfl, rfl, rfl, rfl, rfl, rfl, rfl, rfl, rfl, rfl, rfl, rfl, rfl, fun _ => ⟨rfl, rfl, rfl⟩, fun _ => rfl, ?_⟩
  decide

theorem bookkeeping_reset : Bookkeeping Arch.reset where
  memories := ⟨rfl, rfl, rfl, rfl⟩
  record := ⟨rfl, rfl⟩
  nsym := rfl
  kdist := rfl
  half := nofun
  noTree _ := ⟨rfl, rfl, rfl⟩
  noCode _ := ⟨rfl, rfl, rfl⟩
  noTotals _ := ⟨rfl, rfl⟩

theorem treeInv_reset : TreeInv Arch.reset := ⟨bookkeeping_reset, fun h => absurd rfl h⟩

theorem inv_reset : Inv Arch.reset := ⟨treeInv_reset, fun h => absurd rfl h, fun h => absurd rfl h⟩

/-- Settles O56: the tree, the codebook and the totals are constrained in later phases only. -/
theorem invariantHoldsAtReset : Obligations.InvariantHoldsAtReset := inv_reset

/-! ### The control registers (R30, R32, R34) -/

/-- RDREG of an assigned number is admitted in every state. -/
theorem exec_rdreg {s : State} {r : Byte} {v : Data} (hr : r.toNat ≤ 12) (hv : s.arch.csr r = some v) :
    exec (.rdreg r) s = .next (State.respond 0 v s) :=
  exec_of_executes (admission_eq_none.mpr ⟨fun _ => rfl, by simpa [argumentOk] using hr, rfl, nofun⟩) (.rdreg r v hv)

/-- ORIGBITS as a number (R30). -/
theorem origbits_eq (a : Arch) : a.origbits = BitVec.ofNat 64 (16 * a.nenc.toNat) := by
  have := a.nenc.isLt
  apply BitVec.eq_of_toNat_eq
  simp [Arch.origbits, BitVec.toNat_mul]

/-- Settles O48: each number is assigned, and `Arch.csr` names its register. -/
theorem rdregAnswersTheControlRegister : Obligations.RdregAnswersTheControlRegister := by
  unfold Obligations.RdregAnswersTheControlRegister
  intro s
  rw [← origbits_eq]
  refine ⟨?_, ?_, ?_, ?_, ?_, ?_, ?_, ?_, ?_, ?_, ?_, ?_, ?_⟩ <;> exact exec_rdreg (by decide) rfl

theorem flagBit_toNat (b : Bool) : (flagBit b).toNat = b.toNat := by cases b <;> rfl

theorem append_toNat {m n : Nat} (x : BitVec m) (y : BitVec n) : (x ++ y).toNat = x.toNat * 2 ^ n + y.toNat := by
  rw [BitVec.toNat_append, ← Nat.shiftLeft_add_eq_or_of_lt y.isLt, Nat.shiftLeft_eq]

/-- STATUS as a number (R34). -/
theorem status_toNat (a : Arch) :
    a.status.toNat = 32 * a.ratioOk.toNat + 16 * a.fault.toNat + 8 * a.half.toNat + a.phase.number.toNat := by
  simp only [Arch.status, append_toNat, flagBit_toNat, BitVec.toNat_ofNat]
  omega

theorem ratioOk_iff (a : Arch) : a.ratioOk = true ↔ a.phase = .done ∧ a.fault = false ∧ a.encbits ≠ 0 := by
  simp [Arch.ratioOk, and_assoc]

theorem phase_number_le (p : Phase) : p.number.toNat ≤ 4 := by cases p <;> decide

/-- A bit of a word, from the digit of the word as a number. -/
theorem getLsbD_of_digit {x : Data} {i : Nat} {b : Bool} (h : x.toNat / 2 ^ i % 2 = b.toNat) : x.getLsbD i = b := by
  rw [BitVec.getLsbD, Nat.testBit_eq_decide_div_mod_eq, h]
  cases b <;> rfl

/-- The flags of STATUS stand at bits 3, 4 and 5 (R34). -/
theorem status_flags (a : Arch) :
    a.status.getLsbD 3 = a.half ∧ a.status.getLsbD 4 = a.fault ∧ a.status.getLsbD 5 = a.ratioOk := by
  have hr := a.ratioOk.toNat_le
  have hf := a.fault.toNat_le
  have hh := a.half.toNat_le
  have hp := phase_number_le a.phase
  refine ⟨getLsbD_of_digit ?_, getLsbD_of_digit ?_, getLsbD_of_digit ?_⟩ <;> rw [status_toNat] <;> omega

/-- Settles O49, from STATUS as a number and its three flags. -/
theorem statusFields : Obligations.StatusFields := by
  unfold Obligations.StatusFields
  intro a
  obtain ⟨hhalf, hfault, hratio⟩ := status_flags a
  have hr := a.ratioOk.toNat_le
  have hf := a.fault.toNat_le
  have hh := a.half.toNat_le
  have hp := phase_number_le a.phase
  refine ⟨?_, hhalf, hfault, by rw [hratio, ratioOk_iff], by rw [status_toNat]; omega⟩
  have hm : a.status.toNat % 8 = a.phase.number.toNat := by rw [status_toNat]; omega
  rw [hm]
  cases a.phase <;> rfl

/-! ### Who writes what (R20, R23) -/

/-- Settles O53: an error response leaves all but the fault record, and each way to execute names what it writes. -/
theorem registersChangeOnlyUnderTheirWriters : Obligations.RegistersChangeOnlyUnderTheirWriters := by
  unfold Obligations.RegistersChangeOnlyUnderTheirWriters
  intro i s t h
  rcases exec_cases h with ⟨_, a, d, he, rfl⟩ | ⟨tr, rfl, _⟩
  · cases he with
    | gencode cs _ _ =>
      obtain ⟨l, b, hw⟩ := writeCodes_frame cs s.arch
      simp [hw, Instr.mnemonic]
    | _ => simp [counted, encoded, Instr.mnemonic]
  · have hc : tr.cause.code ≠ 0 := tr.cause.code_ne_zero
    simp_all

/-- Settles O54: six commands write PHASE when they execute, each admitted in the phases R94 gives. -/
theorem phaseTransitions : Obligations.PhaseTransitions := by
  unfold Obligations.PhaseTransitions
  intro i s t h
  rcases exec_cases h with ⟨ha, a, d, he, rfl⟩ | ⟨tr, rfl, _⟩
  · have hl : legalIn i s.arch.phase = true := (admission_eq_none.mp ha).2.2.1
    cases he with
    | encsum =>
      have hp : s.arch.phase = .code ∨ s.arch.phase = .done := by simpa [legalIn] using hl
      rcases hp with hp | hp <;> simp [hp]
    | build _ _ _ _ | gencode _ _ _ | encbegin | encend => right; simpa [legalIn] using hl
    | clear => right; simp [Arch.reset]
    | _ => left; rfl
  · left; simp

/-! ### The byte HOLD keeps while HALF = 0 (R21) -/

theorem SameButIdleHold.refl (a : Arch) : SameButIdleHold a a := ⟨rfl, fun _ => rfl⟩

/-- States that differ at most in an idle HOLD are equal, or HALF = 0 and HOLD alone differs. -/
theorem sameButIdleHold_iff {a b : Arch} :
    SameButIdleHold a b ↔ b = a ∨ (a.half = false ∧ ∃ h, b = { a with hold := h }) := by
  constructor
  · rintro ⟨hab, hh⟩
    have hb : b = { a with hold := b.hold } :=
      calc b = { ({ b with hold := 0 } : Arch) with hold := b.hold } := rfl
        _ = { a with hold := b.hold } := by rw [← hab]
    rcases Bool.eq_false_or_eq_true a.half with ha | ha
    · exact .inl (by rw [hb, ← hh ha])
    · exact .inr ⟨ha, b.hold, hb⟩
  · rintro (rfl | ⟨ha, h, rfl⟩)
    · exact .refl b
    · exact ⟨rfl, fun ht => absurd (ha.symm.trans ht) (by decide)⟩

section IdleHold

variable {a a' : Arch} {i : Instr}

theorem admission_with_hold (h : Byte) : admission i { a with hold := h } = admission i a := by
  cases i <;> rfl

theorem writeCodes_with_hold (cs : List (Sym × List Bool)) (a : Arch) (h : Byte) :
    writeCodes cs { a with hold := h } = { writeCodes cs a with hold := h } := by
  induction cs generalizing a with
  | nil => rfl
  | cons c cs ih => exact ih (a.setCode c.1 (BitVec.ofNat 7 c.2.length) (pack c.2))

theorem recordFault_with_hold (tr : Trap) (a : Arch) (h : Byte) :
    Arch.recordFault tr { a with hold := h } = { a.recordFault tr with hold := h } := by
  unfold Arch.recordFault
  split <;> rfl

theorem sameButIdleHold_of_idle {a b : Arch} (hab : { a with hold := 0 } = { b with hold := 0 })
    (ha : a.half = false) : SameButIdleHold a b := ⟨hab, fun ht => absurd (ha.symm.trans ht) (by decide)⟩

/-- With HALF = 0 a command executes whatever byte HOLD keeps, with the same answer. -/
theorem Executes.idleHold {d : Data} (he : Executes a i a' d) (hh : a.half = false) (h : Byte) :
    ∃ b', Executes { a with hold := h } i b' d ∧ SameButIdleHold a' b' := by
  cases he with
  | clear => exact ⟨_, .clear, .refl _⟩
  | cntbFirst b _ => exact ⟨_, .cntbFirst b hh, .refl _⟩
  | encbFirst b _ => exact ⟨_, .encbFirst b hh, .refl _⟩
  | cntbSecond b ht _ => exact absurd (hh.symm.trans ht) (by decide)
  | encbSecond b ht _ _ => exact absurd (hh.symm.trans ht) (by decide)
  | cnth sym hn => exact ⟨_, .cnth sym hn, sameButIdleHold_of_idle rfl hh⟩
  | build r q hk hq => exact ⟨_, .build r q hk hq, sameButIdleHold_of_idle rfl rfl⟩
  | gencode cs hc hl =>
    obtain ⟨l, b, hw⟩ := writeCodes_frame cs a
    refine ⟨_, .gencode cs hc hl, ?_⟩
    rw [writeCodes_with_hold cs a h, hw]
    exact sameButIdleHold_of_idle rfl hh
  | encbegin => exact ⟨_, .encbegin, sameButIdleHold_of_idle rfl rfl⟩
  | ench sym hl hn => exact ⟨_, .ench sym hl hn, sameButIdleHold_of_idle rfl hh⟩
  | encend => exact ⟨_, .encend, sameButIdleHold_of_idle rfl rfl⟩
  | encsum => exact ⟨_, .encsum, sameButIdleHold_of_idle rfl hh⟩
  | rdreg reg _ hv => exact ⟨_, .rdreg reg d hv, sameButIdleHold_of_idle rfl hh⟩
  | rdfreq sym => exact ⟨_, .rdfreq sym, sameButIdleHold_of_idle rfl hh⟩
  | rdclen sym => exact ⟨_, .rdclen sym, sameButIdleHold_of_idle rfl hh⟩
  | rdcode sym => exact ⟨_, .rdcode sym, sameButIdleHold_of_idle rfl hh⟩
  | rdnw n => exact ⟨_, .rdnw n, sameButIdleHold_of_idle rfl hh⟩
  | rdnc n => exact ⟨_, .rdnc n, sameButIdleHold_of_idle rfl hh⟩

/-- With HALF = 0 a command raises the same fault whatever byte HOLD keeps. -/
theorem Traps.idleHold {tr : Trap} (ht : Traps a i tr) (hh : a.half = false) (h : Byte) :
    Traps { a with hold := h } i tr := by
  cases ht with
  | srcerr => exact .srcerr
  | emptyInput hk => exact .emptyInput hk
  | codeOverflow cs hc hl => exact .codeOverflow cs hc hl
  | cntbOverflow b ht _ => exact absurd (hh.symm.trans ht) (by decide)
  | encbLookup b ht _ => exact absurd (hh.symm.trans ht) (by decide)
  | encbOverflow b ht _ _ => exact absurd (hh.symm.trans ht) (by decide)
  | cnthOverflow sym hn => exact .cnthOverflow sym hn
  | enchLookup sym hl => exact .enchLookup sym hl
  | enchOverflow sym hl hn => exact .enchOverflow sym hl hn
  | rdreg reg hv => exact .rdreg reg hv

theorem SameButIdleHold.admission_eq {b : Arch} (h : SameButIdleHold a b) : admission i b = admission i a := by
  rcases sameButIdleHold_iff.mp h with rfl | ⟨_, byte, rfl⟩
  · rfl
  · exact admission_with_hold byte

theorem SameButIdleHold.recordFault {b : Arch} (h : SameButIdleHold a b) (tr : Trap) :
    SameButIdleHold (a.recordFault tr) (b.recordFault tr) := by
  rcases sameButIdleHold_iff.mp h with rfl | ⟨hh, byte, rfl⟩
  · exact .refl _
  · rw [recordFault_with_hold tr a byte]
    exact sameButIdleHold_of_idle rfl (by simpa using hh)

theorem Executes.of_sameButIdleHold {b : Arch} {d : Data} (he : Executes a i a' d) (h : SameButIdleHold a b) :
    ∃ b', Executes b i b' d ∧ SameButIdleHold a' b' := by
  rcases sameButIdleHold_iff.mp h with rfl | ⟨hh, byte, rfl⟩
  · exact ⟨a', he, .refl a'⟩
  · exact he.idleHold hh byte

theorem Traps.of_sameButIdleHold {b : Arch} {tr : Trap} (ht : Traps a i tr) (h : SameButIdleHold a b) :
    Traps b i tr := by
  rcases sameButIdleHold_iff.mp h with rfl | ⟨hh, byte, rfl⟩
  · exact ht
  · exact ht.idleHold hh byte

end IdleHold

/-- Settles O11: admission does not read HOLD, and execution and faults read it with HALF = 1 only. -/
theorem idleHoldIsUnobservable : Obligations.IdleHoldIsUnobservable := by
  unfold Obligations.IdleHoldIsUnobservable
  intro i s s' t hs h
  have hadm : admission i s'.arch = admission i s.arch := hs.admission_eq
  rcases exec_cases h with ⟨ha, a, d, he, rfl⟩ | ⟨tr, rfl, hc⟩
  · obtain ⟨b, he', hab⟩ := he.of_sameButIdleHold hs
    exact ⟨_, exec_of_executes (hadm.trans ha) he', hab, rfl, rfl⟩
  · refine ⟨State.raiseFault tr s', ?_, hs.recordFault tr, rfl, rfl⟩
    rcases hc with ⟨c, hc, rfl⟩ | ⟨ha, ht⟩
    · exact exec_of_refused (hadm.trans hc)
    · exact exec_of_traps (hadm.trans ha) (ht.of_sameButIdleHold hs)

end Sys2Proof.Machine
end

section
/-! PROOF. The listed entries of a canonical memory: their indices rise, a write exchanges at most one of them, and so
counting one more symbol adds one to their sum (spec/10_state.md R40 items 1 and 2). -/

namespace Sys2Proof.Machine

section Entries

variable {α : Type} [DecidableEq α] {z : α} {m : Memory α} {i : Nat} {v : α} {lo b : Nat}

theorem wfFrom_sorted (h : Memory.wfFrom z b lo m = true) : m.Pairwise fun x y => x.1 < y.1 := by
  induction m generalizing lo with
  | nil => exact .nil
  | cons e m ih =>
    obtain ⟨k, w⟩ := e
    simp only [Memory.wfFrom, Bool.and_eq_true, decide_eq_true_eq] at h
    exact List.pairwise_cons.mpr ⟨fun x hx => (wfFrom_mem h.2 x hx).1, ih h.2⟩

theorem wfFrom_nodup (h : Memory.wfFrom z b lo m = true) : m.Nodup :=
  (wfFrom_sorted h).imp fun hlt he => absurd hlt (by simp [he])

theorem length_le_of_wfFrom (h : Memory.wfFrom z b lo m = true) : m.length ≤ b - lo := by
  induction m generalizing lo with
  | nil => exact Nat.zero_le _
  | cons e m ih =>
    obtain ⟨k, w⟩ := e
    simp only [Memory.wfFrom, Bool.and_eq_true, decide_eq_true_eq] at h
    obtain ⟨⟨⟨hlo, hb⟩, -⟩, hm⟩ := h
    have := ih hm
    rw [List.length_cons]
    omega

omit [DecidableEq α] in
theorem insert_perm (i : Nat) (v : α) (m : Memory α) : (Memory.insert i v m).Perm ((i, v) :: m) := by
  induction m with
  | nil => exact .refl _
  | cons e m ih =>
    rw [Memory.insert]
    split
    · exact .refl _
    · exact (ih.cons e).trans (.swap _ _ _)

/-- Writing an index that is not listed lists it. -/
theorem write_perm_of_read_eq (h : Memory.wf z b m = true) (hr : Memory.read z m i = z) (hv : v ≠ z) :
    (Memory.write z m i v).Perm ((i, v) :: m) := by
  have hm : m.filter (fun e => e.1 ≠ i) = m := by
    refine List.filter_eq_self.mpr fun e he => decide_eq_true fun hi => ?_
    have := read_of_mem h he
    exact (wfFrom_mem h e he).2.2 (by rw [← this, hi, hr])
  rw [Memory.write, if_neg hv, hm]
  exact insert_perm i v m

/-- Writing a listed index exchanges its entry; the other entries are the same. -/
theorem write_perm_of_read_ne (h : Memory.wf z b m = true) (hr : Memory.read z m i ≠ z) (hv : v ≠ z) :
    ∃ others, m.Perm ((i, Memory.read z m i) :: others) ∧ (Memory.write z m i v).Perm ((i, v) :: others) := by
  refine ⟨m.filter fun e => e.1 ≠ i, ?_, ?_⟩
  · have hn : ((i, Memory.read z m i) :: m.filter fun e => e.1 ≠ i).Nodup :=
      List.nodup_cons.mpr ⟨by simp, (wfFrom_nodup h).filter _⟩
    refine (List.perm_ext_iff_of_nodup (wfFrom_nodup h) hn).mpr fun e => ?_
    by_cases he : e.1 = i
    · subst he
      have hmem := mem_of_read_ne hr
      constructor
      · intro hx
        simp [read_of_mem h hx]
      · intro hx
        have he : e = (e.1, Memory.read z m e.1) := by simpa using hx
        rwa [he]
    · have : e ≠ (i, Memory.read z m i) := fun hx => he (by rw [hx])
      simp [this, he]
  · rw [Memory.write, if_neg hv]
    exact insert_perm i v _

end Entries

/-! ### Counting -/

theorem toNat_succ {w : Nat} {x : BitVec w} (h : x.toNat + 1 < 2 ^ w) : (x + 1).toNat = x.toNat + 1 := by
  have h1 : (1 : BitVec w).toNat = 1 := BitVec.toNat_one (Nat.pos_of_ne_zero fun hw => by simp [hw] at h)
  rw [BitVec.toNat_add_of_lt (by rwa [h1]), h1]

/-- The number of occurrences a histogram lists. -/
def Memory.total (m : Memory Count) : Nat := (m.map fun e => e.2.toNat).sum

@[simp] theorem total_cons (e : Nat × Count) (m : Memory Count) : Memory.total (e :: m) = e.2.toNat + m.total := by
  simp [Memory.total]

theorem total_perm {m m' : Memory Count} (h : m.Perm m') : m.total = m'.total := (h.map _).sum_eq

/-- One more occurrence of `i`, below the largest total, adds one to the total, and an entry where `i` is new. -/
theorem write_succ_counts {m : Memory Count} {b i : Nat} (h : Memory.wf 0 b m = true) (hlt : m.total + 1 < 2 ^ 32) :
    (Memory.write 0 m i (Memory.read 0 m i + 1)).total = m.total + 1 ∧
    (Memory.write 0 m i (Memory.read 0 m i + 1)).length = m.length + if Memory.read 0 m i = 0 then 1 else 0 := by
  by_cases hr : Memory.read 0 m i = 0
  · have hp := write_perm_of_read_eq (v := 1) h hr (by decide)
    rw [hr, if_pos rfl, show (0 : Count) + 1 = 1 from rfl, total_perm hp, total_cons]
    exact ⟨Nat.add_comm _ _, hp.length_eq⟩
  · have hle : (Memory.read 0 m i).toNat ≤ m.total :=
      List.le_sum_of_mem (List.mem_map_of_mem (f := fun e => e.2.toNat) (mem_of_read_ne hr))
    have hs : (Memory.read 0 m i + 1).toNat = (Memory.read 0 m i).toNat + 1 := toNat_succ (by omega)
    have hv : Memory.read 0 m i + 1 ≠ 0 := fun h0 => by
      rw [h0] at hs
      exact Nat.succ_ne_zero _ hs.symm
    obtain ⟨others, ho, hp⟩ := write_perm_of_read_ne h hr hv
    rw [if_neg hr, total_perm hp, total_perm ho, hp.length_eq, ho.length_eq, total_cons, total_cons]
    refine ⟨?_, rfl⟩
    calc (Memory.read 0 m i + 1).toNat + Memory.total others
        = (Memory.read 0 m i).toNat + 1 + Memory.total others := by rw [hs]
      _ = (Memory.read 0 m i).toNat + Memory.total others + 1 := by omega

end Sys2Proof.Machine
end

section
/-! PROOF. Every step keeps the bookkeeping invariant (spec/10_state.md R31, R40 items 1 to 4). -/

namespace Sys2Proof.Machine

/-! ### BUILD keeps the arena canonical -/

theorem create_wf {b : Builder} (x : Node) (pq : List QEntry) (h : Memory.wf Node.zero Config.maxNodes b.node = true)
    (hn : b.next < Config.maxNodes) : Memory.wf Node.zero Config.maxNodes (b.create x pq).node = true := wf_write h hn

theorem addLeaves_wf (freq : Memory Count) {b : Builder} (h : Memory.wf Node.zero Config.maxNodes b.node = true)
    (hn : b.next + freq.length ≤ Config.maxNodes) :
    Memory.wf Node.zero Config.maxNodes (freq.foldl Builder.addLeaf b).node = true := by
  induction freq generalizing b with
  | nil => exact h
  | cons e freq ih =>
    rw [List.length_cons] at hn
    exact ih (b := b.addLeaf e) (create_wf _ _ h (by omega)) (by simp only [Builder.addLeaf, create_next]; omega)

theorem mergeTimes_wf (n : Nat) {b : Builder} (h : Memory.wf Node.zero Config.maxNodes b.node = true)
    (hn : b.next + n ≤ Config.maxNodes) : Memory.wf Node.zero Config.maxNodes (Builder.mergeTimes n b).node = true := by
  induction n generalizing b with
  | zero => exact h
  | succ n ih =>
    rw [Builder.mergeTimes]
    match hq : b.pq with
    | [] | [_] =>
      rw [mergeStep_of_one (by simp [hq])]
      exact ih h (by omega)
    | x :: y :: rest =>
      rw [mergeStep_of_two hq]
      exact ih (create_wf _ _ h (by omega)) (by rw [create_next]; omega)

theorem buildTree_wf {node : Memory Node} {freq : Memory Count} (h : Memory.wf Node.zero Config.maxNodes node = true)
    (hf : freq.length ≤ Config.numSymbols) : Memory.wf Node.zero Config.maxNodes (buildTree node freq).node = true := by
  have hl := addLeaves_counts freq ⟨node, [], 0⟩
  simp only [List.length_nil, Nat.zero_add] at hl
  have hf : freq.length ≤ 65536 := hf
  have hm : Config.maxNodes = 131071 := rfl
  refine mergeTimes_wf _ (addLeaves_wf freq h ?_) ?_ <;> simp only [hl, Nat.zero_add, hm] <;> omega

/-! ### The executions -/

section Bookkeeping

variable {a : Arch}

theorem Bookkeeping.freq_length_le (h : Bookkeeping a) : a.freq.length ≤ 65536 :=
  length_le_of_wfFrom h.memories.freq

theorem Bookkeeping.freq_ne_nil (h : Bookkeeping a) (hk : a.kdist ≠ 0) : a.freq ≠ [] := fun hf =>
  hk (BitVec.eq_of_toNat_eq (by rw [h.kdist, hf]; rfl))

/-- A byte may be held in the phases of the two passes. -/
theorem Bookkeeping.held (h : Bookkeeping a) (hp : a.phase = .count ∨ a.phase = .enc) (b : Byte) :
    Bookkeeping { a with hold := b, half := true } where
  memories := ⟨h.memories.freq, h.memories.clen, h.memories.cbits, h.memories.node⟩
  record := h.record
  nsym := h.nsym
  kdist := h.kdist
  half _ := hp
  noTree := h.noTree
  noCode := h.noCode
  noTotals := h.noTotals

theorem Bookkeeping.accepted (h : Bookkeeping a) : Bookkeeping { a with half := false } where
  memories := ⟨h.memories.freq, h.memories.clen, h.memories.cbits, h.memories.node⟩
  record := h.record
  nsym := h.nsym
  kdist := h.kdist
  half := nofun
  noTree := h.noTree
  noCode := h.noCode
  noTotals := h.noTotals

/-- One more symbol in pass 1 (R111): NSYM is the sum of FREQ and KDIST the number of its entries as before. -/
theorem Bookkeeping.counted (h : Bookkeeping a) (hn : a.nsym.toNat ≠ Config.cntMax) (sym : Sym) :
    Bookkeeping (counted sym a) := by
  have hlt := a.nsym.isLt
  have hmax : Config.cntMax = 2 ^ 32 - 1 := rfl
  have hnsym : a.nsym.toNat = a.freq.total := h.nsym
  have hkdist := h.kdist
  have hlen := h.freq_length_le
  obtain ⟨htotal, hlength⟩ := write_succ_counts (i := sym.toNat) h.memories.freq (by omega)
  exact {
    memories := ⟨wf_write h.memories.freq sym.isLt, h.memories.clen, h.memories.cbits, h.memories.node⟩
    record := h.record
    nsym := by
      have : (a.nsym + 1).toNat = a.nsym.toNat + 1 := toNat_succ (by omega)
      exact (this.trans (by rw [hnsym])).trans htotal.symm
    kdist := by
      refine Eq.trans ?_ hlength.symm
      change (if Memory.read 0 a.freq sym.toNat = 0 then a.kdist + 1 else a.kdist).toNat = _
      split
      · rw [toNat_succ (by omega), hkdist]
      · exact hkdist
    half := h.half
    noTree := h.noTree
    noCode := h.noCode
    noTotals := h.noTotals }

/-- From phase CODE on a command that writes the totals, HALF and PHASE ENC or DONE, with HALF = 1 in ENC only. -/
theorem Bookkeeping.pass (h : Bookkeeping a) {p : Phase} (hp : p = .enc ∨ p = .done) (half : Bool)
    (hh : half = true → p = .enc) (nenc : Count) (encbits : Data) :
    Bookkeeping { a with half := half, nenc := nenc, encbits := encbits, phase := p } where
  memories := ⟨h.memories.freq, h.memories.clen, h.memories.cbits, h.memories.node⟩
  record := h.record
  nsym := h.nsym
  kdist := h.kdist
  half ht := .inr (hh ht)
  noTree hc := by rcases hp with rfl | rfl <;> simp at hc
  noCode hc := by rcases hp with rfl | rfl <;> simp at hc
  noTotals hc := by rcases hp with rfl | rfl <;> simp at hc

theorem Bookkeeping.build (h : Bookkeeping a) (hp : a.phase = .count) (nnode : BitVec 17) (root : Handle) :
    Bookkeeping { a with
      half := false, node := (buildTree a.node a.freq).node, nnode := nnode, root := root, phase := .tree } where
  memories := ⟨h.memories.freq, h.memories.clen, h.memories.cbits, buildTree_wf h.memories.node h.freq_length_le⟩
  record := h.record
  nsym := h.nsym
  kdist := h.kdist
  half := nofun
  noTree := nofun
  noCode _ := h.noCode (.inl hp)
  noTotals _ := h.noTotals (.inl hp)

theorem Bookkeeping.gencode (h : Bookkeeping a) (hp : a.phase = .tree) (cs : List (Sym × List Bool))
    (maxlen : CodeLen) : Bookkeeping { writeCodes cs a with maxlen := maxlen, phase := .code } := by
  obtain ⟨hclen, hcbits⟩ := writeCodes_wf (cs := cs) h.memories.clen h.memories.cbits
  obtain ⟨l, b, hw⟩ := writeCodes_frame cs a
  rw [hw] at hclen hcbits ⊢
  exact {
    memories := ⟨h.memories.freq, hclen, hcbits, h.memories.node⟩
    record := h.record
    nsym := h.nsym
    kdist := h.kdist
    half := fun ht => by simpa [hp] using h.half ht
    noTree := nofun
    noCode := fun hc => by simp at hc
    noTotals := fun _ => h.noTotals (.inr (.inl hp)) }

/-- A first fault writes the fault record, with a cause of 2 to 10 (R231, R233). -/
theorem Bookkeeping.recorded (h : Bookkeeping a) {c : Cause} (hc : c ≠ .faulted) (info : BitVec 32) :
    Bookkeeping { a with fault := true, fcause := c.code, finfo := info } where
  memories := ⟨h.memories.freq, h.memories.clen, h.memories.cbits, h.memories.node⟩
  record := ⟨Cause.two_le_code hc, c.code_le⟩
  nsym := h.nsym
  kdist := h.kdist
  half := h.half
  noTree := h.noTree
  noCode := h.noCode
  noTotals := h.noTotals

theorem Executes.keeps_bookkeeping {i : Instr} {a' : Arch} {d : Data} (he : Executes a i a' d)
    (ha : admission i a = none) (h : Bookkeeping a) : Bookkeeping a' := by
  obtain ⟨-, -, hl, -⟩ := admission_eq_none.mp ha
  cases he with
  | clear => exact bookkeeping_reset
  | cntbFirst b hh => exact h.held (.inl (by simpa [legalIn] using hl)) b
  | cntbSecond b hh hn => exact (h.counted hn _).accepted
  | cnth sym hn => exact h.counted hn sym
  | build r q hk hq => exact h.build (by simpa [legalIn] using hl) _ _
  | gencode cs hc hlen => exact h.gencode (by simpa [legalIn] using hl) cs _
  | encbegin => exact h.pass (.inl rfl) false nofun 0 0
  | encbFirst b hh => exact h.held (.inr (by simpa [legalIn] using hl)) b
  | encbSecond b hh hc hn =>
    have hp : a.phase = .enc := by simpa [legalIn] using hl
    exact h.pass (.inl hp) false nofun _ _
  | ench sym hc hn =>
    have hp : a.phase = .enc := by simpa [legalIn] using hl
    exact h.pass (.inl hp) a.half (fun _ => hp) _ _
  | encend => exact h.pass (.inr rfl) false nofun _ _
  | encsum =>
    have hp : a.phase = .code ∨ a.phase = .done := by simpa [legalIn] using hl
    have hh : a.half ≠ true := fun ht => by
      rcases hp with hp | hp <;> rcases h.half ht with hp' | hp' <;> exact absurd (hp.symm.trans hp') (by decide)
    exact h.pass (.inr rfl) a.half (fun ht => absurd ht hh) _ _
  | rdreg | rdfreq | rdclen | rdcode | rdnw | rdnc => exact h

end Bookkeeping

/-- Settles O57: reset, a first fault and every way to execute keep the bookkeeping. -/
theorem stepKeepsBookkeeping : Obligations.StepKeepsBookkeeping := by
  unfold Obligations.StepKeepsBookkeeping
  intro s t hs h
  exact step_keeps bookkeeping_reset (fun a c info ha _ hc => ha.recorded hc info)
    (fun i a a' d ha hadm he => he.keeps_bookkeeping hadm ha) hs h

end Sys2Proof.Machine
end

section
/-! PROOF. What BUILD's loops keep (spec/41_tree_builder.md R130 to R134): the queue holds the roots of a forest over
the leaves, each merge step joins the two least of them, and so the arena left with one root is the tree of `TreeOk`. -/

namespace Sys2Proof.Machine

/-! ### The arena of a builder -/

/-- The node at a handle. -/
def Builder.at (b : Builder) (i : Nat) : Node := Memory.read Node.zero b.node i

/-- The queue's member for a handle. -/
def Builder.entry (b : Builder) (i : Nat) : QEntry := ⟨(b.at i).wt, i⟩

/-- The order of the arena is the order of the queue's members (R131). -/
theorem arenaBefore_iff {a : Arch} {b : Builder} (h : a.node = b.node) (i j : Nat) :
    ArenaBefore a i j ↔ (b.entry i).before (b.entry j) = true := by
  rw [before_iff, ArenaBefore, Arch.nodeAt, Arch.nodeAt, h]
  rfl

section Create

variable {b : Builder} {x : Node} {pq : List QEntry} {i : Nat}

theorem create_at_next : (b.create x pq).at b.next = x := read_write_self

theorem create_at_of_lt (h : i < b.next) : (b.create x pq).at i = b.at i := read_write_ne (by omega)

theorem create_at_of_gt (h : b.next < i) : (b.create x pq).at i = b.at i := read_write_ne (by omega)

theorem create_entry_next : (b.create x pq).entry b.next = ⟨x.wt, b.next⟩ := by
  rw [Builder.entry, create_at_next]

theorem create_entry_of_lt (h : i < b.next) : (b.create x pq).entry i = b.entry i := by
  rw [Builder.entry, create_at_of_lt h, Builder.entry]

end Create

/-! ### The queue -/

/-- The queue is in the order of R131 and its members are handles in use with their nodes' weights, the newest node's
among them; handles not in use hold the reset value. -/
structure QueueOk (b : Builder) : Prop where
  ordered : Ordered b.pq
  member  : ∀ e ∈ b.pq, e.handle < b.next ∧ b.entry e.handle = e
  newest  : 0 < b.next → b.entry (b.next - 1) ∈ b.pq
  unused  : ∀ i, b.next ≤ i → b.at i = Node.zero

/-- Creating a node keeps the queue, whatever members were extracted before (R130, R133). -/
theorem QueueOk.create {b : Builder} (h : QueueOk b) (x : Node) {pq : List QEntry} (hs : pq.Sublist b.pq) :
    QueueOk (b.create x pq) where
  ordered := enqueue_ordered (h.ordered.sublist hs) fun e he => (h.member e (hs.mem he)).1.ne
  member e he := by
    rw [create_next]
    rcases mem_enqueue.mp he with rfl | he
    · exact ⟨Nat.lt_succ_self _, create_entry_next⟩
    · obtain ⟨hlt, heq⟩ := h.member e (hs.mem he)
      exact ⟨Nat.lt_succ_of_lt hlt, (create_entry_of_lt hlt).trans heq⟩
  newest _ := by
    rw [create_next, Nat.add_sub_cancel, create_entry_next]
    exact mem_enqueue.mpr (.inl rfl)
  unused i hi := by
    rw [create_next] at hi
    rw [create_at_of_gt hi]
    exact h.unused i (by omega)

/-- The summed weight of a queue. -/
def queueWeight (q : List QEntry) : Nat := (q.map fun e => e.wt.toNat).sum

theorem queueWeight_enqueue (e : QEntry) (q : List QEntry) :
    queueWeight (enqueue e q) = e.wt.toNat + queueWeight q := by
  rw [queueWeight, ((enqueue_perm e q).map _).sum_eq, List.map_cons, List.sum_cons, queueWeight]

/-! ### The leaves -/

/-- After leaf creation for the entries `l`: handle `i` is the leaf of the `i`-th entry, and all are queued (R130). -/
structure Leaves (l : Memory Count) (b : Builder) : Prop where
  queue  : QueueOk b
  next   : b.next = l.length
  leaf   : ∀ i < l.length, ∃ e, l[i]? = some e ∧ b.at i = ⟨true, e.2, BitVec.ofNat 16 e.1, 0, 0⟩
  queued : ∀ i < l.length, b.entry i ∈ b.pq
  weight : queueWeight b.pq = l.total

theorem Leaves.addLeaf {l : Memory Count} {b : Builder} (h : Leaves l b) (e : Nat × Count) :
    Leaves (l ++ [e]) (b.addLeaf e) where
  queue := h.queue.create _ (.refl _)
  next := by simp [Builder.addLeaf, h.next]
  leaf i hi := by
    rw [List.length_append, List.length_singleton] at hi
    rcases Nat.lt_succ_iff_lt_or_eq.mp hi with hi | rfl
    · rw [List.getElem?_append_left hi, Builder.addLeaf, create_at_of_lt (h.next ▸ hi)]
      exact h.leaf i hi
    · exact ⟨e, by simp, by rw [← h.next]; exact create_at_next⟩
  queued i hi := by
    rw [List.length_append, List.length_singleton] at hi
    rcases Nat.lt_succ_iff_lt_or_eq.mp hi with hi | rfl
    · rw [Builder.addLeaf, create_entry_of_lt (h.next ▸ hi)]
      exact mem_enqueue.mpr (.inr (h.queued i hi))
    · rw [← h.next, Builder.addLeaf, create_entry_next]
      exact mem_enqueue.mpr (.inl rfl)
  weight := by
    rw [Builder.addLeaf, create_pq, queueWeight_enqueue, h.weight]
    simp [Memory.total, Nat.add_comm]

theorem leaves_nil : Leaves [] ⟨[], [], 0⟩ where
  queue := ⟨.nil, nofun, nofun, fun _ _ => rfl⟩
  next := rfl
  leaf := nofun
  queued := nofun
  weight := rfl

theorem leaves_foldl (freq : Memory Count) {l : Memory Count} {b : Builder} (h : Leaves l b) :
    Leaves (l ++ freq) (freq.foldl Builder.addLeaf b) := by
  induction freq generalizing l b with
  | nil => rwa [List.append_nil]
  | cons e freq ih => simpa using ih (h.addLeaf e)

/-! ### The merge steps -/

/-- Node `p` joins two older nodes, the left one extracted first, with the sum of their weights (R133). -/
structure Joins (b : Builder) (p : Nat) : Prop where
  leaf   : (b.at p).leaf = false
  sym    : (b.at p).sym = 0
  left   : (b.at p).left.toNat < p
  right  : (b.at p).right.toNat < p
  wt     : (b.at p).wt.toNat = (b.at (b.at p).left.toNat).wt.toNat + (b.at (b.at p).right.toNat).wt.toNat
  before : (b.entry (b.at p).left.toNat).before (b.entry (b.at p).right.toNat) = true

/-- `i` is a child of the node `p`. -/
def Builder.Child (b : Builder) (p i : Nat) : Prop := (b.at p).left.toNat = i ∨ (b.at p).right.toNat = i

/-- After some merge steps over the leaves of `l`: handles from `l.length` join older nodes, those not queued have one
parent, those queued have none, and nothing extracted should have been extracted later (R131 to R134). -/
structure Forest (l : Memory Count) (b : Builder) : Prop where
  queue     : QueueOk b
  le        : l.length ≤ b.next
  leaf      : ∀ i < l.length, ∃ e, l[i]? = some e ∧ b.at i = ⟨true, e.2, BitVec.ofNat 16 e.1, 0, 0⟩
  joins     : ∀ p, l.length ≤ p → p < b.next → Joins b p
  extracted : ∀ p, l.length ≤ p → p + 1 < b.next →
    (b.entry (b.at p).right.toNat).before (b.entry (b.at (p + 1)).left.toNat) = true
  latest    : ∀ p, l.length ≤ p → p + 1 = b.next → ∀ e ∈ b.pq, (b.entry (b.at p).right.toNat).before e = true
  orphan    : ∀ e ∈ b.pq, ∀ p, l.length ≤ p → p < b.next → ¬ b.Child p e.handle
  parent    : ∀ i < b.next, b.entry i ∉ b.pq → ∃! p, l.length ≤ p ∧ p < b.next ∧ b.Child p i
  weight    : queueWeight b.pq = l.total

theorem Leaves.forest {l : Memory Count} {b : Builder} (h : Leaves l b) : Forest l b where
  queue := h.queue
  le := h.next.ge
  leaf := h.leaf
  joins p hp hp' := by have := h.next; omega
  extracted p hp hp' := by have := h.next; omega
  latest p hp hp' := by have := h.next; omega
  orphan e _ p hp hp' := by have := h.next; omega
  parent i hi hn := absurd (h.queued i (h.next ▸ hi)) hn
  weight := h.weight

section Merge

variable {l : Memory Count} {b : Builder} {x y : QEntry} {rest : List QEntry}

/-- The node that a merge step creates from the two members extracted (R133). -/
def mergeNode (x y : QEntry) : Node :=
  ⟨false, x.wt + y.wt, 0, BitVec.ofNat 17 x.handle, BitVec.ofNat 17 y.handle⟩

theorem handle_toNat {i n : Nat} (h : i < n) (hn : n < Config.maxNodes) : (BitVec.ofNat 17 i).toNat = i := by
  have hm : Config.maxNodes = 131071 := rfl
  rw [BitVec.toNat_ofNat, Nat.mod_eq_of_lt]
  omega

/-- Members of the queue with one handle are one member. -/
theorem QueueOk.eq_of_handle {e f : QEntry} (h : QueueOk b) (he : e ∈ b.pq) (hf : f ∈ b.pq)
    (hh : e.handle = f.handle) : e = f := by
  rw [← (h.member e he).2, ← (h.member f hf).2, hh]

theorem Joins.create {n : Node} {pq : List QEntry} {p : Nat} (h : Joins b p) (hp : p < b.next) :
    Joins (b.create n pq) p where
  leaf := by rw [create_at_of_lt hp]; exact h.leaf
  sym := by rw [create_at_of_lt hp]; exact h.sym
  left := by rw [create_at_of_lt hp]; exact h.left
  right := by rw [create_at_of_lt hp]; exact h.right
  wt := by
    rw [create_at_of_lt hp, create_at_of_lt (h.left.trans hp), create_at_of_lt (h.right.trans hp)]
    exact h.wt
  before := by
    rw [create_at_of_lt hp, create_entry_of_lt (h.left.trans hp), create_entry_of_lt (h.right.trans hp)]
    exact h.before

/-- The facts about the two members extracted and the node they make. -/
structure Extracts (b : Builder) (x y : QEntry) (rest : List QEntry) : Prop where
  pq     : b.pq = x :: y :: rest
  xlt    : x.handle < b.next
  ylt    : y.handle < b.next
  xentry : b.entry x.handle = x
  yentry : b.entry y.handle = y
  left   : (mergeNode x y).left.toNat = x.handle
  right  : (mergeNode x y).right.toNat = y.handle
  before : x.before y = true
  least  : ∀ e ∈ rest, y.before e = true

theorem QueueOk.extracts (h : QueueOk b) (hq : b.pq = x :: y :: rest) (hn : b.next < Config.maxNodes) :
    Extracts b x y rest := by
  obtain ⟨hxn, hxe⟩ := h.member x (by simp [hq])
  obtain ⟨hyn, hye⟩ := h.member y (by simp [hq])
  have hord := h.ordered
  rw [hq, Ordered, List.pairwise_cons, List.pairwise_cons] at hord
  obtain ⟨hx, hy, -⟩ := hord
  exact ⟨hq, hxn, hyn, hxe, hye, handle_toNat hxn hn, handle_toNat hyn hn, hx y (by simp), hy⟩

theorem Extracts.mem_pq (hx : Extracts b x y rest) {e : QEntry} : e ∈ b.pq ↔ e = x ∨ e = y ∨ e ∈ rest := by
  rw [hx.pq, List.mem_cons, List.mem_cons]

theorem Extracts.child_next (hx : Extracts b x y rest) {i : Nat} :
    (b.create (mergeNode x y) rest).Child b.next i ↔ x.handle = i ∨ y.handle = i := by
  rw [Builder.Child, create_at_next, hx.left, hx.right]

/-- A member left in the queue is neither of the two extracted. -/
theorem Extracts.handle_ne (hx : Extracts b x y rest) (h : QueueOk b) {e : QEntry} (he : e ∈ rest) :
    e.handle ≠ x.handle ∧ e.handle ≠ y.handle := by
  have hmem : e ∈ b.pq := hx.mem_pq.mpr (.inr (.inr he))
  have hlt := hx.least e he
  constructor <;> intro hh
  · rw [h.eq_of_handle hmem (hx.mem_pq.mpr (.inl rfl)) hh] at hlt
    exact absurd (before_trans hlt hx.before) (by rw [before_irrefl]; decide)
  · rw [h.eq_of_handle hmem (hx.mem_pq.mpr (.inr (.inl rfl))) hh] at hlt
    exact absurd hlt (by rw [before_irrefl]; decide)

theorem child_create {n : Node} {pq : List QEntry} {p i : Nat} (hp : p < b.next) :
    (b.create n pq).Child p i ↔ b.Child p i := by
  rw [Builder.Child, create_at_of_lt hp, Builder.Child]

/-- The weight of the queue is the total, so the weight of the new node does not wrap (R12). -/
theorem Extracts.wt_toNat (hx : Extracts b x y rest) (h : Forest l b) (hw : l.total < 2 ^ 32) :
    (x.wt + y.wt).toNat = x.wt.toNat + y.wt.toNat ∧
    x.wt.toNat + y.wt.toNat + queueWeight rest = l.total := by
  have hsum : x.wt.toNat + y.wt.toNat + queueWeight rest = l.total := by
    rw [← h.weight, hx.pq]
    simp [queueWeight, Nat.add_assoc]
  exact ⟨BitVec.toNat_add_of_lt (by omega), hsum⟩

theorem Extracts.joins (hx : Extracts b x y rest) (hwt : (x.wt + y.wt).toNat = x.wt.toNat + y.wt.toNat) :
    Joins (b.create (mergeNode x y) rest) b.next where
  leaf := by rw [create_at_next]; rfl
  sym := by rw [create_at_next]; rfl
  left := by rw [create_at_next, hx.left]; exact hx.xlt
  right := by rw [create_at_next, hx.right]; exact hx.ylt
  wt := by
    have hxw : (b.at x.handle).wt = x.wt := congrArg QEntry.wt hx.xentry
    have hyw : (b.at y.handle).wt = y.wt := congrArg QEntry.wt hx.yentry
    rw [create_at_next, hx.left, hx.right, create_at_of_lt hx.xlt, create_at_of_lt hx.ylt, hxw, hyw]
    exact hwt
  before := by
    rw [create_at_next, hx.left, hx.right, create_entry_of_lt hx.xlt, create_entry_of_lt hx.ylt, hx.xentry, hx.yentry]
    exact hx.before

theorem Extracts.extracted (hx : Extracts b x y rest) (h : Forest l b) {p : Nat} (hp : l.length ≤ p)
    (hp' : p + 1 < b.next + 1) :
    ((b.create (mergeNode x y) rest).entry ((b.create (mergeNode x y) rest).at p).right.toNat).before
      ((b.create (mergeNode x y) rest).entry ((b.create (mergeNode x y) rest).at (p + 1)).left.toNat) = true := by
  have hpn : p < b.next := Nat.lt_of_succ_lt_succ hp'
  rw [create_at_of_lt hpn, create_entry_of_lt ((h.joins p hp hpn).right.trans hpn)]
  rcases Nat.lt_succ_iff_lt_or_eq.mp hp' with hlt | heq
  · rw [create_at_of_lt hlt, create_entry_of_lt ((h.joins _ (by omega) hlt).left.trans hlt)]
    exact h.extracted p hp hlt
  · rw [heq, create_at_next, hx.left, create_entry_of_lt hx.xlt, hx.xentry]
    exact h.latest p hp heq x (hx.mem_pq.mpr (.inl rfl))

/-- The second member extracted is before all that the queue then holds, the new node included (R131). -/
theorem Extracts.latest (hx : Extracts b x y rest) (hwt : (x.wt + y.wt).toNat = x.wt.toNat + y.wt.toNat) {e : QEntry}
    (he : e ∈ (b.create (mergeNode x y) rest).pq) :
    ((b.create (mergeNode x y) rest).entry ((b.create (mergeNode x y) rest).at b.next).right.toNat).before e =
      true := by
  have hy := hx.ylt
  rw [create_at_next, hx.right, create_entry_of_lt hy, hx.yentry]
  rcases mem_enqueue.mp he with rfl | he
  · rw [before_iff, ← BitVec.toNat_inj]
    change y.wt.toNat < (x.wt + y.wt).toNat ∨ y.wt.toNat = (x.wt + y.wt).toNat ∧ y.handle < b.next
    omega
  · exact hx.least e he

theorem Extracts.orphan (hx : Extracts b x y rest) (h : Forest l b) {e : QEntry}
    (he : e ∈ (b.create (mergeNode x y) rest).pq) {p : Nat} (hp : l.length ≤ p) (hp' : p < b.next + 1) :
    ¬ (b.create (mergeNode x y) rest).Child p e.handle := by
  have hxlt := hx.xlt
  have hylt := hx.ylt
  rcases Nat.lt_succ_iff_lt_or_eq.mp hp' with hp' | rfl
  · rw [child_create hp']
    rcases mem_enqueue.mp he with rfl | he
    · have hj := h.joins p hp hp'
      rintro (hc | hc)
      · exact absurd hc (hj.left.trans hp').ne
      · exact absurd hc (hj.right.trans hp').ne
    · exact h.orphan e (hx.mem_pq.mpr (.inr (.inr he))) p hp hp'
  · rw [hx.child_next, not_or]
    rcases mem_enqueue.mp he with rfl | he
    · exact ⟨hxlt.ne, hylt.ne⟩
    · exact ⟨(hx.handle_ne h.queue he).1.symm, (hx.handle_ne h.queue he).2.symm⟩

theorem Extracts.parent (hx : Extracts b x y rest) (h : Forest l b) {i : Nat} (hi : i < b.next + 1)
    (hn : (b.create (mergeNode x y) rest).entry i ∉ (b.create (mergeNode x y) rest).pq) :
    ∃! p, l.length ≤ p ∧ p < b.next + 1 ∧ (b.create (mergeNode x y) rest).Child p i := by
  rcases Nat.lt_succ_iff_lt_or_eq.mp hi with hi | rfl
  swap
  · exact absurd (mem_enqueue.mpr (.inl create_entry_next)) hn
  rw [create_entry_of_lt hi, create_pq, mem_enqueue, not_or] at hn
  by_cases hxy : x.handle = i ∨ y.handle = i
  · refine ⟨b.next, ⟨h.le, Nat.lt_succ_self _, hx.child_next.mpr hxy⟩, fun p ⟨hp, hp', hc⟩ => ?_⟩
    rcases Nat.lt_succ_iff_lt_or_eq.mp hp' with hp' | hp'
    · rw [child_create hp'] at hc
      rcases hxy with rfl | rfl
      · exact absurd hc (h.orphan x (hx.mem_pq.mpr (.inl rfl)) p hp hp')
      · exact absurd hc (h.orphan y (hx.mem_pq.mpr (.inr (.inl rfl))) p hp hp')
    · exact hp'
  · have hnq : b.entry i ∉ b.pq := by
      rw [hx.mem_pq]
      rintro (he | he | he)
      · exact hxy (.inl (congrArg QEntry.handle he).symm)
      · exact hxy (.inr (congrArg QEntry.handle he).symm)
      · exact hn.2 he
    obtain ⟨p, ⟨hp, hp', hc⟩, hu⟩ := h.parent i hi hnq
    refine ⟨p, ⟨hp, Nat.lt_succ_of_lt hp', (child_create hp').mpr hc⟩, fun q ⟨hq, hq', hqc⟩ => ?_⟩
    rcases Nat.lt_succ_iff_lt_or_eq.mp hq' with hq' | rfl
    · exact hu q ⟨hq, hq', (child_create hq').mp hqc⟩
    · exact absurd (hx.child_next.mp hqc) hxy

/-- One merge step keeps the forest, where the weights do not wrap and a handle is free. -/
theorem Forest.merge (h : Forest l b) (hq : b.pq = x :: y :: rest) (hn : b.next < Config.maxNodes)
    (hw : l.total < 2 ^ 32) : Forest l (b.create (mergeNode x y) rest) := by
  have hx := h.queue.extracts hq hn
  obtain ⟨hwt, hsum⟩ := hx.wt_toNat h hw
  exact {
    queue := h.queue.create _ (by rw [hq]; exact .cons _ (.cons _ (.refl _)))
    le := Nat.le_succ_of_le h.le
    leaf := fun i hi => by
      rw [create_at_of_lt (hi.trans_le h.le)]
      exact h.leaf i hi
    joins := fun p hp hp' => by
      rcases Nat.lt_succ_iff_lt_or_eq.mp hp' with hp' | rfl
      · exact (h.joins p hp hp').create hp'
      · exact hx.joins hwt
    extracted := fun p hp hp' => hx.extracted h hp hp'
    latest := fun p _ hp' e he => by
      obtain rfl : p = b.next := Nat.succ.inj hp'
      exact hx.latest hwt he
    orphan := fun e he p hp hp' => hx.orphan h he hp hp'
    parent := fun i hi hni => hx.parent h hi hni
    weight := by
      rw [create_pq, queueWeight_enqueue, ← hsum]
      exact congrArg (· + queueWeight rest) hwt }

theorem Forest.mergeTimes (n : Nat) {b : Builder} (h : Forest l b) (hn : b.next + n ≤ Config.maxNodes)
    (hw : l.total < 2 ^ 32) : Forest l (Builder.mergeTimes n b) := by
  induction n generalizing b with
  | zero => exact h
  | succ n ih =>
    rw [Builder.mergeTimes]
    match hq : b.pq with
    | [] | [_] =>
      rw [mergeStep_of_one (by simp [hq])]
      exact ih h (by omega)
    | x :: y :: rest =>
      rw [mergeStep_of_two hq]
      exact ih (h.merge hq (by omega) hw) (by rw [create_next]; omega)

end Merge

/-- BUILD's loops on an empty arena end in a forest over the entries of FREQ. -/
theorem buildTree_forest {freq : Memory Count} (hl : freq.length ≤ Config.numSymbols) (hw : freq.total < 2 ^ 32) :
    Forest freq (buildTree [] freq) := by
  have hc := addLeaves_counts freq ⟨[], [], 0⟩
  simp only [List.length_nil, Nat.zero_add] at hc
  have hm : Config.maxNodes = 131071 := rfl
  have hs : Config.numSymbols = 65536 := rfl
  refine Forest.mergeTimes _ (leaves_foldl freq leaves_nil).forest ?_ hw
  simp only [hc]
  omega

/-! ### The tree -/

/-- A forest of one root is the tree of R40 items 5 to 7. -/
theorem Forest.treeOk {l : Memory Count} {a : Arch} {b : Builder} {r : QEntry} (h : Forest l b) (hfreq : a.freq = l)
    (hq : b.pq = [r]) (hpos : a.freq ≠ []) (hnext : b.next = 2 * a.freq.length - 1)
    (hkdist : a.kdist.toNat = a.freq.length) (hnsym : a.nsym.toNat = a.freq.total) (hnode : a.node = b.node)
    (hnnode : a.nnode.toNat = b.next) (hroot : a.root.toNat = r.handle) : TreeOk a := by
  subst hfreq
  have hlen : 0 < a.freq.length := List.length_pos_iff.mpr hpos
  have hat (i : Nat) : a.nodeAt i = b.at i := by rw [Arch.nodeAt, hnode, Builder.at]
  have hr : b.entry (b.next - 1) = r := by simpa [hq] using h.queue.newest (by omega)
  have hrh : r.handle = b.next - 1 := (congrArg QEntry.handle hr).symm
  exact {
    kdist_pos := by omega
    nnode := by omega
    root := by omega
    root_wt := by
      apply BitVec.eq_of_toNat_eq
      rw [hat, hroot, hrh, hnsym, ← h.weight, hq, ← hr]
      rfl
    leaf := fun i hi => by
      rw [hat]
      exact h.leaf i (by omega)
    internal := fun p hp hp' => by
      have hj := h.joins p (by omega) (by omega)
      simp only [hat]
      exact ⟨hj.leaf, hj.sym, hj.left, hj.right, hj.wt⟩
    siblings := fun p hp hp' => by
      rw [arenaBefore_iff hnode, hat]
      exact (h.joins p (by omega) (by omega)).before
    extracted := fun p hp hp' => by
      rw [arenaBefore_iff hnode, hat, hat]
      exact h.extracted p (by omega) (by omega)
    parent := fun i hi => by
      have hni : b.entry i ∉ b.pq := by
        rw [hq, List.mem_singleton]
        intro he
        have : i = r.handle := congrArg QEntry.handle he
        omega
      simpa only [IsChildOf, hat, hkdist, hnnode, Builder.Child] using h.parent i (by omega) hni
    unused := fun i hi => by
      rw [hat]
      exact h.queue.unused i (by omega) }

section TreeInv

variable {a : Arch}

/-- BUILD makes the tree of `TreeOk` from every histogram that is not empty (R134, R135). -/
theorem TreeOk.of_build (h : Bookkeeping a) (hp : a.phase = .count) (hk : a.kdist ≠ 0) {r : QEntry} {q : List QEntry}
    (hq : (buildTree a.node a.freq).pq = r :: q) :
    TreeOk { a with
      half := false, node := (buildTree a.node a.freq).node,
      nnode := BitVec.ofNat 17 (buildTree a.node a.freq).next, root := BitVec.ofNat 17 r.handle, phase := .tree } := by
  obtain ⟨hnode, -, -⟩ := h.noTree hp
  rw [hnode] at hq ⊢
  have hlen := h.freq_length_le
  have hne := h.freq_ne_nil hk
  have hnsym : a.nsym.toNat = a.freq.total := h.nsym
  obtain ⟨hone, hnext⟩ := buildTree_counts [] hne
  have hf : Forest a.freq (buildTree [] a.freq) := buildTree_forest hlen (hnsym ▸ a.nsym.isLt)
  obtain rfl : q = [] := by simpa [hq] using hone
  have hrlt := (hf.queue.member r (by simp [hq])).1
  refine hf.treeOk rfl hq hne hnext h.kdist hnsym rfl ?_ ?_ <;> exact Nat.mod_eq_of_lt (by omega)

/-- The tree's invariant reads KDIST, NSYM, FREQ and the arena alone. -/
theorem TreeOk.congr {a' : Arch} (h : TreeOk a) (hk : a'.kdist = a.kdist) (hs : a'.nsym = a.nsym)
    (hf : a'.freq = a.freq) (hn : a'.node = a.node) (hnn : a'.nnode = a.nnode) (hr : a'.root = a.root) :
    TreeOk a' := by
  cases a
  cases a'
  subst hk hs hf hn hnn hr
  exact ⟨h.kdist_pos, h.nnode, h.root, h.root_wt, h.leaf, h.internal, h.siblings, h.extracted, h.parent, h.unused⟩

/-- An execution that ends in phase TREE or later is BUILD's, or leaves what the tree's invariant reads. -/
theorem Executes.keeps_treeOk {i : Instr} {a' : Arch} {d : Data} (he : Executes a i a' d) (ha : admission i a = none)
    (h : TreeInv a) (hp : a'.phase ≠ .count) : TreeOk a' := by
  obtain ⟨-, -, hl, -⟩ := admission_eq_none.mp ha
  cases he with
  | clear => exact absurd rfl hp
  | cntbFirst | cntbSecond | cnth => exact absurd (by simpa [legalIn, counted] using hl) hp
  | build r q hk hq => exact .of_build h.book (by simpa [legalIn] using hl) hk hq
  | gencode cs hc hlen =>
    have hpa : a.phase = .tree := by simpa [legalIn] using hl
    obtain ⟨l, b, hw⟩ := writeCodes_frame cs a
    rw [hw]
    exact (h.tree (by simp [hpa])).congr rfl rfl rfl rfl rfl rfl
  | encbegin | encsum | encend =>
    have hpa : a.phase ≠ .count := fun hpa => by simp [legalIn, hpa] at hl
    exact (h.tree hpa).congr rfl rfl rfl rfl rfl rfl
  | encbFirst | encbSecond | ench => exact (h.tree hp).congr rfl rfl rfl rfl rfl rfl
  | rdreg | rdfreq | rdclen | rdcode | rdnw | rdnc => exact h.tree hp

theorem TreeInv.recorded (h : TreeInv a) {c : Cause} (hc : c ≠ .faulted) (info : BitVec 32) :
    TreeInv { a with fault := true, fcause := c.code, finfo := info } :=
  ⟨h.book.recorded hc info, fun hp => (h.tree hp).congr rfl rfl rfl rfl rfl rfl⟩

theorem Executes.keeps_treeInv {i : Instr} {a' : Arch} {d : Data} (he : Executes a i a' d)
    (ha : admission i a = none) (h : TreeInv a) : TreeInv a' :=
  ⟨he.keeps_bookkeeping ha h.book, he.keeps_treeOk ha h⟩

end TreeInv

/-- Settles O58: BUILD makes the tree, and no other command that ends in phase TREE or later writes it. -/
theorem stepKeepsTheTree : Obligations.StepKeepsTheTree := by
  unfold Obligations.StepKeepsTheTree
  intro s t hs h
  exact step_keeps treeInv_reset (fun a c info ha _ hc => ha.recorded hc info)
    (fun i a a' d ha hadm he => he.keeps_treeInv hadm ha) hs h

end Sys2Proof.Machine
end

section
/-! PROOF. The tree seen by its paths (spec/42_code_generator.md R150): every node has exactly one, the leaves carry the
symbols present, and the walk of GENCODE finds exactly the leaves with their paths. -/

namespace Sys2Proof.Machine

/-! ### The symbols present -/

/-- The symbols that FREQ lists, ascending. -/
def Arch.symbols (a : Arch) : List Sym := a.freq.map fun e => BitVec.ofNat 16 e.1

section Symbols

variable {a : Arch}

theorem toNat_ofNat_of_mem (h : MemoriesCanonical a) {e : Nat × Count} (he : e ∈ a.freq) :
    (BitVec.ofNat 16 e.1).toNat = e.1 :=
  Nat.mod_eq_of_lt (wfFrom_mem h.freq e he).2.1

theorem symbols_nodup (h : MemoriesCanonical a) : a.symbols.Nodup := by
  refine List.pairwise_map.mpr ((wfFrom_sorted h.freq).imp_of_mem fun {x y} hx hy hlt he => ?_)
  have := congrArg BitVec.toNat he
  rw [toNat_ofNat_of_mem h hx, toNat_ofNat_of_mem h hy] at this
  omega

theorem mem_symbols (h : MemoriesCanonical a) {s : Sym} : s ∈ a.symbols ↔ a.freqAt s ≠ 0 := by
  rw [Arch.symbols, List.mem_map]
  constructor
  · rintro ⟨e, he, rfl⟩
    rw [Arch.freqAt, toNat_ofNat_of_mem h he, read_of_mem h.freq he]
    exact (wfFrom_mem h.freq e he).2.2
  · intro hs
    exact ⟨_, mem_of_read_ne hs, by simp⟩

theorem symbols_length (a : Arch) : a.symbols.length = a.freq.length := List.length_map _

end Symbols

/-! ### Nodes and paths -/

section Paths

variable {a : Arch} {x y : Nat} {p q : List Bool}

theorem TreeOk.nnode_pos (h : TreeOk a) : 0 < a.nnode.toNat := by
  have := h.nnode
  have := h.kdist_pos
  omega

theorem TreeOk.leaf_iff (h : TreeOk a) (hx : x < a.nnode.toNat) : (a.nodeAt x).leaf = true ↔ x < a.kdist.toNat := by
  constructor
  · intro hl
    by_contra hk
    exact absurd (hl.symm.trans (h.internal x (Nat.le_of_not_lt hk) hx).1) (by decide)
  · intro hk
    obtain ⟨e, -, he⟩ := h.leaf x hk
    rw [he]

theorem TreeOk.kdist_le (h : TreeOk a) (hx : x < a.nnode.toNat) (hl : (a.nodeAt x).leaf = false) :
    a.kdist.toNat ≤ x := by
  refine Nat.le_of_not_lt fun hk => ?_
  rw [(h.leaf_iff hx).mpr hk] at hl
  cases hl

/-- The `i`-th leaf carries the `i`-th symbol present (R130). -/
theorem TreeOk.symbol (h : TreeOk a) (hx : x < a.kdist.toNat) : a.symbols[x]? = some (a.nodeAt x).sym := by
  obtain ⟨e, he, hn⟩ := h.leaf x hx
  rw [Arch.symbols, List.getElem?_map, he, hn]
  rfl

/-- A path is empty and at the root, or one step longer than a path to a parent. -/
theorem path_cases (hp : Path a x p) : (x = a.root.toNat ∧ p = []) ∨
    ∃ y l bit, p = l ++ [bit] ∧ Path a y l ∧ (a.nodeAt y).leaf = false ∧
      (bif bit then (a.nodeAt y).right else (a.nodeAt y).left).toNat = x := by
  cases hp with
  | root => exact .inl ⟨rfl, rfl⟩
  | left y l hy hl => exact .inr ⟨y, l, false, rfl, hy, hl, rfl⟩
  | right y l hy hl => exact .inr ⟨y, l, true, rfl, hy, hl, rfl⟩

theorem TreeOk.child_lt (h : TreeOk a) (hx : x < a.nnode.toNat) (hl : (a.nodeAt x).leaf = false) (bit : Bool) :
    (bif bit then (a.nodeAt x).right else (a.nodeAt x).left).toNat < x := by
  obtain ⟨-, -, hleft, hright, -⟩ := h.internal x (h.kdist_le hx hl) hx
  cases bit
  · exact hleft
  · exact hright

theorem TreeOk.path_lt (h : TreeOk a) (hp : Path a x p) : x < a.nnode.toNat := by
  induction hp with
  | root =>
    have := h.nnode_pos
    have := h.root
    omega
  | left y l _ hl ih => exact (h.child_lt ih hl false).trans ih
  | right y l _ hl ih => exact (h.child_lt ih hl true).trans ih

/-- A node is the child of at most one node, on one side (R40 item 7). -/
theorem TreeOk.step_unique (h : TreeOk a) (hx : x < a.nnode.toNat) (hy : y < a.nnode.toNat)
    (hlx : (a.nodeAt x).leaf = false) (hly : (a.nodeAt y).leaf = false) {bit bit' : Bool}
    (he : (bif bit then (a.nodeAt x).right else (a.nodeAt x).left).toNat =
      (bif bit' then (a.nodeAt y).right else (a.nodeAt y).left).toNat) : x = y ∧ bit = bit' := by
  have hkx := h.kdist_le hx hlx
  have hky := h.kdist_le hy hly
  have hchild {z : Nat} (b : Bool) (hz : z < a.nnode.toNat) (hk : a.kdist.toNat ≤ z) :
      IsChildOf a (bif b then (a.nodeAt z).right else (a.nodeAt z).left).toNat z := by
    cases b
    · exact ⟨hk, hz, .inl rfl⟩
    · exact ⟨hk, hz, .inr rfl⟩
  have hlt := h.child_lt hx hlx bit
  obtain rfl : x = y :=
    (h.parent (bif bit then (a.nodeAt x).right else (a.nodeAt x).left).toNat (by omega)).unique (hchild bit hx hkx)
      (he ▸ hchild bit' hy hky)
  have hs : (a.nodeAt x).left.toNat ≠ (a.nodeAt x).right.toNat := fun hs => by
    have hb := h.siblings x hkx hx
    rw [arenaBefore_iff (b := ⟨a.node, [], 0⟩) rfl, hs, before_irrefl] at hb
    cases hb
  refine ⟨rfl, ?_⟩
  cases bit <;> cases bit'
  · rfl
  · exact absurd he hs
  · exact absurd he.symm hs
  · rfl

/-- A node has at most one path. -/
theorem TreeOk.path_unique (h : TreeOk a) (hp : Path a x p) (hq : Path a x q) : p = q := by
  induction p using List.reverseRecOn generalizing x q with
  | nil =>
    rcases path_cases hp with ⟨rfl, -⟩ | ⟨y, l, bit, hl, -⟩
    · rcases path_cases hq with ⟨-, hq⟩ | ⟨z, m, bit, -, hz, hleaf, hc⟩
      · exact hq.symm
      · have := h.child_lt (h.path_lt hz) hleaf bit
        have := h.path_lt hz
        have := h.root
        omega
    · simp at hl
  | append_singleton l bit ih =>
    rcases path_cases hp with ⟨-, hl⟩ | ⟨y, l', bit', hl, hy, hleaf, hc⟩
    · simp at hl
    obtain ⟨rfl, rfl⟩ : l = l' ∧ bit = bit' := by simpa using hl
    rcases path_cases hq with ⟨rfl, -⟩ | ⟨z, m, bit'', rfl, hz, hleaf', hc'⟩
    · have := h.child_lt (h.path_lt hy) hleaf bit
      have := h.path_lt hy
      have := h.root
      omega
    · obtain ⟨rfl, rfl⟩ := h.step_unique (h.path_lt hy) (h.path_lt hz) hleaf hleaf' (hc.trans hc'.symm)
      rw [ih hy hz]

/-- Every node has a path: its parents lead up to the root. -/
theorem TreeOk.exists_path (h : TreeOk a) (hx : x < a.nnode.toNat) : ∃ p, Path a x p := by
  induction hd : a.nnode.toNat - x using Nat.strong_induction_on generalizing x with | _ d ih => ?_
  by_cases hr : x + 1 = a.nnode.toNat
  · have := h.root
    obtain rfl : x = a.root.toNat := by omega
    exact ⟨[], .root⟩
  · obtain ⟨y, ⟨hk, hy, hc⟩, -⟩ := h.parent x (by omega)
    obtain ⟨hleaf, -, hleft, hright, -⟩ := h.internal y hk hy
    have hlt : x < y := by
      rcases hc with rfl | rfl
      · exact hleft
      · exact hright
    obtain ⟨p, hp⟩ := ih (a.nnode.toNat - y) (by omega) hy rfl
    rcases hc with rfl | rfl
    · exact ⟨_, hp.left y p hleaf⟩
    · exact ⟨_, hp.right y p hleaf⟩

/-! ### The walk -/

/-- Every code of a walk is the path of a leaf with its symbol. -/
theorem walk_sound {fuel : Nat} {cs : List (Sym × List Bool)} (hw : walk a.node fuel x p = some cs) (hp : Path a x p) :
    ∀ c ∈ cs, ∃ y, Path a y c.2 ∧ (a.nodeAt y).leaf = true ∧ (a.nodeAt y).sym = c.1 := by
  induction fuel generalizing x p cs with
  | zero => simp [walk] at hw
  | succ f ih =>
    obtain ⟨g, hg, ⟨n, rfl, hl, rfl⟩ | ⟨n, l, r, rfl, hl, rfl, h1, h2⟩⟩ := walk_cases hw
    · intro c hc
      obtain rfl := List.mem_singleton.mp hc
      exact ⟨x, hp, hl, rfl⟩
    · obtain rfl : f = g := Nat.succ.inj hg
      intro c hc
      rcases List.mem_append.mp hc with hc | hc
      · exact ih h1 (.left x p hp hl) c hc
      · exact ih h2 (.right x p hp hl) c hc

/-- A walk at an internal node joins the walks at its children. -/
theorem walk_children {fuel : Nat} {cs : List (Sym × List Bool)} (hw : walk a.node fuel x p = some cs)
    (hl : (a.nodeAt x).leaf = false) : ∃ f ls rs, cs = ls ++ rs ∧
      walk a.node f (a.nodeAt x).left.toNat (p ++ [false]) = some ls ∧
      walk a.node f (a.nodeAt x).right.toNat (p ++ [true]) = some rs := by
  obtain ⟨f, -, ⟨n, rfl, hl', -⟩ | ⟨n, ls, rs, rfl, -, rfl, h1, h2⟩⟩ := walk_cases hw
  · exact absurd (hl.symm.trans hl') (by decide)
  · exact ⟨f, ls, rs, rfl, h1, h2⟩

/-- A walk from the root goes on along every path. -/
theorem walk_follows {fuel : Nat} {cs : List (Sym × List Bool)} (hw : walk a.node fuel a.root.toNat [] = some cs)
    (hp : Path a x p) : ∃ g ds, walk a.node g x p = some ds ∧ ds ⊆ cs := by
  induction hp with
  | root => exact ⟨fuel, cs, hw, fun _ => id⟩
  | left y l _ hl ih =>
    obtain ⟨g, ds, hg, hsub⟩ := ih
    obtain ⟨f, ls, rs, rfl, h1, -⟩ := walk_children hg hl
    exact ⟨f, ls, h1, fun _ hc => hsub (List.mem_append_left _ hc)⟩
  | right y l _ hl ih =>
    obtain ⟨g, ds, hg, hsub⟩ := ih
    obtain ⟨f, ls, rs, rfl, -, h2⟩ := walk_children hg hl
    exact ⟨f, rs, h2, fun _ hc => hsub (List.mem_append_right _ hc)⟩

/-- A walk from the root gives every leaf's symbol its path. -/
theorem walk_complete {fuel : Nat} {cs : List (Sym × List Bool)} (hw : walk a.node fuel a.root.toNat [] = some cs)
    (hp : Path a x p) (hl : (a.nodeAt x).leaf = true) : ((a.nodeAt x).sym, p) ∈ cs := by
  obtain ⟨g, ds, hg, hsub⟩ := walk_follows hw hp
  obtain ⟨f, -, ⟨n, rfl, -, rfl⟩ | ⟨n, ls, rs, rfl, hl', -⟩⟩ := walk_cases hg
  · exact hsub (List.mem_singleton.mpr rfl)
  · exact absurd (hl.symm.trans hl') (by decide)

end Paths

end Sys2Proof.Machine
end

section
/-! PROOF. GENCODE over a tree makes the codebook of R40 item 8 (spec/42_code_generator.md R151, R153, R155, R156). -/

namespace Sys2Proof.Machine

/-! ### Packed bit lists -/

/-- A packed list has its first bit most significant (R11). -/
theorem packNat_testBit (p : List Bool) {j : Nat} (hj : j < p.length) :
    (packNat p).testBit (p.length - 1 - j) = p[j] := by
  induction p using List.reverseRecOn with
  | nil => cases hj
  | append_singleton p b ih =>
    rw [List.length_append, List.length_singleton] at hj
    rw [packNat_append_singleton, List.length_append, List.length_singleton]
    rcases Nat.lt_succ_iff_lt_or_eq.mp hj with hj | rfl
    · have hi : p.length + 1 - 1 - j = p.length - 1 - j + 1 := by omega
      have hd : (2 * packNat p + b.toNat) / 2 = packNat p := by
        have := b.toNat_lt
        omega
      rw [hi, Nat.testBit_succ, hd, ih hj, List.getElem_append_left hj]
    · have hi : p.length + 1 - 1 - p.length = 0 := by omega
      rw [hi, Nat.testBit_zero, List.getElem_concat_length rfl]
      cases b <;> simp [Nat.add_mod]

/-- A list of at most 64 bits is read back from its packed form. -/
theorem unpack_pack {p : List Bool} (h : p.length ≤ 64) :
    (List.range p.length).map (fun j => (pack p).getLsbD (p.length - 1 - j)) = p := by
  refine List.ext_getElem (by simp) fun j h1 h2 => ?_
  have hj : p.length - 1 - j < 64 := by omega
  rw [List.getElem_map, List.getElem_range, pack, BitVec.getLsbD_ofNat, packNat_testBit p h2]
  simp [hj]

/-! ### The codes -/

/-- What the code list of a tree is: each symbol present has one code, the path of its leaf, or `[0]` where the root is
the only leaf (R153); the codes fill the code space and none begins with another (R155, R156). -/
structure CodesOk (a : Arch) (cs : List (Sym × List Bool)) : Prop where
  nodup  : (cs.map Prod.fst).Nodup
  mem    : ∀ s, s ∈ cs.map Prod.fst ↔ s ∈ a.symbols
  paths  : ∀ x < a.kdist.toNat, ∃ p, Path a x p ∧ ((a.nodeAt x).sym, if a.nnode.toNat = 1 then [false] else p) ∈ cs
  pos    : ∀ c ∈ cs, 1 ≤ c.2.length
  free   : cs.Pairwise fun c d => ¬ c.2 <+: d.2 ∧ ¬ d.2 <+: c.2
  kraft  : 2 ≤ a.kdist.toNat → (∀ c ∈ cs, c.2.length ≤ 64) → (cs.map fun c => 2 ^ (64 - c.2.length)).sum = 2 ^ 64
  single : a.kdist.toNat = 1 → ∀ c ∈ cs, c.2 = [false]

/-- No code begins with another (R155 (b)). -/
theorem CodesOk.not_prefix {a : Arch} {cs : List (Sym × List Bool)} (h : CodesOk a cs) {c d : Sym × List Bool}
    (hc : c ∈ cs) (hd : d ∈ cs) (hne : c ≠ d) : ¬ c.2 <+: d.2 := by
  have : Std.Symm fun c d : Sym × List Bool => ¬ c.2 <+: d.2 ∧ ¬ d.2 <+: c.2 := ⟨fun _ _ h => h.symm⟩
  exact (h.free.forall hc hd hne).1

section Codes

variable {a : Arch} {fuel : Nat} {cs : List (Sym × List Bool)}

/-- The walk meets exactly the symbols present. -/
theorem walk_symbols (h : TreeOk a) (hk : a.kdist.toNat = a.freq.length)
    (hw : walk a.node fuel a.root.toNat [] = some cs) (s : Sym) : s ∈ cs.map Prod.fst ↔ s ∈ a.symbols := by
  have hnn := h.nnode
  rw [List.mem_map]
  constructor
  · rintro ⟨c, hc, rfl⟩
    obtain ⟨y, hy, hl, hs⟩ := walk_sound hw .root c hc
    have := h.symbol ((h.leaf_iff (h.path_lt hy)).mp hl)
    exact hs ▸ List.mem_of_getElem? this
  · intro hs
    obtain ⟨x, hx, rfl⟩ := List.getElem_of_mem hs
    have hxk : x < a.kdist.toNat := by rwa [hk, ← symbols_length]
    have hxn : x < a.nnode.toNat := by omega
    obtain ⟨p, hp⟩ := h.exists_path hxn
    refine ⟨_, walk_complete hw hp ((h.leaf_iff hxn).mpr hxk), ?_⟩
    exact (List.getElem?_eq_some_iff.mp (h.symbol hxk)).2.symm

/-- The walk meets a symbol once: its leaf is one, with one path, and no two codes of a walk are the same. -/
theorem walk_symbols_nodup (h : TreeOk a) (hm : MemoriesCanonical a)
    (hw : walk a.node fuel a.root.toNat [] = some cs) : (cs.map Prod.fst).Nodup := by
  refine List.pairwise_map.mpr ((walk_codes_free hw).imp_of_mem fun {c d} hc hd hcd he => hcd.1 ?_)
  obtain ⟨x, hx, hlx, hsx⟩ := walk_sound hw .root c hc
  obtain ⟨y, hy, hly, hsy⟩ := walk_sound hw .root d hd
  have hxs := h.symbol ((h.leaf_iff (h.path_lt hx)).mp hlx)
  have hys := h.symbol ((h.leaf_iff (h.path_lt hy)).mp hly)
  obtain rfl : x = y := by
    refine (List.getElem?_inj (List.getElem?_eq_some_iff.mp hxs).1 (symbols_nodup hm)).mp ?_
    rw [hxs, hys, hsx, hsy, he]
  rw [h.path_unique hx hy]

/-- A walk of one leaf (R153). -/
theorem walk_single (h : TreeOk a) (hn : a.nnode.toNat = 1) (hw : walk a.node fuel a.root.toNat [] = some cs) :
    ∃ s, cs = [(s, [])] := by
  have hr := h.root
  have hnn := h.nnode
  have hl : (a.nodeAt a.root.toNat).leaf = true := (h.leaf_iff (by omega)).mpr (by omega)
  obtain ⟨f, -, ⟨n, rfl, -, rfl⟩ | ⟨n, l, r, rfl, hl', -⟩⟩ := walk_cases hw
  · exact ⟨_, rfl⟩
  · exact absurd (hl.symm.trans hl') (by decide)

theorem walk_pos (h : TreeOk a) (hn : a.nnode.toNat ≠ 1) (hw : walk a.node fuel a.root.toNat [] = some cs) :
    ∀ c ∈ cs, 1 ≤ c.2.length := by
  intro c hc
  obtain ⟨y, hy, hl, -⟩ := walk_sound hw .root c hc
  rcases path_cases hy with ⟨rfl, -⟩ | ⟨z, l, bit, hc2, -⟩
  · have := (h.leaf_iff (h.path_lt hy)).mp hl
    have := h.root
    have := h.nnode
    omega
  · simp [hc2]

/-- The codes GENCODE writes over a tree. -/
theorem codes_ok (h : TreeInv a) (hp : a.phase ≠ .count) (hc : codes a = some cs) : CodesOk a cs := by
  have ht := h.tree hp
  have hk := h.book.kdist
  have hm := h.book.memories
  have hnn := ht.nnode
  have hkpos := ht.kdist_pos
  obtain ⟨ws, hw, hcs⟩ := Option.map_eq_some_iff.mp hc
  have hpath (x : Nat) (hx : x < a.kdist.toNat) : ∃ p, Path a x p ∧ ((a.nodeAt x).sym, p) ∈ ws := by
    have hxn : x < a.nnode.toNat := by omega
    obtain ⟨p, hp⟩ := ht.exists_path hxn
    exact ⟨p, hp, walk_complete hw hp ((ht.leaf_iff hxn).mpr hx)⟩
  have hmem := walk_symbols ht hk hw
  have hnodup := walk_symbols_nodup ht hm hw
  by_cases hone : a.nnode.toNat = 1
  · have hone' : a.nnode = 1 := BitVec.eq_of_toNat_eq hone
    obtain ⟨s, rfl⟩ := walk_single ht hone hw
    obtain rfl : [(s, [false])] = cs := by simpa [hone'] using hcs
    exact {
      nodup := by simp
      mem := hmem
      paths := fun x hx => by
        obtain ⟨p, hp, hpm⟩ := hpath x hx
        obtain ⟨hs, -⟩ : (a.nodeAt x).sym = s ∧ p = [] := by simpa using hpm
        exact ⟨p, hp, by simp [hone, hs]⟩
      pos := by simp
      free := by simp
      kraft := fun h2 => by omega
      single := fun _ => by simp }
  · have hone' : a.nnode ≠ 1 := fun h1 => hone (by rw [h1]; rfl)
    replace hcs : (if a.nnode = 1 then ws.map fun c => (c.1, [false]) else ws) = cs := hcs
    rw [if_neg hone'] at hcs
    subst hcs
    exact {
      nodup := hnodup
      mem := hmem
      paths := fun x hx => by
        obtain ⟨p, hp, hpm⟩ := hpath x hx
        exact ⟨p, hp, by rwa [if_neg hone]⟩
      pos := walk_pos ht hone hw
      free := walk_codes_free hw
      kraft := fun _ hlen => walk_kraft hw hlen
      single := fun h1 => by omega }

end Codes

/-! ### The codebook written -/

/-- The codebook of `a` has the entries of `cs` and no others (R151). -/
structure Written (cs : List (Sym × List Bool)) (a : Arch) : Prop where
  clen   : ∀ c ∈ cs, a.clenAt c.1 = BitVec.ofNat 7 c.2.length
  cbits  : ∀ c ∈ cs, a.cbitsAt c.1 = pack c.2
  absent : ∀ s, s ∉ cs.map Prod.fst → a.clenAt s = 0 ∧ a.cbitsAt s = 0
  maxlen : a.maxlen = BitVec.ofNat 7 (longest cs)

section Written

variable {a : Arch} {cs : List (Sym × List Bool)} {c : Sym × List Bool}

theorem writeCodes_written (hn : (cs.map Prod.fst).Nodup) (hl : a.clen = []) (hb : a.cbits = []) (p : Phase) :
    Written cs { writeCodes cs a with maxlen := BitVec.ofNat 7 (longest cs), phase := p } where
  clen c hc := (writeCodes_present a hc hn).1
  cbits c hc := (writeCodes_present a hc hn).2
  absent s hs := by
    obtain ⟨hlen, hbits⟩ := writeCodes_absent a fun c hc he => hs (List.mem_map.mpr ⟨c, hc, he⟩)
    exact ⟨hlen.trans (by rw [Arch.clenAt, hl]; rfl), hbits.trans (by rw [Arch.cbitsAt, hb]; rfl)⟩
  maxlen := rfl

theorem Written.clen_toNat (h : Written cs a) (hlong : longest cs ≤ 64) (hc : c ∈ cs) :
    (a.clenAt c.1).toNat = c.2.length := by
  have := le_longest hc
  rw [h.clen c hc, BitVec.toNat_ofNat, Nat.mod_eq_of_lt]
  omega

theorem Written.codeOf_eq (h : Written cs a) (hlong : longest cs ≤ 64) (hc : c ∈ cs) : a.codeOf c.1 = c.2 := by
  rw [Arch.codeOf, h.clen_toNat hlong hc, h.cbits c hc]
  exact unpack_pack ((le_longest hc).trans hlong)

theorem Written.maxlen_toNat (h : Written cs a) (hlong : longest cs ≤ 64) : a.maxlen.toNat = longest cs := by
  rw [h.maxlen, BitVec.toNat_ofNat, Nat.mod_eq_of_lt]
  omega

/-- The longest code is a code. -/
theorem exists_longest (h : 0 < longest cs) : ∃ c ∈ cs, c.2.length = longest cs :=
  (longest_foldl cs 0).2.2.resolve_left (Nat.ne_of_gt h)

/-- A symbol has no code and no occurrence, or a code of the list. -/
theorem Written.symbol_cases (h : Written cs a) (hm : MemoriesCanonical a) (hok : CodesOk a cs) (s : Sym) :
    (a.clenAt s = 0 ∧ a.cbitsAt s = 0 ∧ a.freqAt s = 0) ∨ ∃ c ∈ cs, c.1 = s ∧ a.freqAt s ≠ 0 := by
  by_cases hs : s ∈ cs.map Prod.fst
  · obtain ⟨c, hc, hcs⟩ := List.mem_map.mp hs
    exact .inr ⟨c, hc, hcs, (mem_symbols hm).mp ((hok.mem s).mp hs)⟩
  · obtain ⟨hl, hb⟩ := h.absent s hs
    rw [hok.mem, mem_symbols hm, not_not] at hs
    exact .inl ⟨hl, hb, hs⟩

/-- The symbols of a code list are the symbols present, so the sum over FREQ is the sum over the list. -/
theorem Written.kraftSum_eq (h : Written cs a) (hm : MemoriesCanonical a) (hok : CodesOk a cs)
    (hlong : longest cs ≤ 64) : kraftSum a = (cs.map fun c => 2 ^ (64 - c.2.length)).sum := by
  have hperm : (cs.map Prod.fst).Perm a.symbols :=
    (List.perm_ext_iff_of_nodup hok.nodup (symbols_nodup hm)).mpr hok.mem
  calc kraftSum a = (a.symbols.map fun s => 2 ^ (64 - (a.clenAt s).toNat)).sum := by
        rw [kraftSum, Arch.symbols, List.map_map]
        refine congrArg List.sum (List.map_congr_left fun e he => ?_)
        simp only [Function.comp, Arch.clenAt, toNat_ofNat_of_mem hm he]
    _ = ((cs.map Prod.fst).map fun s => 2 ^ (64 - (a.clenAt s).toNat)).sum := (hperm.map _).sum_eq.symm
    _ = (cs.map fun c => 2 ^ (64 - c.2.length)).sum := by
        rw [List.map_map]
        refine congrArg List.sum (List.map_congr_left fun c hc => ?_)
        simp only [Function.comp, h.clen_toNat hlong hc]

/-- The codebook that GENCODE writes is that of R40 item 8. -/
theorem Written.codeOk (h : Written cs a) (hm : MemoriesCanonical a) (ht : TreeOk a) (hok : CodesOk a cs)
    (hlong : longest cs ≤ Config.codeW) : CodeOk a := by
  have hlong : longest cs ≤ 64 := hlong
  have hmax := h.maxlen_toNat hlong
  have hpos : 1 ≤ longest cs := by
    obtain ⟨p, -, hc⟩ := hok.paths 0 ht.kdist_pos
    exact (hok.pos _ hc).trans (le_longest hc)
  have hcode {c : Sym × List Bool} (hc : c ∈ cs) := h.codeOf_eq hlong hc
  have hlen {c : Sym × List Bool} (hc : c ∈ cs) := h.clen_toNat hlong hc
  exact {
    paths := fun x hx => by
      obtain ⟨p, hp, hc⟩ := hok.paths x hx
      exact ⟨p, hp, hcode hc⟩
    present := fun s => by
      rcases h.symbol_cases hm hok s with ⟨h0, -, hf⟩ | ⟨c, hc, rfl, hf⟩
      · simp [h0, hf]
      · refine iff_of_true (fun h0 => ?_) hf
        have := hok.pos c hc
        rw [← hlen hc, h0] at this
        cases this
    absent := fun s hs => by
      rcases h.symbol_cases hm hok s with ⟨-, h0, -⟩ | ⟨c, hc, rfl, -⟩
      · exact h0
      · have := hok.pos c hc
        rw [← hlen hc, hs] at this
        cases this
    fits := fun s => by
      rcases h.symbol_cases hm hok s with ⟨-, h0, -⟩ | ⟨c, hc, rfl, -⟩
      · rw [h0]
        exact Nat.two_pow_pos _
      · rw [hlen hc, h.cbits c hc, pack_toNat ((le_longest hc).trans hlong)]
        exact packNat_lt c.2
    bounded := fun s => by
      rcases h.symbol_cases hm hok s with ⟨h0, -, -⟩ | ⟨c, hc, rfl, -⟩
      · rw [h0]
        exact Nat.zero_le _
      · rw [hlen hc, hmax]
        exact le_longest hc
    attained := by
      obtain ⟨c, hc, hl⟩ := exists_longest hpos
      exact ⟨c.1, by rw [h.clen c hc, hl, h.maxlen]⟩
    maxlen := by
      rw [hmax]
      exact ⟨hpos, hlong⟩
    prefixFree := fun s t hst hs ht => by
      obtain ⟨c, hc, rfl⟩ := List.mem_map.mp ((hok.mem s).mpr ((mem_symbols hm).mpr hs))
      obtain ⟨d, hd, rfl⟩ := List.mem_map.mp ((hok.mem t).mpr ((mem_symbols hm).mpr ht))
      rw [hcode hc, hcode hd]
      exact hok.not_prefix hc hd fun he => hst (by rw [he])
    kraft := fun h2 => by
      rw [h.kraftSum_eq hm hok hlong]
      exact hok.kraft h2 fun c hc => (le_longest hc).trans hlong
    single := fun h1 s hs => by
      obtain ⟨c, hc, rfl⟩ := List.mem_map.mp ((hok.mem s).mpr ((mem_symbols hm).mpr hs))
      rw [hcode hc, hok.single h1 c hc] }

end Written

end Sys2Proof.Machine
end

section
/-! PROOF. Every step keeps the whole invariant (spec/10_state.md R40): GENCODE makes the codebook, the two ways to
encode keep the totals within their bounds (spec/00_scope.md R12). -/

namespace Sys2Proof.Machine

variable {a a' : Arch}

/-! ### The codebook -/

theorem Path.congr {x : Nat} {p : List Bool} (h : Path a x p) (hn : a'.node = a.node) (hr : a'.root = a.root) :
    Path a' x p := by
  have hat (i : Nat) : a.nodeAt i = a'.nodeAt i := by rw [Arch.nodeAt, Arch.nodeAt, hn]
  induction h with
  | root => exact hr ▸ .root
  | left y l _ hl ih => rw [hat] at hl ⊢; exact .left y l ih hl
  | right y l _ hl ih => rw [hat] at hl ⊢; exact .right y l ih hl

/-- The codebook's invariant reads KDIST, FREQ, the arena and the codebook alone. -/
theorem CodeOk.congr (h : CodeOk a) (hk : a'.kdist = a.kdist) (hf : a'.freq = a.freq) (hn : a'.node = a.node)
    (hnn : a'.nnode = a.nnode) (hr : a'.root = a.root) (hl : a'.clen = a.clen) (hb : a'.cbits = a.cbits)
    (hm : a'.maxlen = a.maxlen) : CodeOk a' := by
  have hpath {x : Nat} {p : List Bool} (hp : Path a x p) : Path a' x p := hp.congr hn hr
  cases a
  cases a'
  subst hk hf hn hnn hr hl hb hm
  refine ⟨fun x hx => ?_, h.present, h.absent, h.fits, h.bounded, h.attained, h.maxlen, h.prefixFree, h.kraft,
    h.single⟩
  obtain ⟨p, hp, hc⟩ := h.paths x hx
  exact ⟨p, hpath hp, hc⟩

/-- GENCODE over a tree makes the codebook (R151, R155). -/
theorem CodeOk.of_gencode (h : TreeInv a) (hp : a.phase = .tree) {cs : List (Sym × List Bool)}
    (hc : codes a = some cs) (hlong : longest cs ≤ Config.codeW) :
    CodeOk { writeCodes cs a with maxlen := BitVec.ofNat 7 (longest cs), phase := .code } := by
  have ht := h.tree (by simp [hp])
  have hok := codes_ok h (by simp [hp]) hc
  obtain ⟨hl, hb, -⟩ := h.book.noCode (.inr hp)
  have hw := writeCodes_written hok.nodup hl hb .code
  have hm := (h.book.gencode hp cs (BitVec.ofNat 7 (longest cs))).memories
  obtain ⟨l, b, hwc⟩ := writeCodes_frame cs a
  rw [hwc] at hw hm ⊢
  exact hw.codeOk hm (ht.congr rfl rfl rfl rfl rfl rfl)
    ⟨hok.nodup, hok.mem, fun x hx => (hok.paths x hx).imp fun _ ⟨hpx, hcx⟩ => ⟨hpx.congr rfl rfl, hcx⟩, hok.pos,
      hok.free, hok.kraft, hok.single⟩ hlong

/-- A command that R94 allows in neither COUNT nor TREE runs with a codebook. -/
theorem codebook_phase {i : Instr} {p : Phase} (hc : legalIn i .count = false) (ht : legalIn i .tree = false)
    (hl : legalIn i p = true) : p ≠ .count ∧ p ≠ .tree :=
  ⟨fun hp => absurd (hc.symm.trans (hp ▸ hl)) (by decide), fun hp => absurd (ht.symm.trans (hp ▸ hl)) (by decide)⟩

theorem Executes.keeps_codeOk {i : Instr} {d : Data} (he : Executes a i a' d) (ha : admission i a = none) (h : Inv a)
    (hp : a'.phase ≠ .count) (hp' : a'.phase ≠ .tree) : CodeOk a' := by
  obtain ⟨-, -, hl, -⟩ := admission_eq_none.mp ha
  cases he with
  | clear => exact absurd rfl hp
  | cntbFirst | cntbSecond | cnth => exact absurd (by simpa [legalIn, counted] using hl) hp
  | build r q hk hq => exact absurd rfl hp'
  | gencode cs hc hlen => exact .of_gencode h.base (by simpa [legalIn] using hl) hc hlen
  | encbegin | encsum | encend =>
    have hpa := codebook_phase rfl rfl hl
    exact (h.code hpa.1 hpa.2).congr rfl rfl rfl rfl rfl rfl rfl rfl
  | encbFirst | encbSecond | ench => exact (h.code hp hp').congr rfl rfl rfl rfl rfl rfl rfl rfl
  | rdreg | rdfreq | rdclen | rdcode | rdnw | rdnc => exact h.code hp hp'

/-! ### The totals -/

/-- One more symbol with an entry adds 1 to NENC and its code length to ENCBITS, neither sum wrapping (R12). -/
theorem TotalsOk.encoded (h : TotalsOk a) (hc : CodeOk a) {sym : Sym} (hs : a.clenAt sym ≠ 0)
    (hn : a.nenc.toNat ≠ Config.cntMax) : TotalsOk (encoded sym a) := by
  obtain ⟨hlo, hhi⟩ := h
  have hlt := a.nenc.isLt
  have hmax : Config.cntMax = 2 ^ 32 - 1 := rfl
  have hpos : (a.clenAt sym).toNat ≠ 0 := fun h0 => hs (BitVec.eq_of_toNat_eq h0)
  have hle := hc.bounded sym
  have hml : a.maxlen.toNat ≤ 64 := hc.maxlen.2
  have hprod : a.nenc.toNat * a.maxlen.toNat ≤ 2 ^ 32 * 64 := Nat.mul_le_mul hlt.le hml
  have hn1 : (a.nenc + 1).toNat = a.nenc.toNat + 1 := toNat_succ (by omega)
  have hw : ((a.clenAt sym).setWidth 64).toNat = (a.clenAt sym).toNat := by
    rw [BitVec.toNat_setWidth, Nat.mod_eq_of_lt]
    omega
  have hb : (a.encbits + (a.clenAt sym).setWidth 64).toNat = a.encbits.toNat + (a.clenAt sym).toNat := by
    rw [BitVec.toNat_add_of_lt (by omega), hw]
  change (a.nenc + 1).toNat ≤ (a.encbits + (a.clenAt sym).setWidth 64).toNat ∧
    (a.encbits + (a.clenAt sym).setWidth 64).toNat ≤ (a.nenc + 1).toNat * a.maxlen.toNat
  rw [hn1, hb, Nat.succ_mul]
  omega

/-- The encoded length of a histogram lies between its total and its total times MAXLEN. -/
theorem weightedLength_bounds (h : Bookkeeping a) (hc : CodeOk a) :
    a.freq.total ≤ weightedLength a ∧ weightedLength a ≤ a.freq.total * a.maxlen.toNat := by
  have hlen (e : Nat × Count) (he : e ∈ a.freq) :
      1 ≤ (Memory.read 0 a.clen e.1).toNat ∧ (Memory.read 0 a.clen e.1).toNat ≤ a.maxlen.toNat := by
    have hs := toNat_ofNat_of_mem h.memories he
    have hpres := (hc.present (BitVec.ofNat 16 e.1)).mpr
      ((mem_symbols h.memories).mp (List.mem_map_of_mem he))
    have hle := hc.bounded (BitVec.ofNat 16 e.1)
    rw [Arch.clenAt, hs] at hpres hle
    exact ⟨Nat.pos_of_ne_zero fun h0 => hpres (BitVec.eq_of_toNat_eq h0), hle⟩
  rw [weightedLength, Memory.total, ← List.sum_map_mul_right]
  exact ⟨List.sum_le_sum fun e he => Nat.le_mul_of_pos_right _ (hlen e he).1,
    List.sum_le_sum fun e he => Nat.mul_le_mul_left _ (hlen e he).2⟩

/-- ENCSUM's total fits ENCBITS (R12, R177). -/
theorem TotalsOk.encsum (h : Bookkeeping a) (hc : CodeOk a) (p : Phase) :
    TotalsOk { a with nenc := a.nsym, encbits := BitVec.ofNat 64 (weightedLength a), phase := p } := by
  obtain ⟨hlo, hhi⟩ := weightedLength_bounds h hc
  have hnsym : a.nsym.toNat = a.freq.total := h.nsym
  have hml : a.maxlen.toNat ≤ 64 := hc.maxlen.2
  have hprod : a.nsym.toNat * a.maxlen.toNat ≤ 2 ^ 32 * 64 := Nat.mul_le_mul a.nsym.isLt.le hml
  rw [← hnsym] at hlo hhi
  have hw : (BitVec.ofNat 64 (weightedLength a)).toNat = weightedLength a := Nat.mod_eq_of_lt (by omega)
  rw [← hw] at hlo hhi
  exact ⟨hlo, hhi⟩

/-- No symbol encoded yet. -/
theorem totalsOk_of_zero (hn : a.nenc = 0) (hb : a.encbits = 0) : TotalsOk a := by
  rw [TotalsOk, hn, hb]
  exact ⟨Nat.le_refl 0, Nat.zero_le _⟩

theorem Executes.keeps_totalsOk {i : Instr} {d : Data} (he : Executes a i a' d) (ha : admission i a = none)
    (h : Inv a) (hp : a'.phase ≠ .count) (hp' : a'.phase ≠ .tree) : TotalsOk a' := by
  obtain ⟨-, -, hl, -⟩ := admission_eq_none.mp ha
  cases he with
  | clear => exact absurd rfl hp
  | cntbFirst | cntbSecond | cnth => exact absurd (by simpa [legalIn, counted] using hl) hp
  | build r q hk hq => exact absurd rfl hp'
  | gencode cs hc hlen =>
    obtain ⟨hn, hb⟩ := h.base.book.noTotals (.inr (.inl (by simpa [legalIn] using hl)))
    obtain ⟨l, b, hw⟩ := writeCodes_frame cs a
    rw [hw]
    exact totalsOk_of_zero hn hb
  | encbegin => exact totalsOk_of_zero rfl rfl
  | encbFirst => exact h.totals hp hp'
  | encbSecond b hh hs hn => exact (h.totals hp hp').encoded (h.code hp hp') hs hn
  | ench sym hs hn => exact (h.totals hp hp').encoded (h.code hp hp') hs hn
  | encend =>
    have hpa := codebook_phase rfl rfl hl
    exact h.totals hpa.1 hpa.2
  | encsum =>
    have hpa := codebook_phase rfl rfl hl
    exact .encsum h.base.book (h.code hpa.1 hpa.2) .done
  | rdreg | rdfreq | rdclen | rdcode | rdnw | rdnc => exact h.totals hp hp'

theorem Executes.keeps_inv {i : Instr} {d : Data} (he : Executes a i a' d) (ha : admission i a = none) (h : Inv a) :
    Inv a' :=
  ⟨he.keeps_treeInv ha h.base, he.keeps_codeOk ha h, he.keeps_totalsOk ha h⟩

theorem Inv.recorded (h : Inv a) {c : Cause} (hc : c ≠ .faulted) (info : BitVec 32) :
    Inv { a with fault := true, fcause := c.code, finfo := info } :=
  ⟨h.base.recorded hc info, fun hp hp' => (h.code hp hp').congr rfl rfl rfl rfl rfl rfl rfl rfl, h.totals⟩

/-- Settles O59: the bookkeeping and the tree are kept, GENCODE makes the codebook, and encoding keeps the totals. -/
theorem stepKeepsTheInvariant : Obligations.StepKeepsTheInvariant := by
  unfold Obligations.StepKeepsTheInvariant
  intro s t hs h
  exact step_keeps inv_reset (fun a c info ha _ hc => ha.recorded hc info)
    (fun i a a' d ha hadm he => he.keeps_inv hadm ha) hs h

end Sys2Proof.Machine
end

section
/-! PROOF. Memory (spec/20_memory.md): the two ways to push a symbol (R61 to R63), reads without side effect (R65). -/

namespace Sys2Proof.Machine

/-! ### Admitted commands and commands that succeed -/

theorem admission_of_noFault {i : Instr} {a : Arch} (hf : a.fault = false) (ha : argumentOk i a = true)
    (hl : legalIn i a.phase = true) (hw : isWholeSymbolPush i = true → a.half = false) : admission i a = none :=
  admission_eq_none.mpr ⟨fun ht => absurd (hf.symm.trans ht) (by decide), ha, hl, hw⟩

/-- A command stopped by the faulted gate is admitted with FAULT = 0 only (R236). -/
theorem noFault_of_admitted {i : Instr} {a : Arch} (h : admission i a = none) (hi : passesGate i = false) :
    a.fault = false := by
  obtain ⟨hg, -⟩ := admission_eq_none.mp h
  exact Bool.eq_false_iff.mpr fun hf => absurd (hi.symm.trans (hg hf)) (by decide)

/-- A command that answers code 0 was admitted and executed. -/
theorem executes_of_lastErr_eq_zero {i : Instr} {s t : State} (h : exec i s = .next t) (he : t.lastErr = 0) :
    admission i s.arch = none ∧ ∃ a d, Executes s.arch i a d ∧ t = State.respond 0 d { s with arch := a } := by
  rcases exec_cases h with hx | ⟨tr, rfl, _⟩
  · exact hx
  · exact absurd he tr.cause.code_ne_zero

/-- Where a command of a pass is admitted, so is every other one legal in the same phases that HALF does not refuse. -/
theorem admission_of_admitted {i j : Instr} {a : Arch} (h : admission i a = none) (hi : passesGate i = false)
    (hj : argumentOk j a = true) (hl : legalIn j a.phase = legalIn i a.phase) (hw : isWholeSymbolPush j = false) :
    admission j a = none := by
  obtain ⟨-, -, hlegal, -⟩ := admission_eq_none.mp h
  exact admission_of_noFault (noFault_of_admitted h hi) hj (hl.trans hlegal)
    fun ht => absurd (hw.symm.trans ht) (by decide)

/-! ### Whole-symbol pushes and HALF (R63) -/

/-- Settles O15: in its phase a whole-symbol push fails no check of R87 before that of HALF. -/
theorem wholeSymbolPushAtHalfPairIsMisaligned : Obligations.WholeSymbolPushAtHalfPairIsMisaligned := by
  unfold Obligations.WholeSymbolPushAtHalfPairIsMisaligned
  intro s sym hf hh
  constructor <;> intro hp <;>
    exact exec_of_refused (admission_misaligned hf rfl (by simp [legalIn, hp]) rfl hh)

/-! ### One symbol counted (R61, R111) -/

/-- The symbol whose number is the pair's is the pair, first byte more significant (R61). -/
theorem eq_pairBytes {sym : Sym} {hi lo : Byte} (h : sym.toNat = hi.toNat * 256 + lo.toNat) : sym = pairBytes hi lo :=
  BitVec.eq_of_toNat_eq (h.trans (pairBytes_toNat hi lo).symm)

/-- Settles O23: below CNTMAX both pushes execute, and `counted` writes FREQ at the symbol alone. -/
theorem symbolIsCounted : Obligations.SymbolIsCounted := by
  unfold Obligations.SymbolIsCounted
  intro s sym hf hp hn
  have hl : legalIn (.cnth sym) s.arch.phase = true := by simp [legalIn, hp]
  refine ⟨(counted sym s.arch).freq, fun j => read_write, fun hh => ?_, fun hh b hsym => ?_⟩
  · exact exec_of_executes (admission_of_noFault hf rfl hl fun _ => hh) (.cnth sym hn)
  · obtain rfl := eq_pairBytes hsym
    exact exec_of_executes (admission_of_noFault hf rfl hl nofun) (.cntbSecond b hh hn)

/-! ### A whole symbol and its two bytes (R62, R113, R175) -/

/-- The state with the first byte of a pair held (R110). -/
def held (b : Byte) (a : Arch) : Arch := { a with hold := b, half := true }

/-- Two commands one after the other, the first of which holds a byte. -/
theorem exec_two_of_held {s : State} {first second : Instr} {b : Byte} {a : Arch}
    (ha : admission first s.arch = none) (he : Executes s.arch first (held b s.arch) 0)
    (ha' : admission second (held b s.arch) = none) (he' : Executes (held b s.arch) second a 0) :
    ∃ u v, exec first s = .next u ∧ exec second u = .next v ∧ v.lastErr = 0 ∧ v.arch = a :=
  ⟨_, _, exec_of_executes ha he, exec_of_executes ha' he', rfl, rfl⟩

section Push

variable {a : Arch} {sym : Sym}

/-- Counting does not read HOLD or HALF. -/
theorem counted_held (hh : a.half = false) (b : Byte) :
    { counted sym (held b a) with half := false } = { counted sym a with hold := b } := by
  rw [← hh]
  rfl

/-- Encoding does not read HOLD or HALF. -/
theorem encoded_held (hh : a.half = false) (b : Byte) :
    { encoded sym (held b a) with half := false } = { encoded sym a with hold := b } := by
  rw [← hh]
  rfl

end Push

/-- Settles O24: the first byte is held, and the second completes the pair, which is the symbol. -/
theorem wholeSymbolPushEqualsTwoBytePushes : Obligations.WholeSymbolPushEqualsTwoBytePushes := by
  unfold Obligations.WholeSymbolPushEqualsTwoBytePushes
  intro s t hi lo hh
  constructor <;> intro h herr <;> obtain ⟨ha, a, d, he, rfl⟩ := executes_of_lastErr_eq_zero h herr
  · cases he with | cnth _ hn =>
    have hb (b : Byte) : admission (.cntb b) s.arch = none := admission_of_admitted ha rfl rfl rfl rfl
    have hsnd : Executes (held hi s.arch) (.cntb lo) _ 0 := .cntbSecond lo rfl hn
    rw [counted_held hh hi] at hsnd
    exact exec_two_of_held (hb hi) (.cntbFirst hi hh) (hb lo) hsnd
  · cases he with | ench _ hl hn =>
    have hb (b : Byte) : admission (.encb b) s.arch = none := admission_of_admitted ha rfl rfl rfl rfl
    have hsnd : Executes (held hi s.arch) (.encb lo) _ 0 := .encbSecond lo rfl hl hn
    rw [encoded_held hh hi] at hsnd
    exact exec_two_of_held (hb hi) (.encbFirst hi hh) (hb lo) hsnd

/-! ### Reads (R65) -/

/-- A read that executes leaves the core state. -/
theorem Executes.arch_of_isRead {i : Instr} {a a' : Arch} {d : Data} (he : Executes a i a' d) (hi : isRead i = true) :
    a' = a := by
  cases he with
  | rdreg | rdfreq | rdclen | rdcode | rdnw | rdnc => rfl
  | _ => cases hi

/-- Settles O52: a read leaves the core state, so that it is admitted and executes again with the same data. -/
theorem successfulReadHasNoSideEffect : Obligations.SuccessfulReadHasNoSideEffect := by
  unfold Obligations.SuccessfulReadHasNoSideEffect
  intro i s t hi h herr
  obtain ⟨ha, a, d, he, rfl⟩ := executes_of_lastErr_eq_zero h herr
  obtain rfl := he.arch_of_isRead hi
  exact ⟨rfl, exec_of_executes ha he⟩

end Sys2Proof.Machine
end

section
/-! PROOF. Command words (spec/30_encoding.md R83 to R92): a word decodes to a command exactly where it is the command's
word, opcode x 2^24 + operand; every statement about the decoder follows from that. -/

namespace Sys2Proof.Machine

/-! ### The fields of a word (R83) -/

theorem opField_toNat (w : Word) : (opField w).toNat = w.toNat / 2 ^ 24 := by
  rw [opField, BitVec.extractLsb'_toNat, Nat.shiftRight_eq_div_pow]
  omega

theorem argField_toNat (w : Word) : (argField w).toNat = w.toNat % 2 ^ 24 := by
  rw [argField, BitVec.extractLsb'_toNat, Nat.shiftRight_zero]

theorem operandBits_le (f : Format) : f.operandBits ≤ 24 := by cases f <;> decide

/-- The must-be-zero bits are 0 exactly where `arg` fits the operand bits (R84). -/
theorem mustBeZeroOk_iff {f : Format} {arg : BitVec 24} :
    mustBeZeroOk f arg = true ↔ arg.toNat < 2 ^ f.operandBits := by
  rw [mustBeZeroOk, decide_eq_true_iff, ← BitVec.toNat_inj, BitVec.toNat_ushiftRight, Nat.shiftRight_eq_div_pow]
  exact Nat.div_eq_zero_iff_lt (Nat.two_pow_pos _)

/-! ### The opcode map (R88) -/

theorem mnemonicOf_eq_some {op : BitVec 8} {m : Mnemonic} : mnemonicOf op = some m ↔ m.opcode = op := by
  constructor
  · intro h
    exact of_decide_eq_true (List.find?_some (p := fun m : Mnemonic => decide (m.opcode = op)) h)
  · rintro rfl
    cases m <;> rfl

theorem opcode_injective : Function.Injective Mnemonic.opcode := fun _ _ h =>
  Option.some.inj ((mnemonicOf_eq_some.mpr h).symm.trans (mnemonicOf_eq_some.mpr rfl))

/-! ### Commands as mnemonic and operand (R85) -/

@[simp] theorem operandsOf_mnemonic (m : Mnemonic) (arg : BitVec 24) : (operandsOf m arg).mnemonic = m := by
  cases m <;> rfl

/-- The operand is `arg` as it stands (R85). -/
theorem operandsOf_operand {m : Mnemonic} {arg : BitVec 24} (h : arg.toNat < 2 ^ m.format.operandBits) :
    (operandsOf m arg).operand = arg.toNat := by
  cases m with
  | CLEAR | SRCERR | BUILD | GENCODE | ENCBEGIN | ENCEND | ENCSUM => exact (Nat.lt_one_iff.mp h).symm
  | _ => exact Nat.mod_eq_of_lt h

/-- An operand field holds the operand put there. -/
theorem extractLsb'_setWidth_arg {k : Nat} (hk : k ≤ 24) (x : BitVec k) :
    (x.setWidth 24).extractLsb' 0 k = x := by
  apply BitVec.eq_of_toNat_eq
  have hx : x.toNat < 2 ^ 24 := x.isLt.trans_le (Nat.pow_le_pow_right Nat.two_pos hk)
  rw [BitVec.extractLsb'_toNat, Nat.shiftRight_zero, BitVec.toNat_setWidth, Nat.mod_eq_of_lt hx,
    Nat.mod_eq_of_lt x.isLt]

/-- A command is its mnemonic with its operand. -/
theorem operandsOf_of_instr (i : Instr) : operandsOf i.mnemonic (BitVec.ofNat 24 i.operand) = i := by
  cases i <;> simp [Instr.mnemonic, Instr.operand, operandsOf, extractLsb'_setWidth_arg]

/-- The operand of a command fits its format's field (R84). -/
theorem operand_lt (i : Instr) : i.operand < 2 ^ i.mnemonic.format.operandBits := by
  cases i with
  | clear | srcerr | build | gencode | encbegin | encend | encsum => exact Nat.one_pos
  | cntb x | cnth x | encb x | ench x | rdreg x | rdfreq x | rdclen x | rdcode x | rdnw x | rdnc x => exact x.isLt

theorem operand_lt_arg (i : Instr) : i.operand < 2 ^ 24 :=
  (operand_lt i).trans_le (Nat.pow_le_pow_right Nat.two_pos (operandBits_le _))

/-- The word of a command as a number (R92). -/
theorem encode_toNat (i : Instr) : (encode i).toNat = i.mnemonic.opcode.toNat * 2 ^ 24 + i.operand :=
  (Laws.HasItsWord.of_wellFormed (decide_eq_true (operand_lt i))).2

theorem opField_encode (i : Instr) : opField (encode i) = i.mnemonic.opcode := by
  have hlt := operand_lt_arg i
  apply BitVec.eq_of_toNat_eq
  rw [opField_toNat, encode_toNat]
  omega

theorem encode_toNat_mod (i : Instr) : (encode i).toNat % 2 ^ 24 = i.operand := by
  rw [encode_toNat, Nat.mul_add_mod_self_right, Nat.mod_eq_of_lt (operand_lt_arg i)]

theorem argField_encode (i : Instr) : argField (encode i) = BitVec.ofNat 24 i.operand := by
  apply BitVec.eq_of_toNat_eq
  rw [argField_toNat, encode_toNat_mod, BitVec.toNat_ofNat, Nat.mod_eq_of_lt (operand_lt_arg i)]

/-- The command with a mnemonic and an operand that fits has the word opcode x 2^24 + operand (R92). -/
theorem encode_operandsOf_toNat {m : Mnemonic} {arg : BitVec 24} (h : arg.toNat < 2 ^ m.format.operandBits) :
    (encode (operandsOf m arg)).toNat = m.opcode.toNat * 2 ^ 24 + arg.toNat := by
  rw [encode_toNat, operandsOf_mnemonic, operandsOf_operand h]

/-! ### The decoder (R87 step 1) -/

/-- A word decodes to a command exactly where its opcode is assigned, its must-be-zero bits are 0, and the command is
the one of its fields. -/
theorem decode_eq_ok_iff_fields {w : Word} {i : Instr} : decode w = .ok i ↔ ∃ m : Mnemonic,
    m.opcode = opField w ∧ mustBeZeroOk m.format (argField w) = true ∧ operandsOf m (argField w) = i := by
  simp only [← mnemonicOf_eq_some]
  rw [decode]
  cases mnemonicOf (opField w) with
  | none => simp
  | some m => cases h : mustBeZeroOk m.format (argField w) <;> simp [h]

/-- The command of a word's fields has that word. -/
theorem encode_of_fields {w : Word} {m : Mnemonic} (hm : m.opcode = opField w)
    (h : (argField w).toNat < 2 ^ m.format.operandBits) : encode (operandsOf m (argField w)) = w := by
  apply BitVec.eq_of_toNat_eq
  rw [encode_operandsOf_toNat h, hm, opField_toNat, argField_toNat]
  omega

/-- A word decodes to a command exactly where it is the command's word. -/
theorem decode_eq_ok_iff {w : Word} {i : Instr} : decode w = .ok i ↔ encode i = w := by
  rw [decode_eq_ok_iff_fields]
  constructor
  · rintro ⟨m, hm, hz, rfl⟩
    exact encode_of_fields hm (mustBeZeroOk_iff.mp hz)
  · rintro rfl
    refine ⟨i.mnemonic, (opField_encode i).symm, mustBeZeroOk_iff.mpr ?_, ?_⟩ <;> rw [argField_encode]
    · rw [BitVec.toNat_ofNat, Nat.mod_eq_of_lt (operand_lt_arg i)]
      exact operand_lt i
    · exact operandsOf_of_instr i

/-- A word decodes to a command of a mnemonic exactly where its opcode is the mnemonic's and its must-be-zero bits are 0
(R84). -/
theorem decodes_to_mnemonic_iff {w : Word} {m : Mnemonic} : (∃ i, decode w = .ok i ∧ i.mnemonic = m) ↔
    w.toNat / 2 ^ 24 = m.opcode.toNat ∧ w.toNat % 2 ^ 24 < 2 ^ m.format.operandBits := by
  rw [← opField_toNat, ← argField_toNat, BitVec.toNat_inj]
  constructor
  · rintro ⟨i, hi, rfl⟩
    obtain ⟨m, hm, hz, rfl⟩ := decode_eq_ok_iff_fields.mp hi
    rw [operandsOf_mnemonic]
    exact ⟨hm.symm, mustBeZeroOk_iff.mp hz⟩
  · rintro ⟨hm, hz⟩
    exact ⟨_, decode_eq_ok_iff.mpr (encode_of_fields hm.symm hz), operandsOf_mnemonic m _⟩

/-- Settles O2: the word of a command has the command's fields. -/
theorem decodeOfEncodeIsIdentity : Obligations.DecodeOfEncodeIsIdentity := by
  unfold Obligations.DecodeOfEncodeIsIdentity
  intro i
  exact decode_eq_ok_iff.mpr rfl

/-- Settles O3: a word that decodes is the command's word. -/
theorem decodedWordIsOpcodeAndOperand : Obligations.DecodedWordIsOpcodeAndOperand := by
  unfold Obligations.DecodedWordIsOpcodeAndOperand
  intro w i h
  obtain rfl := decode_eq_ok_iff.mp h
  exact ⟨rfl, encode_toNat i, operand_lt i⟩

/-- Settles O1: thirteen words, decoded. -/
theorem sampleWordsDecode : Obligations.SampleWordsDecode := by
  unfold Obligations.SampleWordsDecode
  decide

/-! ### Match and mask (R84, R88) -/

/-- The mask of a format: every bit above the operand bits. -/
def formatMask (f : Format) : Word := BitVec.allOnes 32 <<< f.operandBits

/-- The columns of R88 are the format, opcode x 2^24 and the format's mask. -/
theorem opcodeRows_columns : ∀ row ∈ opcodeRows, row.1.format = row.2.1 ∧
    row.2.2.1.toNat = row.1.opcode.toNat * 2 ^ 24 ∧ row.2.2.2 = formatMask row.2.1 := by decide

theorem not_formatMask_toNat (f : Format) : (~~~formatMask f).toNat = 2 ^ f.operandBits - 1 := by cases f <;> decide

/-- The unmasked part of a word is its low bits. -/
theorem and_not_formatMask_toNat (w : Word) (f : Format) :
    (w &&& ~~~formatMask f).toNat = w.toNat % 2 ^ f.operandBits := by
  rw [BitVec.toNat_and, not_formatMask_toNat, Nat.and_two_pow_sub_one_eq_mod]

/-- Masking clears the operand bits. -/
theorem and_formatMask (w : Word) (f : Format) : w &&& formatMask f = w >>> f.operandBits <<< f.operandBits := by
  ext i hi
  simp only [formatMask, BitVec.getElem_and, BitVec.getElem_shiftLeft, BitVec.getElem_allOnes,
    BitVec.getElem_ushiftRight]
  by_cases h : i < f.operandBits
  · simp [h]
  · simp [h, Nat.add_sub_cancel' (Nat.le_of_not_lt h), BitVec.getLsbD_eq_getElem hi]

/-- A masked word is a format's match exactly where the word has that opcode and no must-be-zero bit (R84). -/
theorem and_formatMask_eq_iff {w matchWord : Word} {f : Format} {op : BitVec 8}
    (hm : matchWord.toNat = op.toNat * 2 ^ 24) : w &&& formatMask f = matchWord ↔
      w.toNat / 2 ^ 24 = op.toNat ∧ w.toNat % 2 ^ 24 < 2 ^ f.operandBits := by
  have hw := w.isLt
  rw [and_formatMask, ← BitVec.toNat_inj, hm, BitVec.toNat_shiftLeft, BitVec.toNat_ushiftRight, Nat.shiftLeft_eq,
    Nat.shiftRight_eq_div_pow]
  cases f <;> simp only [Format.operandBits] <;> omega

/-- Settles O4: the mask of a row is its format's, so that a masked word is the match where the fields are right. -/
theorem wordEncodesCommandIffMaskMatches : Obligations.WordEncodesCommandIffMaskMatches := by
  unfold Obligations.WordEncodesCommandIffMaskMatches
  intro row hrow w
  obtain ⟨hformat, hmatch, hmask⟩ := opcodeRows_columns row hrow
  rw [hmask, not_formatMask_toNat]
  refine ⟨?_, fun i hi hm => ?_, hformat, hmatch, rfl⟩
  · rw [decodes_to_mnemonic_iff, and_formatMask_eq_iff hmatch, hformat]
  · obtain rfl := decode_eq_ok_iff.mp hi
    have hlt := operand_lt i
    rw [hm, hformat] at hlt
    rw [and_not_formatMask_toNat, ← Nat.mod_mod_of_dvd _ (Nat.pow_dvd_pow 2 (operandBits_le _)), encode_toNat_mod,
      Nat.mod_eq_of_lt hlt]

/-! ### Illegal words (R89, R90) -/

/-- A word that is no command's raises IllegalCommand (R87 step 1). -/
theorem step_illegal {s : State} {w : Word} {rest : List HostMove} (h : s.inbox = .command w :: rest)
    (hd : ∀ i, decode w ≠ .ok i) :
    step s = .next (State.raiseFault ⟨.illegalCommand, w⟩ { s with inbox := rest }) := by
  rw [step_command h, runWord]
  cases hw : decode w with
  | ok i => exact absurd hw (hd i)
  | error _ => rfl

/-- The ranges of R89 are the opcodes that the map of R88 has no mnemonic for. -/
theorem reservedOp_eq_isNone : ∀ op : BitVec 8, reservedOp op.toNat = (mnemonicOf op).isNone := by decide

set_option maxRecDepth 2000 in
/-- R89 reserves 239 opcodes. -/
theorem reservedOp_count : ((List.range 256).filter reservedOp).length = 239 := by decide

/-- An opcode is reserved exactly where it is no mnemonic's (R89). -/
theorem reservedOp_iff {op : BitVec 8} : reservedOp op.toNat = true ↔ ∀ m : Mnemonic, m.opcode ≠ op := by
  rw [reservedOp_eq_isNone, Option.isNone_iff_eq_none, Option.eq_none_iff_forall_ne_some]
  exact forall_congr' fun m => not_congr mnemonicOf_eq_some

/-- A word that decodes has the opcode of its command. -/
theorem opcode_of_decode {w : Word} {i : Instr} (h : decode w = .ok i) : w.toNat / 2 ^ 24 = i.mnemonic.opcode.toNat :=
  (decodes_to_mnemonic_iff.mp ⟨i, h, rfl⟩).1

/-- Settles O5: a word that decodes has the opcode of a mnemonic, which no reserved opcode is. -/
theorem reservedOpcodeRaisesIllegalCommand : Obligations.ReservedOpcodeRaisesIllegalCommand := by
  unfold Obligations.ReservedOpcodeRaisesIllegalCommand
  refine ⟨fun s w rest hs hr => step_illegal hs fun i hi => ?_, fun op => reservedOp_iff, reservedOp_count, by decide,
    by decide⟩
  rw [opcode_of_decode hi] at hr
  exact reservedOp_iff.mp hr i.mnemonic rfl

/-- Settles O6: a word that decodes has its operand below the must-be-zero bits. -/
theorem mustBeZeroBitRaisesIllegalCommand : Obligations.MustBeZeroBitRaisesIllegalCommand := by
  unfold Obligations.MustBeZeroBitRaisesIllegalCommand
  intro s w rest m hs hop hz
  refine step_illegal hs fun i hi => ?_
  obtain ⟨hop', hlt⟩ := decodes_to_mnemonic_iff.mp ⟨i, hi, rfl⟩
  obtain rfl : m = i.mnemonic := opcode_injective (BitVec.eq_of_toNat_eq (hop.symm.trans hop'))
  exact hz (Nat.div_eq_of_lt hlt)

/-! ### The assembler (R92) -/

/-- The operand of a well-formed line fits its format; it is 0 where the line has none. -/
theorem operand_lt_of_wellFormed {l : AsmLine} (h : l.wellFormed = true) :
    l.operand.getD 0 < 2 ^ l.mnemonic.format.operandBits := by
  obtain ⟨m, o⟩ := l
  cases o with
  | none => exact Nat.two_pow_pos _
  | some v =>
    cases hf : m.format with
    | z => simp [AsmLine.wellFormed, hf] at h
    | b | h | n | r => simpa [AsmLine.wellFormed, hf] using h

/-- Settles O7: the operand of a well-formed line fits, and is the operand of the command's word. -/
theorem assembledLineHasItsWord : Obligations.AssembledLineHasItsWord := by
  unfold Obligations.AssembledLineHasItsWord
  intro l
  refine ⟨fun h => ?_, fun h => by simp [assemble, h]⟩
  have hlt := operand_lt_of_wellFormed h
  have harg : (BitVec.ofNat 24 (l.operand.getD 0)).toNat = l.operand.getD 0 :=
    Nat.mod_eq_of_lt (hlt.trans_le (Nat.pow_le_pow_right Nat.two_pos (operandBits_le _)))
  refine ⟨operandsOf l.mnemonic (BitVec.ofNat 24 (l.operand.getD 0)), by simp [assemble, h],
    operandsOf_mnemonic _ _, ?_⟩
  rw [encode_operandsOf_toNat (by rwa [harg]), harg]

end Sys2Proof.Machine
end

section
/-! PROOF. Steps, responses and admission of a decoded command (spec/30_encoding.md R82, R86, R87, R94), and progress:
over a tree no command stops the model (spec/70_reset_and_hazards.md R268). -/

namespace Sys2Proof.Machine

/-- Settles O8: the step runs the word, which decodes to the command. -/
theorem stepRunsTheDecodedCommand : Obligations.StepRunsTheDecodedCommand := by
  unfold Obligations.StepRunsTheDecodedCommand
  intro s w rest i hs hd
  rw [step_command hs, runWord, hd]

/-! ### Responses (R82, R86) -/

/-- Only a read answers data (R86). -/
theorem Executes.isRead_of_data {a a' : Arch} {i : Instr} {d : Data} (he : Executes a i a' d) (hd : d ≠ 0) :
    isRead i = true := by
  cases he with
  | rdreg | rdfreq | rdclen | rdcode | rdnw | rdnc => rfl
  | _ => exact absurd rfl hd

/-- Settles O10: an execution answers code 0, and data only for a read; a fault answers its cause and no data. -/
theorem everyCommandGetsOneResponse : Obligations.EveryCommandGetsOneResponse := by
  unfold Obligations.EveryCommandGetsOneResponse
  intro i s t h
  rcases exec_cases h with ⟨_, a, d, he, rfl⟩ | ⟨tr, rfl, _⟩
  · exact ⟨0, d, rfl, rfl, Nat.zero_le _, fun hd => ⟨rfl, he.isRead_of_data hd⟩⟩
  · exact ⟨tr.cause.code, 0, rfl, rfl, tr.cause.code_le, fun hd => absurd rfl hd⟩

/-! ### Arguments out of range (R66, R87 step 3) -/

/-- A read with its argument out of range raises BadArgument, in every state. -/
theorem exec_of_badArgument {i : Instr} {s : State} (hi : isRead i = true) (ha : argumentOk i s.arch = false) :
    exec i s = .next (State.raiseFault ⟨.badArgument, encode i⟩ s) :=
  exec_of_refused (admission_badArgument (fun _ => by simp [passesGate, hi]) ha)

/-- Settles O13: the three reads whose argument R87 step 3 bounds. -/
theorem argumentOutOfRangeRaisesBadArgument : Obligations.ArgumentOutOfRangeRaisesBadArgument := by
  unfold Obligations.ArgumentOutOfRangeRaisesBadArgument
  refine ⟨fun s r hr => ?_, fun s n hn => ⟨?_, ?_⟩⟩
  · exact exec_of_badArgument rfl (by simpa [argumentOk] using hr)
  · exact exec_of_badArgument rfl (by simpa [argumentOk] using hn)
  · exact exec_of_badArgument rfl (by simpa [argumentOk] using hn)

/-! ### The legality table (R94) -/

theorem mem_legalPhases_iff {i : Instr} {p : Phase} : p ∈ legalPhases i.mnemonic ↔ legalIn i p = true := by
  cases i with
  | clear | srcerr | rdreg | rdfreq | rdclen | rdcode | rdnw | rdnc =>
    cases p <;> simp [Instr.mnemonic, legalPhases, legalIn]
  | _ => simp [Instr.mnemonic, legalPhases, legalIn]

/-- A command that some phase refuses has no argument out of range. -/
theorem argumentOk_of_not_legalIn {i : Instr} {p : Phase} (h : legalIn i p = false) (a : Arch) :
    argumentOk i a = true := by
  cases i with
  | rdreg | rdnw | rdnc => cases h
  | _ => rfl

theorem Traps.cause_ne_phaseError {a : Arch} {i : Instr} {tr : Trap} (h : Traps a i tr) : tr.cause ≠ .phaseError := by
  cases h <;> exact nofun

theorem Cause.eq_phaseError_of_code {c : Cause} (h : c.code = 4) : c = .phaseError := by
  cases c with
  | phaseError => rfl
  | _ => exact absurd h (by decide)

/-- Settles O14: with FAULT = 0 the phase is the first check such a command can fail, and only that check answers
PhaseError. -/
theorem phaseLegality : Obligations.PhaseLegality := by
  unfold Obligations.PhaseLegality
  intro i s
  rw [mem_legalPhases_iff]
  refine ⟨fun hf hp => ?_, fun hp t h he => ?_⟩
  · have hl : legalIn i s.arch.phase = false := Bool.eq_false_iff.mpr hp
    exact exec_of_refused (admission_phaseError hf (argumentOk_of_not_legalIn hl _) hl)
  · rcases exec_cases h with ⟨_, a, d, _, rfl⟩ | ⟨tr, rfl, hc⟩
    · rw [respond_lastErr] at he
      exact absurd he (by decide)
    have hcause := Cause.eq_phaseError_of_code he
    rcases hc with ⟨c, hc, rfl⟩ | ⟨_, ht⟩
    · obtain rfl : c = .phaseError := hcause
      rcases admission_some hc with ⟨hc, _⟩ | ⟨hc, _⟩ | ⟨_, _, hl⟩ | ⟨hc, _⟩
      · cases hc
      · cases hc
      · exact absurd (hp.symm.trans hl) (by decide)
      · cases hc
    · exact ht.cause_ne_phaseError hcause

/-! ### Progress (R268) -/

section Progress

variable {a : Arch}

theorem walk_of_leaf {fuel x : Nat} {p : List Bool} (hl : (a.nodeAt x).leaf = true) :
    walk a.node (fuel + 1) x p = some [((a.nodeAt x).sym, p)] := by
  rw [Arch.nodeAt] at hl ⊢
  simp [walk, hl]

theorem walk_of_children {fuel x : Nat} {p : List Bool} {ls rs : List (Sym × List Bool)}
    (hl : (a.nodeAt x).leaf = false) (hls : walk a.node fuel (a.nodeAt x).left.toNat (p ++ [false]) = some ls)
    (hrs : walk a.node fuel (a.nodeAt x).right.toNat (p ++ [true]) = some rs) :
    walk a.node (fuel + 1) x p = some (ls ++ rs) := by
  rw [Arch.nodeAt] at hl hls hrs
  simp [walk, hl, hls, hrs]

/-- Children have lower handles, so with more fuel than the handle the walk of a tree ends. -/
theorem TreeOk.walk_ends (h : TreeOk a) {fuel x : Nat} (hf : x < fuel) (hx : x < a.nnode.toNat) (p : List Bool) :
    ∃ cs, walk a.node fuel x p = some cs := by
  induction fuel generalizing x p with
  | zero => exact absurd hf (Nat.not_lt_zero x)
  | succ f ih =>
    cases hl : (a.nodeAt x).leaf with
    | true => exact ⟨_, walk_of_leaf hl⟩
    | false =>
      have hchild (bit : Bool) (q : List Bool) :
          ∃ cs, walk a.node f (bif bit then (a.nodeAt x).right else (a.nodeAt x).left).toNat q = some cs := by
        have hlt := h.child_lt hx hl bit
        exact ih (by omega) (hlt.trans hx) q
      obtain ⟨ls, hls⟩ := hchild false (p ++ [false])
      obtain ⟨rs, hrs⟩ := hchild true (p ++ [true])
      exact ⟨_, walk_of_children hl hls hrs⟩

/-- GENCODE's codes are defined over a tree. -/
theorem TreeOk.codes_ne_none (h : TreeOk a) : codes a ≠ none := by
  have hroot := h.root
  have hpos := h.nnode_pos
  obtain ⟨cs, hw⟩ := h.walk_ends (x := a.root.toNat) (fuel := a.nnode.toNat) (by omega) (by omega) []
  simp [codes, hw]

/-- BUILD's queue ends with a member where FREQ lists a symbol. -/
theorem Bookkeeping.buildTree_pq_ne_nil (h : Bookkeeping a) (hk : a.kdist ≠ 0) : (buildTree a.node a.freq).pq ≠ [] :=
  fun hq => by simpa [hq] using (buildTree_counts a.node (h.freq_ne_nil hk)).1

end Progress

/-- An admitted command alone can stop the model. -/
theorem admission_of_exec_fault {i : Instr} {s : State} {f : Fault} (h : exec i s = .fault f) :
    admission i s.arch = none := by
  cases ha : admission i s.arch with
  | none => rfl
  | some c => simp [exec_of_refused ha] at h

/-- Over a tree every command completes. -/
theorem TreeInv.exec_completes {s : State} (h : TreeInv s.arch) (i : Instr) : ∃ t, exec i s = .next t := by
  cases hx : exec i s with
  | next t => exact ⟨t, rfl⟩
  | refused r => exact absurd hx (exec_ne_refused i s r)
  | fault f =>
    obtain ⟨-, -, hl, -⟩ := admission_eq_none.mp (admission_of_exec_fault hx)
    rcases exec_fault hx with ⟨-, -, hk, hq⟩ | ⟨-, rfl, hc⟩
    · exact absurd hq (h.book.buildTree_pq_ne_nil hk)
    · have hp : s.arch.phase = .tree := by simpa [legalIn] using hl
      exact absurd hc (h.tree (by simp [hp])).codes_ne_none

/-- Settles O60: waiting, reset and an illegal word answer in every state, and a command completes over a tree. -/
theorem stepNeverStops : Obligations.StepNeverStops := by
  unfold Obligations.StepNeverStops
  intro s h
  cases hi : s.inbox with
  | nil => exact ⟨s, by simp [step, nextMove, hi, wait]⟩
  | cons m rest =>
    cases m with
    | reset | abandoned => exact ⟨State.clearRun { s with inbox := rest }, by simp [step, nextMove, hi, resetMove]⟩
    | command w =>
      rw [step_command hi, runWord]
      cases decode w with
      | ok i => exact TreeInv.exec_completes (s := { s with inbox := rest }) h i
      | error _ => exact ⟨_, rfl⟩

end Sys2Proof.Machine
end

section
/-! PROOF. The symbol extractor and the histogram (spec/40_extractor_histogram.md): the first byte of a pair is held
(R110), a count at its limit overflows in both passes (R114, R173), and counting does not depend on the order (R117). -/

namespace Sys2Proof.Machine

/-! ### The four pushes admitted (R94) -/

section Admitted

variable {a : Arch}

theorem admission_cntb (hf : a.fault = false) (hp : a.phase = .count) (b : Byte) : admission (.cntb b) a = none :=
  admission_of_noFault hf rfl (by simp [legalIn, hp]) nofun

theorem admission_cnth (hf : a.fault = false) (hp : a.phase = .count) (hh : a.half = false) (sym : Sym) :
    admission (.cnth sym) a = none :=
  admission_of_noFault hf rfl (by simp [legalIn, hp]) fun _ => hh

theorem admission_encb (hf : a.fault = false) (hp : a.phase = .enc) (b : Byte) : admission (.encb b) a = none :=
  admission_of_noFault hf rfl (by simp [legalIn, hp]) nofun

theorem admission_ench (hf : a.fault = false) (hp : a.phase = .enc) (hh : a.half = false) (sym : Sym) :
    admission (.ench sym) a = none :=
  admission_of_noFault hf rfl (by simp [legalIn, hp]) fun _ => hh

end Admitted

/-! ### The first byte of a pair (R110) -/

/-- Settles O22: with HALF = 0 each byte push, admitted in its phase, holds the byte. -/
theorem firstByteOfPairIsHeld : Obligations.FirstByteOfPairIsHeld := by
  unfold Obligations.FirstByteOfPairIsHeld
  intro s b hf hh
  refine ⟨fun hp => ?_, fun hp => ?_⟩
  · exact exec_of_executes (admission_cntb hf hp b) (.cntbFirst b hh)
  · exact exec_of_executes (admission_encb hf hp b) (.encbFirst b hh)

/-! ### CountOverflow (R114, R173) -/

/-- An execution fault met with FAULT = 0 writes its record, answers its cause, and changes nothing else (R233). -/
theorem exec_of_traps_of_noFault {i : Instr} {s : State} {tr : Trap} (hf : s.arch.fault = false)
    (ha : admission i s.arch = none) (h : Traps s.arch i tr) :
    exec i s = .next (State.respond tr.cause.code 0 { s with arch := { s.arch with
      fault := true, fcause := tr.cause.code, finfo := tr.info } }) := by
  rw [exec_of_traps ha h, State.raiseFault, recordFault_of_noFault tr hf]

/-- Settles O40: each push, admitted in its phase, raises the overflow of its pass. -/
theorem countOverflowChangesNothingElse : Obligations.CountOverflowChangesNothingElse := by
  unfold Obligations.CountOverflowChangesNothingElse
  intro s hf
  refine ⟨fun hp hn => ⟨fun hh sym => ?_, fun hh b => ?_⟩, fun hp hn sym hl => ⟨fun hh => ?_, fun hh b hsym => ?_⟩⟩
  · exact exec_of_traps_of_noFault hf (admission_cnth hf hp hh sym) (.cnthOverflow sym hn)
  · exact exec_of_traps_of_noFault hf (admission_cntb hf hp b) (.cntbOverflow b hh hn)
  · exact exec_of_traps_of_noFault hf (admission_ench hf hp hh sym) (.enchOverflow sym hl hn)
  · obtain rfl := eq_pairBytes hsym
    exact exec_of_traps_of_noFault hf (admission_encb hf hp b) (.encbOverflow b hh hl hn)

/-! ### Two symbols counted in either order -/

/-- Writes of a canonical memory at two indices commute, as data and not only as they read. -/
theorem write_comm {α : Type} [DecidableEq α] {z v w : α} {b i j : Nat} {m : Memory α}
    (h : Memory.wf z b m = true) (hi : i < b) (hj : j < b) (hne : i ≠ j) :
    Memory.write z (Memory.write z m i v) j w = Memory.write z (Memory.write z m j w) i v := by
  refine ext_of_wf (wf_write (wf_write h hi) hj) (wf_write (wf_write h hj) hi) fun k => ?_
  simp only [read_write]
  grind

section Counted

variable {a : Arch} {x y : Sym}

/-- Counting a symbol keeps FREQ canonical. -/
theorem wf_freq_counted (h : Memory.wf 0 Config.numSymbols a.freq = true) (x : Sym) :
    Memory.wf 0 Config.numSymbols (counted x a).freq = true := wf_write h x.isLt

theorem freqAt_counted_of_ne (h : x ≠ y) : (counted y a).freqAt x = a.freqAt x :=
  read_write_ne fun he => h (BitVec.eq_of_toNat_eq he)

/-- Two different symbols counted: neither count reads what the other writes in FREQ. -/
theorem counted_counted_of_ne (h : x ≠ y) : counted x (counted y a) = { a with
    freq := Memory.write 0 (Memory.write 0 a.freq y.toNat (a.freqAt y + 1)) x.toNat (a.freqAt x + 1)
    kdist := a.kdist + (if a.freqAt y = 0 then 1 else 0) + (if a.freqAt x = 0 then 1 else 0)
    nsym := a.nsym + 1 + 1 } := by
  rw [counted, freqAt_counted_of_ne h]
  simp only [counted, add_ite, add_zero]

theorem counted_comm (h : Memory.wf 0 Config.numSymbols a.freq = true) (x y : Sym) :
    counted x (counted y a) = counted y (counted x a) := by
  obtain rfl | hne := eq_or_ne x y
  · rfl
  have hindex : x.toNat ≠ y.toNat := fun he => hne (BitVec.eq_of_toNat_eq he)
  rw [counted_counted_of_ne hne, counted_counted_of_ne hne.symm, write_comm h x.isLt y.isLt hindex,
    add_right_comm a.kdist]

end Counted

/-! ### Counting a list of symbols (R117) -/

/-- A state in which CNTH counts every symbol: admitted (R87) and below CNTMAX (R114). No symbol enters. -/
structure AcceptsSymbol (a : Arch) : Prop where
  noFault : a.fault = false
  phase   : a.phase = .count
  whole   : a.half = false
  below   : a.nsym.toNat ≠ Config.cntMax

/-- The machine after CNTH has counted the symbol. -/
def countSym (sym : Sym) (s : State) : State := State.respond 0 0 { s with arch := counted sym s.arch }

section Runs

variable {s t : State} {l l' : List Sym}

/-- CNTH ends without a fault exactly where the state accepts a symbol, and then it has counted it. -/
theorem exec_cnth_noFault_iff (ht : t.arch.fault = false) (sym : Sym) :
    exec (.cnth sym) s = .next t ↔ AcceptsSymbol s.arch ∧ countSym sym s = t := by
  constructor
  · intro h
    rcases exec_cases h with ⟨ha, a, d, he, rfl⟩ | ⟨tr, rfl, -⟩
    · obtain ⟨-, -, hl, hw⟩ := admission_eq_none.mp ha
      cases he with | cnth _ hn => exact ⟨⟨ht, by simpa [legalIn] using hl, hw rfl, hn⟩, rfl⟩
    · exact absurd ht (by simp)
  · rintro ⟨⟨hf, hp, hh, hn⟩, rfl⟩
    exact exec_of_executes (admission_cnth hf hp hh sym) (.cnth sym hn)

theorem runAll_cons_eq_next {i : Instr} {is : List Instr} :
    runAll (i :: is) s = .next t ↔ ∃ u, exec i s = .next u ∧ runAll is u = .next t := by
  rw [runAll]
  cases exec i s <;> simp

/-- No CNTH of a list leaves the faulted state (R236, R238). -/
theorem noFault_of_runAll_cnth (h : runAll (l.map .cnth) s = .next t) (ht : t.arch.fault = false) :
    s.arch.fault = false := by
  induction l generalizing s with
  | nil =>
    obtain rfl := Host.Outcome.next.inj h
    exact ht
  | cons x l ih =>
    obtain ⟨u, hu, hrun⟩ := runAll_cons_eq_next.mp h
    obtain ⟨haccepts, -⟩ := (exec_cnth_noFault_iff (ih hrun) x).mp hu
    exact haccepts.noFault

theorem runAll_cnth_cons_iff (ht : t.arch.fault = false) (x : Sym) :
    runAll ((x :: l).map .cnth) s = .next t ↔ AcceptsSymbol s.arch ∧ runAll (l.map .cnth) (countSym x s) = .next t := by
  rw [List.map_cons, runAll_cons_eq_next]
  constructor
  · rintro ⟨u, hu, hrun⟩
    obtain ⟨haccepts, rfl⟩ := (exec_cnth_noFault_iff (noFault_of_runAll_cnth hrun ht) x).mp hu
    exact ⟨haccepts, hrun⟩
  · rintro ⟨haccepts, hrun⟩
    exact ⟨_, (exec_cnth_noFault_iff (noFault_of_runAll_cnth hrun ht) x).mpr ⟨haccepts, rfl⟩, hrun⟩

/-- Whether a second symbol is accepted does not depend on the first. -/
theorem AcceptsSymbol.of_other {y : Sym} (h : AcceptsSymbol (countSym y s).arch) (x : Sym) :
    AcceptsSymbol (countSym x s).arch := ⟨h.noFault, h.phase, h.whole, h.below⟩

theorem countSym_comm (h : Memory.wf 0 Config.numSymbols s.arch.freq = true) (x y : Sym) :
    countSym x (countSym y s) = countSym y (countSym x s) :=
  congrArg (fun a => State.respond 0 0 (State.respond 0 0 { s with arch := a })) (counted_comm h x y)

/-- Induction over the permutation: both runs count a common head first, and at a swap the two counts commute. -/
theorem runAll_cnth_of_perm (hp : l.Perm l') (hwf : Memory.wf 0 Config.numSymbols s.arch.freq = true)
    (ht : t.arch.fault = false) (h : runAll (l.map .cnth) s = .next t) : runAll (l'.map .cnth) s = .next t := by
  induction hp generalizing s with
  | nil => exact h
  | cons x _ ih =>
    obtain ⟨haccepts, hrun⟩ := (runAll_cnth_cons_iff ht x).mp h
    exact (runAll_cnth_cons_iff ht x).mpr ⟨haccepts, ih (wf_freq_counted hwf x) hrun⟩
  | swap x y l =>
    simp only [runAll_cnth_cons_iff ht] at h ⊢
    obtain ⟨haccepts, hnext, hrun⟩ := h
    exact ⟨haccepts, hnext.of_other x, countSym_comm hwf x y ▸ hrun⟩
  | trans _ _ ih ih' => exact ih' hwf (ih hwf h)

end Runs

/-- Settles O25: two counts commute where FREQ is canonical, and every count keeps it so. -/
theorem countingIsOrderIndependent : Obligations.CountingIsOrderIndependent := by
  unfold Obligations.CountingIsOrderIndependent
  intro s t l l' hwf hp h ht
  exact runAll_cnth_of_perm hp hwf ht h

end Sys2Proof.Machine
end

section
/-! PROOF. BUILD (spec/41_tree_builder.md): what it answers and writes (R134 to R137), that the tree is a function of
the histogram alone (R139), and that leaf creation scans all symbols (R130). -/

namespace Sys2Proof.Machine

/-! ### The scan of a canonical memory (R130, R177) -/

section Scan

variable {α : Type} [DecidableEq α] {z : α} {m : Memory α} {lo b : Nat}

/-- The entries listed are those at the indices that do not hold the reset value. -/
theorem mem_iff_of_wfFrom (h : Memory.wfFrom z b lo m = true) {e : Nat × α} :
    e ∈ m ↔ e.1 < b ∧ Memory.read z m e.1 ≠ z ∧ (e.1, Memory.read z m e.1) = e := by
  constructor
  · intro he
    obtain ⟨-, hb, hne⟩ := wfFrom_mem h e he
    rw [read_of_mem h he]
    exact ⟨hb, hne, rfl⟩
  · rintro ⟨-, hne, he⟩
    exact he ▸ mem_of_read_ne hne

/-- The entry that the scan of all indices keeps at an index. -/
def scanEntry (z : α) (m : Memory α) (i : Nat) : Option (Nat × α) :=
  if Memory.read z m i = z then none else some (i, Memory.read z m i)

theorem scanEntry_eq_some {i : Nat} {e : Nat × α} :
    scanEntry z m i = some e ↔ Memory.read z m i ≠ z ∧ (i, Memory.read z m i) = e := by
  rw [scanEntry]
  split <;> simp [*]

theorem mem_scan {e : Nat × α} : e ∈ (List.range b).filterMap (scanEntry z m) ↔
    e.1 < b ∧ Memory.read z m e.1 ≠ z ∧ (e.1, Memory.read z m e.1) = e := by
  simp only [List.mem_filterMap, List.mem_range, scanEntry_eq_some]
  constructor
  · rintro ⟨i, hi, hne, rfl⟩
    exact ⟨hi, hne, rfl⟩
  · exact fun ⟨hb, hne, he⟩ => ⟨e.1, hb, hne, he⟩

theorem scan_sorted : ((List.range b).filterMap (scanEntry z m)).Pairwise fun x y => x.1 < y.1 := by
  refine List.pairwise_lt_range.filterMap _ fun i j hij x hx y hy => ?_
  obtain ⟨-, rfl⟩ := scanEntry_eq_some.mp hx
  obtain ⟨-, rfl⟩ := scanEntry_eq_some.mp hy
  exact hij

/-- Both lists rise in their indices and have the same entries. -/
theorem eq_scan_of_wf (h : Memory.wf z b m = true) : m = (List.range b).filterMap (scanEntry z m) := by
  have hm := wfFrom_sorted h
  have hs := scan_sorted (z := z) (m := m) (b := b)
  have hnodup {l : List (Nat × α)} (hl : l.Pairwise fun x y => x.1 < y.1) : l.Nodup :=
    hl.imp fun hlt he => absurd hlt (by simp [he])
  refine List.Perm.eq_of_pairwise (fun x y _ _ hxy hyx => absurd hxy hyx.asymm) hm hs ?_
  refine (List.perm_ext_iff_of_nodup (hnodup hm) (hnodup hs)).mpr fun e => ?_
  rw [mem_iff_of_wfFrom h, mem_scan]

end Scan

/-- Settles O26: the scan rises like the list, and keeps the same entries. -/
theorem listedEntriesAreTheScan : Obligations.ListedEntriesAreTheScan := by
  unfold Obligations.ListedEntriesAreTheScan
  intro b m h
  exact eq_scan_of_wf h

/-! ### BUILD (R134, R137) -/

theorem admission_build {a : Arch} (hf : a.fault = false) (hp : a.phase = .count) : admission .build a = none :=
  admission_of_noFault hf rfl (by simp [legalIn, hp]) nofun

/-- Settles O27: BUILD is admitted, and its first check fails. -/
theorem buildOnEmptyHistogramRaisesEmptyInput : Obligations.BuildOnEmptyHistogramRaisesEmptyInput := by
  unfold Obligations.BuildOnEmptyHistogramRaisesEmptyInput
  intro s hf hp hk
  exact exec_of_traps_of_noFault hf (admission_build hf hp) (.emptyInput hk)

/-- The state that BUILD leaves, its loops ended with the queue `r :: q` (R134). -/
def built (a : Arch) (r : QEntry) : Arch := { a with
  half := false, node := (buildTree a.node a.freq).node, nnode := BitVec.ofNat 17 (buildTree a.node a.freq).next,
  root := BitVec.ofNat 17 r.handle, phase := .tree }

/-- BUILD on a histogram that is not empty executes: the queue ends with a member (R134). -/
theorem exec_build {s : State} (h : Bookkeeping s.arch) (hf : s.arch.fault = false) (hp : s.arch.phase = .count)
    (hk : s.arch.kdist ≠ 0) : ∃ r q, (buildTree s.arch.node s.arch.freq).pq = r :: q ∧
      exec .build s = .next (State.respond 0 0 { s with arch := built s.arch r }) := by
  obtain ⟨r, q, hq⟩ := List.exists_cons_of_ne_nil (h.buildTree_pq_ne_nil hk)
  exact ⟨r, q, hq, exec_of_executes (admission_build hf hp) (.build r q hk hq)⟩

/-- Settles O28: BUILD executes, and the arena its loops leave is the tree. -/
theorem buildMakesTheTree : Obligations.BuildMakesTheTree := by
  unfold Obligations.BuildMakesTheTree
  intro s h hf hp hk
  obtain ⟨r, q, hq, hexec⟩ := exec_build h hf hp hk
  exact ⟨_, _, _, hexec, .of_build h hp hk hq⟩

/-- Settles O30: BUILD starts from an empty arena, so FREQ is all that its loops read. -/
theorem treeDependsOnHistogramAlone : Obligations.TreeDependsOnHistogramAlone := by
  unfold Obligations.TreeDependsOnHistogramAlone
  intro s s' t h h' hf hf' hp hp' hfreq hk hexec
  have hk' : s'.arch.kdist ≠ 0 := by
    have hkdist : s'.arch.kdist = s.arch.kdist := BitVec.eq_of_toNat_eq (by rw [h'.kdist, h.kdist, hfreq])
    rwa [hkdist]
  obtain ⟨r, q, hq, hr⟩ := exec_build h hf hp hk
  obtain ⟨r', q', hq', hr'⟩ := exec_build h' hf' hp' hk'
  have hnode : s'.arch.node = s.arch.node := (h'.noTree hp').1.trans (h.noTree hp).1.symm
  rw [hnode, ← hfreq, hq] at hq'
  obtain ⟨rfl, -⟩ := List.cons.inj hq'
  obtain rfl := Host.Outcome.next.inj (hexec.symm.trans hr)
  exact ⟨_, hr', by simp [built, hnode, hfreq]⟩

/-! ### One symbol (R136) -/

/-- BUILD's loops over one entry create its leaf and merge nothing. -/
theorem buildTree_singleton (sym : Sym) (n : Count) : buildTree [] [(sym.toNat, n)] =
    ⟨[(0, ⟨true, n, sym, 0, 0⟩)], [⟨n, 0⟩], 1⟩ := by
  simp [buildTree, Builder.mergeTimes, Builder.addLeaf, Builder.create, enqueue, Memory.write, Memory.insert, Node.zero]

/-- With KDIST = 1 FREQ lists the one symbol present, counted NSYM times (R40 items 1 and 2). -/
theorem Bookkeeping.freq_of_kdist_one {a : Arch} (h : Bookkeeping a) (hk : a.kdist = 1) {sym : Sym}
    (hs : a.freqAt sym ≠ 0) : a.freq = [(sym.toNat, a.nsym)] := by
  have hlen : a.freq.length = 1 := by rw [← h.kdist, hk]; rfl
  obtain ⟨e, he⟩ := List.length_eq_one_iff.mp hlen
  have hmem := mem_of_read_ne hs
  rw [he, List.mem_singleton] at hmem
  have hsym : e.1 = sym.toNat := (congrArg Prod.fst hmem).symm
  have hnsym : e.2 = a.nsym := BitVec.eq_of_toNat_eq (by simp [h.nsym, he])
  rw [he, ← hsym, ← hnsym]

/-- Settles O29: FREQ lists the one symbol, and BUILD's loops over one entry leave its leaf. -/
theorem buildOfOneSymbolIsItsLeaf : Obligations.BuildOfOneSymbolIsItsLeaf := by
  unfold Obligations.BuildOfOneSymbolIsItsLeaf
  intro s sym h hf hp hk hs
  have htree : buildTree s.arch.node s.arch.freq = ⟨[(0, ⟨true, s.arch.nsym, sym, 0, 0⟩)], [⟨s.arch.nsym, 0⟩], 1⟩ := by
    rw [(h.noTree hp).1, h.freq_of_kdist_one hk hs, buildTree_singleton]
  obtain ⟨r, q, hq, hexec⟩ := exec_build h hf hp (by rw [hk]; decide)
  rw [htree] at hq
  obtain ⟨rfl, -⟩ := List.cons.inj hq
  rw [hexec, built, htree]
  rfl

end Sys2Proof.Machine
end

section
/-! PROOF. Sums over the tree (spec/41_tree_builder.md R138, R140): nodes are extracted in the order of their weights,
every node but the root is counted once as a child, and so the leaves' weighted depths sum to the internal weights. -/

namespace Sys2Proof.Machine

/-- The weight of a node, as a number. -/
def Arch.weight (a : Arch) (i : Nat) : Nat := (a.nodeAt i).wt.toNat

/-- A child of a node: the right one for 1, the left one for 0, as in a path (R150). -/
def Arch.child (a : Arch) (p : Nat) (bit : Bool) : Nat := (bif bit then (a.nodeAt p).right else (a.nodeAt p).left).toNat

section Tree

variable {a : Arch} {p q : Nat}

/-! ### The order of extraction (R131, R132, R140) -/

theorem ArenaBefore.weight_le {i j : Nat} (h : ArenaBefore a i j) : a.weight i ≤ a.weight j := by
  rcases h with h | ⟨h, -⟩
  · exact h.le
  · exact (congrArg BitVec.toNat h).le

/-- The weight of an internal node is the sum of its children's (R133). -/
theorem TreeOk.weight_eq (h : TreeOk a) (hk : a.kdist.toNat ≤ p) (hp : p < a.nnode.toNat) :
    a.weight p = a.weight (a.child p false) + a.weight (a.child p true) := by
  obtain ⟨-, -, -, -, hwt⟩ := h.internal p hk hp
  exact hwt

theorem TreeOk.left_weight_le_right (h : TreeOk a) (hk : a.kdist.toNat ≤ p) (hp : p < a.nnode.toNat) :
    a.weight (a.child p false) ≤ a.weight (a.child p true) := (h.siblings p hk hp).weight_le

/-- What a merge step extracts is no lighter than what an earlier one did. -/
theorem TreeOk.right_weight_le_later_left (h : TreeOk a) (hk : a.kdist.toNat ≤ p) (hpq : p < q)
    (hq : q < a.nnode.toNat) : a.weight (a.child p true) ≤ a.weight (a.child q false) := by
  induction q, hpq using Nat.le_induction with
  | base => exact (h.extracted p hk hq).weight_le
  | succ q hpq ih =>
    have hkq : a.kdist.toNat ≤ q := by omega
    exact ((ih (by omega)).trans (h.left_weight_le_right hkq (by omega))).trans (h.extracted q hkq hq).weight_le

end Tree

/-- Settles O31: the children of a later node were extracted later, and a weight is the sum of the children's. -/
theorem internalWeightsRise : Obligations.InternalWeightsRise := by
  unfold Obligations.InternalWeightsRise
  intro a p q h hk hpq hq
  rcases Nat.eq_or_lt_of_le hpq with rfl | hlt
  · exact Nat.le_refl _
  have hleft := h.left_weight_le_right hk (hlt.trans hq)
  have hlater := h.right_weight_le_later_left hk hlt hq
  have hright := h.left_weight_le_right (hk.trans hpq) hq
  calc a.weight p = a.weight (a.child p false) + a.weight (a.child p true) := h.weight_eq hk (hlt.trans hq)
    _ ≤ a.weight (a.child q false) + a.weight (a.child q true) := by omega
    _ = a.weight q := (h.weight_eq (hk.trans hpq) hq).symm

/-! ### Children -/

section Children

variable {a : Arch} {p q : Nat} {bit bit' : Bool}

/-- The internal nodes. -/
def Arch.internals (a : Arch) : Finset Nat := Finset.Ico a.kdist.toNat a.nnode.toNat

theorem mem_internals : p ∈ a.internals ↔ a.kdist.toNat ≤ p ∧ p < a.nnode.toNat := Finset.mem_Ico

theorem TreeOk.internal_leaf (h : TreeOk a) (hp : p ∈ a.internals) : (a.nodeAt p).leaf = false := by
  obtain ⟨hk, hn⟩ := mem_internals.mp hp
  exact (h.internal p hk hn).1

theorem TreeOk.child_lt_self (h : TreeOk a) (hp : p ∈ a.internals) (bit : Bool) : a.child p bit < p :=
  h.child_lt (mem_internals.mp hp).2 (h.internal_leaf hp) bit

theorem TreeOk.child_inj (h : TreeOk a) (hp : p ∈ a.internals) (hq : q ∈ a.internals)
    (he : a.child p bit = a.child q bit') : p = q ∧ bit = bit' :=
  h.step_unique (mem_internals.mp hp).2 (mem_internals.mp hq).2 (h.internal_leaf hp) (h.internal_leaf hq) he

/-- Every node but the root is a child (R40 item 7). -/
theorem TreeOk.exists_child_eq (h : TreeOk a) {i : Nat} (hi : i + 1 < a.nnode.toNat) :
    ∃ p ∈ a.internals, ∃ bit, a.child p bit = i := by
  obtain ⟨p, ⟨hk, hp, hc⟩, -⟩ := h.parent i hi
  refine ⟨p, mem_internals.mpr ⟨hk, hp⟩, ?_⟩
  rcases hc with hc | hc
  · exact ⟨false, hc⟩
  · exact ⟨true, hc⟩

/-- A sum over all nodes but the root is a sum over the children of the internal nodes. -/
theorem TreeOk.sum_children (h : TreeOk a) (f : Nat → Nat) :
    ∑ i ∈ Finset.range (a.nnode.toNat - 1), f i =
      ∑ p ∈ a.internals, (f (a.child p false) + f (a.child p true)) := by
  have hbool (p : Nat) : f (a.child p false) + f (a.child p true) = ∑ bit, f (a.child p bit) := by
    rw [Fintype.sum_bool, Nat.add_comm]
  simp only [hbool]
  rw [← Finset.sum_product']
  symm
  refine Finset.sum_nbij (fun c => a.child c.1 c.2) (fun c hc => ?_) (fun c hc d hd he => ?_) (fun i hi => ?_)
    fun _ _ => rfl
  · have hp := (Finset.mem_product.mp hc).1
    have := h.child_lt_self hp c.2
    have := (mem_internals.mp hp).2
    rw [Finset.mem_range]
    omega
  · obtain ⟨hp, hb⟩ := h.child_inj (Finset.mem_product.mp hc).1 (Finset.mem_product.mp hd).1 he
    exact Prod.ext hp hb
  · have hi : i < a.nnode.toNat - 1 := Finset.mem_range.mp hi
    obtain ⟨p, hp, bit, hc⟩ := h.exists_child_eq (i := i) (by omega)
    exact ⟨(p, bit), Finset.mem_coe.mpr (Finset.mem_product.mpr ⟨hp, Finset.mem_univ _⟩), hc⟩

/-! ### Depths -/

open Classical in
/-- The depth of a node: the length of its path (R150), which over a tree is one. -/
noncomputable def Arch.depth (a : Arch) (x : Nat) : Nat :=
  if h : ∃ p, Path a x p then h.choose.length else 0

theorem TreeOk.depth_of_path (h : TreeOk a) {x : Nat} {l : List Bool} (hl : Path a x l) : a.depth x = l.length := by
  have hex : ∃ p, Path a x p := ⟨l, hl⟩
  rw [Arch.depth, dif_pos hex, h.path_unique hex.choose_spec hl]

theorem TreeOk.depth_root (h : TreeOk a) : a.depth a.root.toNat = 0 := h.depth_of_path .root

theorem TreeOk.depth_child (h : TreeOk a) (hp : p ∈ a.internals) (bit : Bool) :
    a.depth (a.child p bit) = a.depth p + 1 := by
  obtain ⟨l, hl⟩ := h.exists_path (mem_internals.mp hp).2
  have hc : Path a (a.child p bit) (l ++ [bit]) := by
    cases bit
    · exact .left p l hl (h.internal_leaf hp)
    · exact .right p l hl (h.internal_leaf hp)
  rw [h.depth_of_path hc, h.depth_of_path hl, List.length_append, List.length_singleton]

theorem TreeOk.kdist_le_nnode (h : TreeOk a) : a.kdist.toNat ≤ a.nnode.toNat := by
  have := h.nnode
  have := h.kdist_pos
  omega

/-- The weighted depths of all nodes, counted as children, are those of the internal nodes with each of their weights
once more; so the leaves' are the internal weights (R138). -/
theorem TreeOk.sum_leaf_depths (h : TreeOk a) :
    ∑ x ∈ Finset.range a.kdist.toNat, a.weight x * a.depth x = ∑ p ∈ a.internals, a.weight p := by
  have hroot : a.weight (a.nnode.toNat - 1) * a.depth (a.nnode.toNat - 1) = 0 := by
    rw [← h.root, h.depth_root, Nat.mul_zero]
  have hsplit := Finset.sum_range_add_sum_Ico (fun x => a.weight x * a.depth x) h.kdist_le_nnode
  have hchildren : ∑ x ∈ Finset.range a.nnode.toNat, a.weight x * a.depth x =
      ∑ p ∈ a.internals, a.weight p + ∑ p ∈ a.internals, a.weight p * a.depth p := by
    rw [← Nat.sub_add_cancel h.nnode_pos, Finset.sum_range_succ, hroot, Nat.add_zero, h.sum_children,
      ← Finset.sum_add_distrib]
    refine Finset.sum_congr rfl fun p hp => ?_
    obtain ⟨hk, hn⟩ := mem_internals.mp hp
    rw [h.depth_child hp, h.depth_child hp, h.weight_eq hk hn]
    ring
  exact Nat.add_right_cancel (hsplit.trans hchildren)

end Children

/-! ### Sums over the symbols present -/

section Symbols

variable {a : Arch}

/-- A sum over the entries of FREQ is a sum over the leaves (R130). -/
theorem TreeInv.sum_freq (h : TreeInv a) (hp : a.phase ≠ .count) (f : Nat × Count → Nat) :
    (a.freq.map f).sum =
      ∑ x ∈ Finset.range a.kdist.toNat, f ((a.nodeAt x).sym.toNat, (a.nodeAt x).wt) := by
  rw [← Fin.sum_univ_fun_getElem, h.book.kdist, Finset.sum_range]
  refine Finset.sum_congr rfl fun x _ => congrArg f ?_
  obtain ⟨e, he, hn⟩ := (h.tree hp).leaf x (by rw [h.book.kdist]; exact x.isLt)
  obtain ⟨_, rfl⟩ := List.getElem?_eq_some_iff.mp he
  rw [hn, toNat_ofNat_of_mem h.book.memories (List.getElem_mem _)]

theorem codeOf_length (a : Arch) (s : Sym) : (a.codeOf s).length = (a.clenAt s).toNat := by simp [Arch.codeOf]

/-- For two symbols or more the code length of a leaf's symbol is the leaf's depth (R153). -/
theorem Inv.clen_of_leaf (h : Inv a) (hp : a.phase ≠ .count) (hp' : a.phase ≠ .tree) (h2 : 2 ≤ a.kdist.toNat) {x : Nat}
    (hx : x < a.kdist.toNat) : (a.clenAt (a.nodeAt x).sym).toNat = a.depth x := by
  have ht := h.base.tree hp
  have hnn := ht.nnode
  obtain ⟨p, hpath, hcode⟩ := (h.code hp hp').paths x hx
  rw [if_neg (by omega)] at hcode
  rw [← codeOf_length, hcode, ht.depth_of_path hpath]

/-- The encoded length of the histogram is the sum of the internal weights (R138). -/
theorem Inv.weightedLength_eq (h : Inv a) (hp : a.phase ≠ .count) (hp' : a.phase ≠ .tree) (h2 : 2 ≤ a.kdist.toNat) :
    weightedLength a = ∑ p ∈ a.internals, a.weight p := by
  rw [weightedLength, h.base.sum_freq hp, ← (h.base.tree hp).sum_leaf_depths]
  refine Finset.sum_congr rfl fun x hx => ?_
  rw [← h.clen_of_leaf hp hp' h2 (Finset.mem_range.mp hx)]
  rfl

end Symbols

/-- Settles O32: a code length is a depth, and the weighted depths of the leaves are the internal weights. -/
theorem weightedLengthIsSumOfInternalWeights : Obligations.WeightedLengthIsSumOfInternalWeights := by
  unfold Obligations.WeightedLengthIsSumOfInternalWeights
  intro a h hp hp' h2
  have hfilter : (Finset.range a.nnode.toNat).filter (a.kdist.toNat ≤ ·) = a.internals := by
    ext p
    simp [mem_internals, and_comm]
  rw [h.weightedLength_eq hp hp' h2, ← hfilter, Finset.sum_filter]
  rfl

end Sys2Proof.Machine
end

section
/-! PROOF. The codebook is optimal (spec/41_tree_builder.md R138). Lengths that satisfy Kraft's inequality on the nodes
that a merge step sees can be exchanged so that the two nodes extracted are the longest, and then joined into the node
created; so, merge step by merge step, the internal weights bound from below the cost of every code in which no word
begins with another. -/

namespace Sys2Proof.Machine

/-! ### Kraft's inequality -/

section Kraft

variable {ι : Type}

/-- The lengths are at most `B`, and satisfy Kraft's inequality on `S`, in units of `2^(-B)`. -/
structure Kraft (B : Nat) (S : Finset ι) (len : ι → Nat) : Prop where
  le  : ∀ i ∈ S, len i ≤ B
  sum : ∑ i ∈ S, 2 ^ (B - len i) ≤ 2 ^ B

/-- The summed length of the members of `S` weighted by `w`. -/
def cost (w : ι → Nat) (S : Finset ι) (len : ι → Nat) : Nat := ∑ i ∈ S, w i * len i

/-- A code without the empty word in which no word begins with another is uniquely decodable: two equal texts begin with
the same word. -/
theorem uniquelyDecodable_of_prefixFree {α : Type} {C : Set (List α)} (hnil : [] ∉ C)
    (hfree : ∀ u ∈ C, ∀ v ∈ C, u <+: v → u = v) : InformationTheory.UniquelyDecodable C := by
  have hempty (L : List (List α)) (hL : ∀ u ∈ L, u ∈ C) (he : L.flatten = []) : L = [] := by
    cases L with
    | nil => rfl
    | cons u L =>
      obtain ⟨rfl, -⟩ := List.append_eq_nil_iff.mp he
      exact absurd (hL [] (by simp)) hnil
  intro L
  induction L with
  | nil => exact fun L' _ hL' he => (hempty L' hL' he.symm).symm
  | cons u L ih =>
    intro L' hL hL' he
    cases L' with
    | nil => exact hempty _ hL he
    | cons v L' =>
      rw [List.forall_mem_cons] at hL hL'
      rw [List.flatten_cons, List.flatten_cons] at he
      obtain rfl : u = v := by
        rcases List.prefix_or_prefix_of_prefix (List.prefix_append u L.flatten) (he ▸ List.prefix_append v L'.flatten)
          with h | h
        · exact hfree u hL.1 v hL'.1 h
        · exact (hfree v hL'.1 u hL.1 h).symm
      rw [ih L' hL.2 hL'.2 (List.append_cancel_left he)]

/-- The lengths of two words or more, none of which begins with another, satisfy Kraft's inequality (R13). -/
theorem kraft_of_prefixFree {S : Finset ι} {c : ι → List Bool} (h2 : 1 < S.card)
    (hfree : ∀ i ∈ S, ∀ j ∈ S, i ≠ j → ¬ c i <+: c j) : ∃ B, Kraft B S fun i => (c i).length := by
  classical
  obtain ⟨B, hB⟩ : ∃ B, ∀ i ∈ S, (c i).length ≤ B := ⟨_, fun i hi => Finset.le_sup (f := fun i => (c i).length) hi⟩
  refine ⟨B, hB, ?_⟩
  have hinj : Set.InjOn c S := fun i hi j hj he => by
    by_contra hne
    exact hfree i hi j hj hne (he ▸ List.prefix_refl _)
  have hnil : [] ∉ S.image c := fun hmem => by
    obtain ⟨i, hi, he⟩ := Finset.mem_image.mp hmem
    obtain ⟨j, hj, hne⟩ := Finset.exists_mem_ne h2 i
    exact hfree i hi j hj hne.symm (he ▸ List.nil_prefix)
  have hud : InformationTheory.UniquelyDecodable (S.image c : Set (List Bool)) := by
    refine uniquelyDecodable_of_prefixFree hnil fun u hu v hv huv => ?_
    obtain ⟨i, hi, rfl⟩ := Finset.mem_image.mp hu
    obtain ⟨j, hj, rfl⟩ := Finset.mem_image.mp hv
    by_contra hne
    exact hfree i hi j hj (fun he => hne (he ▸ rfl)) huv
  have hkraft := InformationTheory.kraft_mcmillan_inequality hud
  rw [Finset.sum_image hinj, Fintype.card_bool] at hkraft
  have hunit (i : ι) (hi : i ∈ S) : (2 : ℝ) ^ (B - (c i).length) = 2 ^ B * (1 / ((2 : ℕ) : ℝ)) ^ (c i).length := by
    rw [pow_sub₀ _ two_ne_zero (hB i hi)]
    simp
  have hreal : ((∑ i ∈ S, 2 ^ (B - (c i).length) : ℕ) : ℝ) ≤ ((2 ^ B : ℕ) : ℝ) := by
    push_cast
    rw [Finset.sum_congr rfl hunit, ← Finset.mul_sum]
    exact mul_le_of_le_one_right (by positivity) hkraft
  exact_mod_cast hreal

/-! ### The exchange -/

section Exchange

variable [DecidableEq ι] {w len : ι → Nat} {S T : Finset ι} {B : Nat} {l r z : ι}

/-- Giving a lighter member the greater of two lengths does not raise the cost. -/
theorem cost_swap_le {j : ι} (hr : r ∈ S) (hj : j ∈ S) (hw : w r ≤ w j) (hlen : len r ≤ len j) :
    cost w S (len ∘ Equiv.swap r j) ≤ cost w S len := by
  obtain rfl | hne := eq_or_ne r j
  · simp
  have hje : j ∈ S.erase r := Finset.mem_erase.mpr ⟨hne.symm, hj⟩
  have hrest : ∑ i ∈ (S.erase r).erase j, w i * len (Equiv.swap r j i) = ∑ i ∈ (S.erase r).erase j, w i * len i := by
    refine Finset.sum_congr rfl fun i hi => ?_
    obtain ⟨hij, hir⟩ : i ≠ j ∧ i ≠ r ∧ i ∈ S := by simpa using hi
    rw [Equiv.swap_apply_of_ne_of_ne hir.1 hij]
  have hpair := mul_add_mul_le_mul_add_mul hw hlen
  simp only [cost, Function.comp, ← Finset.add_sum_erase S _ hr, ← Finset.add_sum_erase (S.erase r) _ hje,
    Equiv.swap_apply_left, Equiv.swap_apply_right, hrest]
  omega

/-- An exchange within a set leaves what is outside it. -/
theorem swap_apply_of_notMem {i j : ι} (hr : r ∈ T) (hj : j ∈ T) (hi : i ∉ T) : Equiv.swap r j i = i :=
  Equiv.swap_apply_of_ne_of_ne (fun he => hi (he ▸ hr)) fun he => hi (he ▸ hj)

/-- An exchange of the lengths of two members keeps Kraft's inequality. -/
theorem Kraft.swap {j : ι} (h : Kraft B S len) (hr : r ∈ S) (hj : j ∈ S) : Kraft B S (len ∘ Equiv.swap r j) := by
  have hmem (i : ι) (hi : i ∈ S) : Equiv.swap r j i ∈ S := by
    rw [Equiv.swap_apply_def]
    split_ifs <;> assumption
  refine ⟨fun i hi => h.le _ (hmem i hi), ?_⟩
  have hperm := Equiv.Perm.sum_comp (Equiv.swap r j) S (fun i => 2 ^ (B - len i)) fun i hi => by
    by_contra hS
    exact hi (swap_apply_of_notMem hr hj hS)
  exact hperm.trans_le h.sum

/-- The lightest member of `T` can have the greatest length in `T`, at no greater cost: exchange it with the longest. -/
theorem Kraft.exists_longest (h : Kraft B S len) (hT : T ⊆ S) (hr : r ∈ T) (hw : ∀ i ∈ T, w r ≤ w i) :
    ∃ len', Kraft B S len' ∧ cost w S len' ≤ cost w S len ∧ (∀ i ∈ T, len' i ≤ len' r) ∧
      (∀ i ∉ T, len' i = len i) ∧ ∃ j ∈ T, len' r = len j := by
  obtain ⟨j, hj, hmax⟩ := T.exists_max_image len ⟨r, hr⟩
  refine ⟨len ∘ Equiv.swap r j, h.swap (hT hr) (hT hj), cost_swap_le (hT hr) (hT hj) (hw j hj) (hmax r hr),
    fun i hi => ?_, fun i hi => ?_, j, hj, by simp⟩
  · rw [Function.comp, Function.comp, Equiv.swap_apply_left, Equiv.swap_apply_def]
    split_ifs
    · exact Nat.le_refl _
    · exact hmax r hr
    · exact hmax i hi
  · rw [Function.comp, swap_apply_of_notMem hr hj hi]

/-- Where no other member is longer than `n`, one member may as well have length `n`: the others' sum is a multiple of
`2^(B - n)` below `2^B`. -/
theorem Kraft.sum_erase_add_le (h : Kraft B S len) (hl : l ∈ S) {n : Nat} (hn : n ≤ B)
    (hmax : ∀ i ∈ S.erase l, len i ≤ n) : ∑ i ∈ S.erase l, 2 ^ (B - len i) + 2 ^ (B - n) ≤ 2 ^ B := by
  obtain ⟨k, hk⟩ : 2 ^ (B - n) ∣ ∑ i ∈ S.erase l, 2 ^ (B - len i) :=
    Finset.dvd_sum fun i hi => Nat.pow_dvd_pow 2 (by have := hmax i hi; omega)
  have hB : 2 ^ B = 2 ^ (B - n) * 2 ^ n := by rw [← pow_add, Nat.sub_add_cancel hn]
  have hlt : 2 ^ (B - n) * k < 2 ^ (B - n) * 2 ^ n := by
    have hsum := h.sum
    have hpos := Nat.two_pow_pos (B - len l)
    rw [← Finset.add_sum_erase S _ hl, hk] at hsum
    omega
  rw [hk, hB, ← Nat.mul_succ]
  exact Nat.mul_le_mul_left _ (Nat.lt_of_mul_lt_mul_left hlt)

/-- Two lightest members can be the two longest, at no greater cost. -/
theorem Kraft.exists_longest_two (h : Kraft B S len) (hl : l ∈ S) (hr : r ∈ S.erase l) (hwl : ∀ i ∈ S, w l ≤ w i)
    (hwr : ∀ i ∈ S.erase l, w r ≤ w i) :
    ∃ len', Kraft B S len' ∧ cost w S len' ≤ cost w S len ∧ (∀ i ∈ S.erase l, len' i ≤ len' r) ∧ len' r ≤ len' l := by
  obtain ⟨len₁, h₁, hc₁, hmax₁, -⟩ := h.exists_longest (Finset.Subset.refl S) hl hwl
  obtain ⟨len₂, h₂, hc₂, hmax₂, hsame, j, hj, hrj⟩ :=
    h₁.exists_longest (Finset.erase_subset l S) hr hwr
  refine ⟨len₂, h₂, hc₂.trans hc₁, hmax₂, ?_⟩
  rw [hrj, hsame l (Finset.notMem_erase l S)]
  exact hmax₁ j (Finset.mem_of_mem_erase hj)

/-- The members of `S` with `l` and `r` joined into `z`. -/
def joined (S : Finset ι) (l r z : ι) : Finset ι := insert z ((S.erase l).erase r)

/-- The lengths after the join: `z` is one step nearer to the root than `r`. -/
def joinLen (len : ι → Nat) (r z : ι) : ι → Nat := Function.update len z (len r - 1)

theorem sum_joined (f : ι → Nat → Nat) (hz : z ∉ S) : ∑ i ∈ joined S l r z, f i (joinLen len r z i) =
    f z (len r - 1) + ∑ i ∈ (S.erase l).erase r, f i (len i) := by
  have hzR : z ∉ (S.erase l).erase r := fun hm => hz (Finset.mem_of_mem_erase (Finset.mem_of_mem_erase hm))
  rw [joined, joinLen, Finset.sum_insert hzR, Function.update_self]
  refine congrArg _ (Finset.sum_congr rfl fun i hi => ?_)
  rw [Function.update_of_ne (ne_of_mem_of_not_mem hi hzR)]

/-- The two longest members joined: Kraft's inequality holds on what is left. -/
theorem Kraft.join_longest (h : Kraft B S len) (hl : l ∈ S) (hr : r ∈ S.erase l) (hmax : ∀ i ∈ S.erase l, len i ≤ len r)
    (hz : z ∉ S) : 1 ≤ len r ∧ Kraft B (joined S l r z) (joinLen len r z) := by
  have hn := h.le r (Finset.mem_of_mem_erase hr)
  have hsum := h.sum_erase_add_le hl hn hmax
  rw [← Finset.add_sum_erase _ _ hr] at hsum
  have hpos : 1 ≤ len r := by
    by_contra h0
    obtain h0 : len r = 0 := by omega
    have hB := Nat.two_pow_pos B
    rw [h0, Nat.sub_zero] at hsum
    omega
  refine ⟨hpos, fun i hi => ?_, ?_⟩
  · rw [joinLen, Function.update_apply]
    split_ifs with hiz
    · omega
    · have hi := (Finset.mem_insert.mp hi).resolve_left hiz
      exact h.le i (Finset.mem_of_mem_erase (Finset.mem_of_mem_erase hi))
  · have hunit : 2 ^ (B - (len r - 1)) = 2 ^ (B - len r) + 2 ^ (B - len r) := by
      have hsub : B - (len r - 1) = B - len r + 1 := by omega
      rw [hsub, pow_succ, Nat.mul_two]
    rw [sum_joined (fun _ n => 2 ^ (B - n)) hz, hunit]
    omega

/-- The join lowers the cost by at least the weight of `z`: each of its two parts loses its last step. -/
theorem cost_joinLen (hl : l ∈ S) (hr : r ∈ S.erase l) (hle : len r ≤ len l) (hpos : 1 ≤ len r) (hz : z ∉ S)
    (hwz : w z = w l + w r) : w z + cost w (joined S l r z) (joinLen len r z) ≤ cost w S len := by
  have hwl : w l * len r ≤ w l * len l := Nat.mul_le_mul_left _ hle
  have hstep : w z + w z * (len r - 1) = w l * len r + w r * len r := by
    obtain ⟨n, hn⟩ := Nat.exists_eq_add_of_le' hpos
    rw [hn, Nat.add_sub_cancel, hwz]
    ring
  rw [cost, sum_joined (fun i n => w i * n) hz, cost, ← Finset.add_sum_erase S _ hl, ← Finset.add_sum_erase _ _ hr]
  omega

/-- The two lightest members joined: made the longest first, and then joined, at a cost lower by their weights. -/
theorem Kraft.join (h : Kraft B S len) (hl : l ∈ S) (hr : r ∈ S.erase l) (hwl : ∀ i ∈ S, w l ≤ w i)
    (hwr : ∀ i ∈ S.erase l, w r ≤ w i) (hz : z ∉ S) (hwz : w z = w l + w r) :
    ∃ len', Kraft B (joined S l r z) len' ∧ w z + cost w (joined S l r z) len' ≤ cost w S len := by
  obtain ⟨len₂, h₂, hcost, hmax, hle⟩ := h.exists_longest_two hl hr hwl hwr
  obtain ⟨hpos, hjoin⟩ := h₂.join_longest hl hr hmax hz
  exact ⟨_, hjoin, (cost_joinLen hl hr hle hpos hz hwz).trans hcost⟩

end Exchange

end Kraft

/-! ### The nodes that a merge step sees -/

section Frontier

variable {a : Arch} {m : Nat}

/-- The queue before node `m` is created: the nodes older than `m` that no node older than `m` has as a child. -/
def Arch.frontier (a : Arch) (m : Nat) : Finset Nat :=
  (Finset.range m).filter fun i => ∀ p ∈ Finset.Ico a.kdist.toNat m, ∀ bit, a.child p bit ≠ i

theorem mem_frontier {i : Nat} : i ∈ a.frontier m ↔
    i < m ∧ ∀ p, a.kdist.toNat ≤ p → p < m → ∀ bit, a.child p bit ≠ i := by
  simp only [Arch.frontier, Finset.mem_filter, Finset.mem_range, Finset.mem_Ico, and_imp]

/-- The first merge step sees the leaves. -/
theorem frontier_kdist : a.frontier a.kdist.toNat = Finset.range a.kdist.toNat := by
  simp [Arch.frontier]

/-- A merge step extracts the children of the node it creates (R133). -/
theorem TreeOk.child_mem_frontier (h : TreeOk a) (hm : m ∈ a.internals) (bit : Bool) :
    a.child m bit ∈ a.frontier m := by
  refine mem_frontier.mpr ⟨h.child_lt_self hm bit, fun p hk hp bit' he => ?_⟩
  have hpm : p ∈ a.internals := mem_internals.mpr ⟨hk, hp.trans (mem_internals.mp hm).2⟩
  exact hp.ne (h.child_inj hpm hm he).1

/-- The right child is still in the queue when the left one is extracted. -/
theorem TreeOk.right_mem_erase_left (h : TreeOk a) (hm : m ∈ a.internals) :
    a.child m true ∈ (a.frontier m).erase (a.child m false) :=
  Finset.mem_erase.mpr ⟨fun he => absurd (h.child_inj hm hm he).2 (by decide), h.child_mem_frontier hm true⟩

/-- A merge step takes two nodes out and puts the new one in (R133). -/
theorem TreeOk.frontier_succ (h : TreeOk a) (hm : m ∈ a.internals) :
    a.frontier (m + 1) = joined (a.frontier m) (a.child m false) (a.child m true) m := by
  have hk := (mem_internals.mp hm).1
  ext i
  simp only [joined, Finset.mem_insert, Finset.mem_erase, mem_frontier]
  constructor
  · rintro ⟨hi, hc⟩
    rcases Nat.lt_succ_iff_lt_or_eq.mp hi with hi | rfl
    · exact .inr ⟨(hc m hk (Nat.lt_succ_self m) true).symm, (hc m hk (Nat.lt_succ_self m) false).symm, hi,
        fun p hp hpm => hc p hp (Nat.lt_succ_of_lt hpm)⟩
    · exact .inl rfl
  · rintro (rfl | ⟨hright, hleft, hi, hc⟩)
    · refine ⟨Nat.lt_succ_self i, fun p hp hpi bit => ?_⟩
      have hpm : p ∈ a.internals := mem_internals.mpr ⟨hp, (Nat.lt_succ_iff.mp hpi).trans_lt (mem_internals.mp hm).2⟩
      have := h.child_lt_self hpm bit
      omega
    · refine ⟨Nat.lt_succ_of_lt hi, fun p hp hpm bit => ?_⟩
      rcases Nat.lt_succ_iff_lt_or_eq.mp hpm with hpm | rfl
      · exact hc p hp hpm bit
      · cases bit
        · exact hleft.symm
        · exact hright.symm

/-- The right child is no heavier than what the queue holds after the left child is extracted: that is extracted later
(R132). -/
theorem TreeOk.right_weight_le (h : TreeOk a) (hm : m ∈ a.internals) {i : Nat}
    (hi : i ∈ (a.frontier m).erase (a.child m false)) : a.weight (a.child m true) ≤ a.weight i := by
  obtain ⟨hk, hn⟩ := mem_internals.mp hm
  obtain ⟨hleft, hmem⟩ := Finset.mem_erase.mp hi
  obtain ⟨him, hc⟩ := mem_frontier.mp hmem
  obtain ⟨q, hq, bit, rfl⟩ := h.exists_child_eq (i := i) (by omega)
  obtain ⟨hkq, hnq⟩ := mem_internals.mp hq
  have hmq : m ≤ q := Nat.le_of_not_lt fun hqm => hc q hkq hqm bit rfl
  rcases Nat.eq_or_lt_of_le hmq with rfl | hlt
  · cases bit
    · exact absurd rfl hleft
    · exact Nat.le_refl _
  · have hlater := h.right_weight_le_later_left hk hlt hnq
    cases bit
    · exact hlater
    · exact hlater.trans (h.left_weight_le_right hkq hnq)

theorem TreeOk.left_weight_le (h : TreeOk a) (hm : m ∈ a.internals) {i : Nat} (hi : i ∈ a.frontier m) :
    a.weight (a.child m false) ≤ a.weight i := by
  obtain ⟨hk, hn⟩ := mem_internals.mp hm
  obtain rfl | hne := eq_or_ne i (a.child m false)
  · exact Nat.le_refl _
  · exact (h.left_weight_le_right hk hn).trans (h.right_weight_le hm (Finset.mem_erase.mpr ⟨hne, hi⟩))

/-- The weights of the nodes still to be created bound the cost of all lengths on the queue from below. -/
theorem TreeOk.sum_weights_le_cost (h : TreeOk a) (hk : a.kdist.toNat ≤ m) {B : Nat} {len : Nat → Nat}
    (hlen : Kraft B (a.frontier m) len) :
    ∑ p ∈ Finset.Ico m a.nnode.toNat, a.weight p ≤ cost a.weight (a.frontier m) len := by
  induction hd : a.nnode.toNat - m generalizing m len with
  | zero =>
    rw [Finset.Ico_eq_empty (by omega), Finset.sum_empty]
    exact Nat.zero_le _
  | succ d ih =>
    have hn : m < a.nnode.toNat := by omega
    have hm : m ∈ a.internals := mem_internals.mpr ⟨hk, hn⟩
    have hnew : m ∉ a.frontier m := fun hmem => (mem_frontier.mp hmem).1.false
    obtain ⟨len', hlen', hcost⟩ := hlen.join (w := a.weight) (h.child_mem_frontier hm false)
      (h.right_mem_erase_left hm) (fun i hi => h.left_weight_le hm hi) (fun i hi => h.right_weight_le hm hi)
      hnew (h.weight_eq hk hn)
    rw [← h.frontier_succ hm] at hlen' hcost
    calc ∑ p ∈ Finset.Ico m a.nnode.toNat, a.weight p
        = a.weight m + ∑ p ∈ Finset.Ico (m + 1) a.nnode.toNat, a.weight p := Finset.sum_eq_sum_Ico_succ_bot hn _
      _ ≤ a.weight m + cost a.weight (a.frontier (m + 1)) len' := by
        exact Nat.add_le_add_left (ih (Nat.le_succ_of_le hk) hlen' (by omega)) _
      _ ≤ cost a.weight (a.frontier m) len := hcost

end Frontier

/-! ### Codes of the symbols present -/

/-- A code of the symbols as a code of the leaves. -/
def Arch.leafCode (a : Arch) (c : Sym → List Bool) (x : Nat) : List Bool := c (a.nodeAt x).sym

section LeafCodes

variable {a : Arch} {c : Sym → List Bool} {x y : Nat}

/-- A leaf's symbol is present (R130). -/
theorem TreeInv.freqAt_leaf (h : TreeInv a) (hp : a.phase ≠ .count) (hx : x < a.kdist.toNat) :
    a.freqAt (a.nodeAt x).sym ≠ 0 :=
  (mem_symbols h.book.memories).mp (List.mem_of_getElem? ((h.tree hp).symbol hx))

/-- Different leaves carry different symbols (R130). -/
theorem TreeInv.leaf_sym_ne (h : TreeInv a) (hp : a.phase ≠ .count) (hx : x < a.kdist.toNat) (hy : y < a.kdist.toNat)
    (hxy : x ≠ y) : (a.nodeAt x).sym ≠ (a.nodeAt y).sym := fun he => by
  have hsx := (h.tree hp).symbol hx
  have hsy := (h.tree hp).symbol hy
  refine hxy ((List.getElem?_inj (List.getElem?_eq_some_iff.mp hsx).1 (symbols_nodup h.book.memories)).mp ?_)
  rw [hsx, hsy, he]

/-- Where no present symbol's code begins with another's, the codes of the leaves satisfy Kraft's inequality. -/
theorem TreeInv.leafCode_kraft (h : TreeInv a) (hp : a.phase ≠ .count) (h2 : 2 ≤ a.kdist.toNat)
    (hfree : ∀ s t : Sym, s ≠ t → a.freqAt s ≠ 0 → a.freqAt t ≠ 0 → ¬ c s <+: c t) :
    ∃ B, Kraft B (Finset.range a.kdist.toNat) fun x => (a.leafCode c x).length := by
  refine kraft_of_prefixFree (by rwa [Finset.card_range]) fun x hx y hy hxy => ?_
  rw [Finset.mem_range] at hx hy
  exact hfree _ _ (h.leaf_sym_ne hp hx hy hxy) (h.freqAt_leaf hp hx) (h.freqAt_leaf hp hy)

/-- The encoded length of the histogram under a code is the code's cost on the leaves. -/
theorem TreeInv.cost_leafCode (h : TreeInv a) (hp : a.phase ≠ .count) :
    cost a.weight (Finset.range a.kdist.toNat) (fun x => (a.leafCode c x).length) =
      (a.freq.map fun e => e.2.toNat * (c (BitVec.ofNat 16 e.1)).length).sum := by
  rw [h.sum_freq hp, cost]
  simp only [Arch.weight, Arch.leafCode, BitVec.ofNat_toNat, BitVec.setWidth_eq]

end LeafCodes

/-- Settles O33: the codebook's encoded length is the sum of the internal weights, which bounds the cost of every other
code on the leaves, the first queue, from below. -/
theorem codebookIsOptimal : Obligations.CodebookIsOptimal := by
  unfold Obligations.CodebookIsOptimal
  intro a c h hp hp' h2 hfree
  obtain ⟨B, hkraft⟩ := h.base.leafCode_kraft hp h2 hfree
  rw [← frontier_kdist] at hkraft
  calc weightedLength a = ∑ p ∈ a.internals, a.weight p := h.weightedLength_eq hp hp' h2
    _ ≤ cost a.weight (a.frontier a.kdist.toNat) fun x => (a.leafCode c x).length :=
      (h.base.tree hp).sum_weights_le_cost (Nat.le_refl _) hkraft
    _ = (a.freq.map fun e => e.2.toNat * (c (BitVec.ofNat 16 e.1)).length).sum := by
      rw [frontier_kdist, h.base.cost_leafCode hp]

end Sys2Proof.Machine
end

section
/-! PROOF. GENCODE (spec/42_code_generator.md): its codes are the paths of the leaves, so a path beyond the limit
overflows and paths within it are written as the codebook (R151 to R155); and weights rise along a path as the Fibonacci
numbers do, so that with the default parameters no path is longer than 45 (R152). -/

namespace Sys2Proof.Machine

/-! ### The longest code and the longest path (R151, R153) -/

theorem longest_le_iff {cs : List (Sym × List Bool)} {n : Nat} : longest cs ≤ n ↔ ∀ c ∈ cs, c.2.length ≤ n := by
  refine ⟨fun h c hc => (le_longest hc).trans h, fun h => ?_⟩
  rcases Nat.eq_zero_or_pos (longest cs) with h0 | hpos
  · exact h0 ▸ n.zero_le
  · obtain ⟨c, hc, hl⟩ := exists_longest hpos
    exact hl ▸ h c hc

section Codes

variable {a : Arch} {cs : List (Sym × List Bool)} {limit x : Nat} {p : List Bool}

theorem TreeOk.exists_codes (h : TreeOk a) : ∃ cs, codes a = some cs := Option.ne_none_iff_exists'.mp h.codes_ne_none

/-- A code is `[0]` or the path of a leaf (R153). -/
theorem TreeOk.code_cases (h : TreeOk a) (hc : codes a = some cs) {c : Sym × List Bool} (hcs : c ∈ cs) :
    c.2 = [false] ∨ ∃ x < a.kdist.toNat, Path a x c.2 := by
  obtain ⟨ws, hw, rfl⟩ := Option.map_eq_some_iff.mp hc
  split at hcs
  · obtain ⟨d, -, rfl⟩ := List.mem_map.mp hcs
    exact .inl rfl
  · obtain ⟨x, hx, hl, -⟩ := walk_sound hw .root c hcs
    exact .inr ⟨x, (h.leaf_iff (h.path_lt hx)).mp hl, hx⟩

/-- Over a tree whose leaves' paths are within a limit of at least 1, GENCODE's codes are within it. -/
theorem TreeOk.longest_le (h : TreeOk a) (hc : codes a = some cs) (hlimit : 1 ≤ limit)
    (hpaths : ∀ x < a.kdist.toNat, ∀ p, Path a x p → p.length ≤ limit) : longest cs ≤ limit := by
  refine longest_le_iff.mpr fun c hcs => ?_
  rcases h.code_cases hc hcs with h1 | ⟨x, hx, hp⟩
  · rwa [h1]
  · exact hpaths x hx _ hp

/-- For two symbols or more every leaf's path is a code. -/
theorem TreeInv.path_length_le_longest (h : TreeInv a) (hph : a.phase ≠ .count) (hc : codes a = some cs)
    (h2 : 2 ≤ a.kdist.toNat) (hx : x < a.kdist.toNat) (hp : Path a x p) : p.length ≤ longest cs := by
  have ht := h.tree hph
  have hnn := ht.nnode
  obtain ⟨q, hq, hmem⟩ := (codes_ok h hph hc).paths x hx
  rw [if_neg (by omega), ← ht.path_unique hp hq] at hmem
  exact le_longest hmem

/-- The longest code has a bit, that of a single leaf included (R153). -/
theorem TreeInv.one_le_longest (h : TreeInv a) (hph : a.phase ≠ .count) (hc : codes a = some cs) :
    1 ≤ longest cs := by
  have hok := codes_ok h hph hc
  obtain ⟨_, -, hmem⟩ := hok.paths 0 (h.tree hph).kdist_pos
  exact (hok.pos _ hmem).trans (le_longest hmem)

end Codes

/-! ### The effect of GENCODE (R151, R152) -/

/-- The state that GENCODE leaves, its codes `cs` written (R151). -/
def gencoded (cs : List (Sym × List Bool)) (a : Arch) : Arch :=
  { writeCodes cs a with maxlen := BitVec.ofNat 7 (longest cs), phase := .code }

section Effect

variable {a : Arch} {cs : List (Sym × List Bool)} {limit : Nat}

/-- GENCODE writes CLEN, CBITS, MAXLEN and PHASE alone. -/
theorem gencoded_frame (cs : List (Sym × List Bool)) (a : Arch) : ∃ (clen : Memory CodeLen) (cbits : Memory Data)
    (maxlen : CodeLen), gencoded cs a = { a with clen := clen, cbits := cbits, maxlen := maxlen, phase := .code } := by
  obtain ⟨l, b, hw⟩ := writeCodes_frame cs a
  exact ⟨l, b, _, by rw [gencoded, hw]⟩

theorem gencodeEffect_of_long (hc : codes a = some cs) (h : limit < longest cs) (w : Word) :
    gencodeEffect limit w a = .trap ⟨.codeOverflow, w⟩ := by simp [gencodeEffect, hc, h]

theorem gencodeEffect_of_fits (hc : codes a = some cs) (h : longest cs ≤ limit) (w : Word) :
    gencodeEffect limit w a = .done (gencoded cs a) 0 := by simp [gencodeEffect, hc, Nat.not_lt.mpr h, gencoded]

theorem admission_gencode (hf : a.fault = false) (hp : a.phase = .tree) : admission .gencode a = none :=
  admission_of_noFault hf rfl (by simp [legalIn, hp]) nofun

/-- GENCODE executes where its codes fit CODEW. -/
theorem exec_gencode {s : State} (hf : s.arch.fault = false) (hp : s.arch.phase = .tree)
    (hc : codes s.arch = some cs) (h : longest cs ≤ Config.codeW) :
    exec .gencode s = .next (State.respond 0 0 { s with arch := gencoded cs s.arch }) :=
  exec_of_executes (admission_gencode hf hp) (.gencode cs hc h)

end Effect

/-- Settles O34: the codes are the leaves' paths, within 64, and GENCODE writes them. -/
theorem gencodeWritesTheCodebook : Obligations.GencodeWritesTheCodebook := by
  unfold Obligations.GencodeWritesTheCodebook
  intro s h hf hp hpaths
  have ht := h.tree (by simp [hp])
  obtain ⟨cs, hc⟩ := ht.exists_codes
  have hlong : longest cs ≤ Config.codeW := ht.longest_le hc (by decide) hpaths
  obtain ⟨clen, cbits, maxlen, hg⟩ := gencoded_frame cs s.arch
  refine ⟨clen, cbits, maxlen, ?_⟩
  rw [← hg]
  exact ⟨exec_gencode hf hp hc hlong, .of_gencode h hp hc hlong⟩

/-- Settles O36: the longest code is beyond the limit where a path is, or where a single leaf's `[0]` is, and it is
within the limit where every path is. -/
theorem longCodeRaisesCodeOverflow : Obligations.LongCodeRaisesCodeOverflow := by
  unfold Obligations.LongCodeRaisesCodeOverflow
  intro limit w a h hp
  have hph : a.phase ≠ .count := by simp [hp]
  have ht := h.tree hph
  obtain ⟨cs, hc⟩ := ht.exists_codes
  refine ⟨fun x p h2 hx hpath hlong => ?_, fun _ hlimit => ?_, fun hlimit hpaths => ?_⟩
  · exact gencodeEffect_of_long hc (hlong.trans_le (h.path_length_le_longest hph hc h2 hx hpath)) w
  · exact gencodeEffect_of_long hc (hlimit ▸ h.one_le_longest hph hc) w
  · have hlong := ht.longest_le hc hlimit hpaths
    obtain ⟨clen, cbits, maxlen, hg⟩ := gencoded_frame cs a
    refine ⟨clen, cbits, maxlen, ?_⟩
    rw [← hg]
    exact ⟨gencodeEffect_of_fits hc hlong w, fun h64 => .of_gencode h hp hc (hlong.trans h64)⟩

/-! ### Weights along a path (R152) -/

section Fibonacci

variable {a : Arch} {n p q x : Nat} {bit : Bool}

/-- Every node has been counted at least once: a leaf's symbol is present, and weights are summed. -/
theorem TreeInv.weight_pos (h : TreeInv a) (hp : a.phase ≠ .count) (hx : x < a.nnode.toNat) : 1 ≤ a.weight x := by
  have ht := h.tree hp
  induction x using Nat.strong_induction_on with | _ x ih => ?_
  by_cases hk : x < a.kdist.toNat
  · obtain ⟨e, he, hn⟩ := ht.leaf x hk
    have hne := (wfFrom_mem h.book.memories.freq e (List.mem_of_getElem? he)).2.2
    rw [Arch.weight, hn]
    exact Nat.one_le_iff_ne_zero.mpr fun h0 => hne (BitVec.eq_of_toNat_eq h0)
  · have hk : a.kdist.toNat ≤ x := Nat.le_of_not_lt hk
    have hlt := ht.child_lt_self (mem_internals.mpr ⟨hk, hx⟩) false
    have hleft := ih _ hlt (hlt.trans hx)
    rw [ht.weight_eq hk hx]
    omega

/-- The weight of an internal node is that of a child and that of the child's sibling (R133). -/
theorem TreeOk.weight_eq_add_sibling (h : TreeOk a) (hp : p ∈ a.internals) (bit : Bool) :
    a.weight p = a.weight (a.child p bit) + a.weight (a.child p !bit) := by
  obtain ⟨hk, hn⟩ := mem_internals.mp hp
  cases bit
  · exact h.weight_eq hk hn
  · exact (h.weight_eq hk hn).trans (Nat.add_comm _ _)

/-- A child of a node is no heavier than a child of a later one (R131, R132). -/
theorem TreeOk.child_weight_le_later (h : TreeOk a) (hp : p ∈ a.internals) (hq : q ∈ a.internals) (hpq : p < q)
    (bit bit' : Bool) : a.weight (a.child p bit) ≤ a.weight (a.child q bit') := by
  obtain ⟨hkp, hnp⟩ := mem_internals.mp hp
  obtain ⟨hkq, hnq⟩ := mem_internals.mp hq
  have hright : a.weight (a.child p bit) ≤ a.weight (a.child p true) := by
    cases bit
    · exact h.left_weight_le_right hkp hnp
    · exact Nat.le_refl _
  have hleft : a.weight (a.child q false) ≤ a.weight (a.child q bit') := by
    cases bit'
    · exact Nat.le_refl _
    · exact h.left_weight_le_right hkq hnq
  exact hright.trans ((h.right_weight_le_later_left hkp hpq hnq).trans hleft)

/-- The bound of R152 that a step up a path raises by one: `x` weighs at least `Fib(n + 2)`, and its sibling, as every
child of a later node, at least `Fib(n + 1)`. -/
structure WeighsFib (a : Arch) (n x : Nat) : Prop where
  self  : Nat.fib (n + 2) ≤ a.weight x
  later : ∀ q ∈ a.internals, x < q → ∀ bit, Nat.fib (n + 1) ≤ a.weight (a.child q bit)

theorem TreeInv.weighsFib_zero (h : TreeInv a) (hp : a.phase ≠ .count) (hx : x < a.nnode.toNat) : WeighsFib a 0 x where
  self := h.weight_pos hp hx
  later _ hq _ bit := h.weight_pos hp (((h.tree hp).child_lt_self hq bit).trans (mem_internals.mp hq).2)

theorem WeighsFib.parent (h : TreeOk a) (hp : p ∈ a.internals) (hw : WeighsFib a n (a.child p bit)) :
    WeighsFib a (n + 1) p where
  self := by
    have hsibling := hw.later p hp (h.child_lt_self hp bit) (!bit)
    calc Nat.fib (n + 1 + 2) = Nat.fib (n + 1) + Nat.fib (n + 2) := Nat.fib_add_two
      _ ≤ a.weight (a.child p bit) + a.weight (a.child p !bit) := by
        have := hw.self
        omega
      _ = a.weight p := (h.weight_eq_add_sibling hp bit).symm
  later q hq hpq bit' := hw.self.trans (h.child_weight_le_later hp hq hpq bit bit')

theorem TreeOk.mem_internals_of_path {l : List Bool} (h : TreeOk a) (hpath : Path a x l)
    (hl : (a.nodeAt x).leaf = false) : x ∈ a.internals :=
  mem_internals.mpr ⟨h.kdist_le (h.path_lt hpath) hl, h.path_lt hpath⟩

/-- Along the path of a node the bound rises by one for each bit, up to the root. -/
theorem WeighsFib.fib_le_root {l : List Bool} (h : TreeOk a) (hpath : Path a x l) (hw : WeighsFib a n x) :
    Nat.fib (n + l.length + 2) ≤ a.weight a.root.toNat := by
  have hlen (n : Nat) (l : List Bool) (bit : Bool) : n + (l ++ [bit]).length = n + 1 + l.length := by
    rw [List.length_append, List.length_singleton, Nat.add_right_comm, Nat.add_assoc]
  induction hpath generalizing n with
  | root => exact hw.self
  | left y l hy hl ih =>
    rw [hlen]
    exact ih (.parent (bit := false) h (h.mem_internals_of_path hy hl) hw)
  | right y l hy hl ih =>
    rw [hlen]
    exact ih (.parent (bit := true) h (h.mem_internals_of_path hy hl) hw)

/-- A path of length `L` needs `Fib(L + 2)` symbols counted (R152). -/
theorem TreeInv.fib_le_nsym {l : List Bool} (h : TreeInv a) (hp : a.phase ≠ .count) (hpath : Path a x l) :
    Nat.fib (l.length + 2) ≤ a.nsym.toNat := by
  have ht := h.tree hp
  have hroot := (h.weighsFib_zero hp (ht.path_lt hpath)).fib_le_root ht hpath
  rwa [Nat.zero_add, Arch.weight, ht.root_wt] at hroot

/-- The first Fibonacci number that NSYM cannot hold (R152). -/
theorem two_pow_32_le_fib_48 : 2 ^ 32 ≤ Nat.fib 48 := by norm_num

/-- With the default CNTW no path is longer than 45 (R152). -/
theorem TreeInv.path_length_le_45 {l : List Bool} (h : TreeInv a) (hp : a.phase ≠ .count) (hpath : Path a x l) :
    l.length ≤ 45 := by
  by_contra hlong
  have hmono : Nat.fib 48 ≤ Nat.fib (l.length + 2) := Nat.fib_mono (by omega)
  have hfib := h.fib_le_nsym hp hpath
  exact absurd a.nsym.isLt (Nat.not_lt.mpr (two_pow_32_le_fib_48.trans (hmono.trans hfib)))

end Fibonacci

/-- Settles O35: every path is within 45, so the longest code is, and GENCODE executes. -/
theorem gencodeNeverOverflows : Obligations.GencodeNeverOverflows := by
  unfold Obligations.GencodeNeverOverflows
  intro s h hf hp
  have hph : s.arch.phase ≠ .count := by simp [hp]
  have ht := h.tree hph
  obtain ⟨cs, hc⟩ := ht.exists_codes
  have hlong : longest cs ≤ 45 := ht.longest_le hc (by decide) fun _ _ _ => h.path_length_le_45 hph
  refine ⟨_, exec_gencode hf hp hc (hlong.trans (by decide)), rfl, rfl, ?_⟩
  calc (BitVec.ofNat 7 (longest cs)).toNat ≤ longest cs := Nat.mod_le _ _
    _ ≤ 45 := hlong

end Sys2Proof.Machine
end

section
/-! PROOF. The bit-stream length calculator (spec/43_length_calculator.md): what each of its commands answers and writes
(R170 to R177), that a pass 2 over the counted symbols and ENCSUM add the same sum over all symbols (R178), and what the
bounds of the totals say of the ratio (R179, R181). -/

namespace Sys2Proof.Machine

/-! ### The commands of a pass (R170 to R176) -/

section Admitted

variable {a : Arch}

theorem admission_encbegin (hf : a.fault = false) (hp : a.phase = .code ∨ a.phase = .done) :
    admission .encbegin a = none :=
  admission_of_noFault hf rfl (by simpa [legalIn] using hp) nofun

theorem admission_encsum (hf : a.fault = false) (hp : a.phase = .code ∨ a.phase = .done) :
    admission .encsum a = none :=
  admission_of_noFault hf rfl (by simpa [legalIn] using hp) nofun

theorem admission_encend (hf : a.fault = false) (hp : a.phase = .enc) : admission .encend a = none :=
  admission_of_noFault hf rfl (by simp [legalIn, hp]) nofun

end Admitted

/-- Settles O37: ENCBEGIN is admitted and executes. -/
theorem encbeginStartsAPass : Obligations.EncbeginStartsAPass := by
  unfold Obligations.EncbeginStartsAPass
  intro s hf hp
  exact exec_of_executes (admission_encbegin hf hp) .encbegin

/-- Settles O38: each push, admitted in its phase, executes; the pair of a byte push is the symbol. -/
theorem symbolIsEncoded : Obligations.SymbolIsEncoded := by
  unfold Obligations.SymbolIsEncoded
  intro s sym hf hp hl hn
  refine ⟨fun hh => ?_, fun hh b hsym => ?_⟩
  · exact exec_of_executes (admission_ench hf hp hh sym) (.ench sym hl hn)
  · obtain rfl := eq_pairBytes hsym
    exact exec_of_executes (admission_encb hf hp b) (.encbSecond b hh hl hn)

/-- Settles O39: each push, admitted in its phase, raises the lookup fault, whatever NENC. -/
theorem symbolWithoutEntryRaisesLookupFailure : Obligations.SymbolWithoutEntryRaisesLookupFailure := by
  unfold Obligations.SymbolWithoutEntryRaisesLookupFailure
  intro s sym hf hp hl
  refine ⟨fun hh => ?_, fun hh b hsym => ?_⟩
  · exact exec_of_traps_of_noFault hf (admission_ench hf hp hh sym) (.enchLookup sym hl)
  · obtain rfl := eq_pairBytes hsym
    exact exec_of_traps_of_noFault hf (admission_encb hf hp b) (.encbLookup b hh hl)

/-- Settles O41: ENCEND is admitted and executes; it leaves FAULT = 0 and PHASE = DONE, so ENCBITS decides RATIO_OK. -/
theorem encendEndsThePass : Obligations.EncendEndsThePass := by
  unfold Obligations.EncendEndsThePass
  intro s hf hp
  refine ⟨_, exec_of_executes (admission_encend hf hp) .encend, rfl, ?_⟩
  simp [ratioOk_iff, hf]

/-! ### ENCSUM and the sum over all symbols (R177) -/

/-- A sum over the listed entries that counts nothing for the reset value is a sum over all indices. -/
theorem sum_listed_eq_sum_range {α : Type} [DecidableEq α] {z : α} {m : Memory α} {b : Nat}
    (h : Memory.wf z b m = true) {f : Nat → α → Nat} (hf : ∀ i, f i z = 0) :
    (m.map fun e => f e.1 e.2).sum = ∑ i ∈ Finset.range b, f i (Memory.read z m i) := by
  rw [← List.sum_toFinset _ (wfFrom_nodup h)]
  refine Finset.sum_of_injOn Prod.fst (fun x hx y hy hxy => ?_) (fun e he => ?_) (fun i _ hi => ?_) fun e he => ?_
  · have hx := read_of_mem h (List.mem_toFinset.mp hx)
    have hy := read_of_mem h (List.mem_toFinset.mp hy)
    exact Prod.ext hxy (by rw [← hx, ← hy, hxy])
  · exact Finset.mem_coe.mpr (Finset.mem_range.mpr (wfFrom_mem h e (List.mem_toFinset.mp he)).2.1)
  · have hz : Memory.read z m i = z := by
      by_contra hne
      exact hi ⟨_, by simpa using mem_of_read_ne hne, rfl⟩
    rw [hz, hf]
  · rw [read_of_mem h (List.mem_toFinset.mp he)]

section Histogram

variable {a : Arch}

/-- A sum weighted by the listed counts is the sum over all symbols. -/
theorem sum_freq_eq_sum_symbols (h : Memory.wf 0 Config.numSymbols a.freq = true) (f : Sym → Nat) :
    (a.freq.map fun e => e.2.toNat * f (BitVec.ofNat 16 e.1)).sum =
      ∑ j ∈ Finset.range 65536, (a.freqAt (BitVec.ofNat 16 j)).toNat * f (BitVec.ofNat 16 j) := by
  rw [sum_listed_eq_sum_range h (f := fun i n => n.toNat * f (BitVec.ofNat 16 i)) fun i => Nat.zero_mul _]
  refine Finset.sum_congr rfl fun j hj => ?_
  rw [Arch.freqAt, BitVec.toNat_ofNat, Nat.mod_eq_of_lt (Finset.mem_range.mp hj)]

/-- The encoded length of the histogram over all symbols (R177). -/
theorem weightedLength_eq_sum_symbols (h : Memory.wf 0 Config.numSymbols a.freq = true) : weightedLength a =
    ∑ j ∈ Finset.range 65536, (a.freqAt (BitVec.ofNat 16 j)).toNat * (a.clenAt (BitVec.ofNat 16 j)).toNat := by
  rw [weightedLength, ← sum_freq_eq_sum_symbols h fun x => (a.clenAt x).toNat]
  refine congrArg List.sum (List.map_congr_left fun e he => ?_)
  rw [Arch.clenAt, BitVec.toNat_ofNat, Nat.mod_eq_of_lt (wfFrom_mem h e he).2.1]

/-- The total of the histogram over all symbols. -/
theorem total_eq_sum_symbols (h : Memory.wf 0 Config.numSymbols a.freq = true) :
    a.freq.total = ∑ j ∈ Finset.range 65536, (a.freqAt (BitVec.ofNat 16 j)).toNat := by
  simpa [Memory.total] using sum_freq_eq_sum_symbols h fun _ => 1

end Histogram

/-- Settles O42: ENCSUM is admitted and executes, and the listed entries of FREQ are all that the sum counts. -/
theorem encsumAddsTheHistogram : Obligations.EncsumAddsTheHistogram := by
  unfold Obligations.EncsumAddsTheHistogram
  intro s hwf hf hp
  rw [← weightedLength_eq_sum_symbols hwf]
  exact exec_of_executes (admission_encsum hf hp) .encsum

/-! ### A pass 2 over a list of symbols (R171, R175) -/

/-- The state after a pass has accepted the symbols of `l` (R171). -/
def encodedAll (l : List Sym) (a : Arch) : Arch :=
  { a with
    nenc := a.nenc + BitVec.ofNat 32 l.length
    encbits := a.encbits + BitVec.ofNat 64 (l.map fun x => (a.clenAt x).toNat).sum }

theorem encodedAll_nil (a : Arch) : encodedAll [] a = a := by simp [encodedAll]

theorem encodedAll_cons (x : Sym) (l : List Sym) (a : Arch) : encodedAll (x :: l) a = encodedAll l (encoded x a) := by
  have hlen : a.nenc + BitVec.ofNat 32 (l.length + 1) = a.nenc + 1 + BitVec.ofNat 32 l.length := by
    rw [Nat.add_comm, BitVec.ofNat_add, ← BitVec.add_assoc]
    rfl
  have hbits (n : Nat) : a.encbits + BitVec.ofNat 64 ((a.clenAt x).toNat + n) =
      a.encbits + (a.clenAt x).setWidth 64 + BitVec.ofNat 64 n := by
    rw [BitVec.ofNat_add, ← BitVec.add_assoc, BitVec.ofNat_toNat]
  rw [encodedAll, List.length_cons, List.map_cons, List.sum_cons, hlen, hbits]
  rfl

theorem runAll_append_eq_next {is js : List Instr} {s t : State} :
    runAll (is ++ js) s = .next t ↔ ∃ u, runAll is s = .next u ∧ runAll js u = .next t := by
  induction is generalizing s with
  | nil => simp [runAll]
  | cons i is ih =>
    simp only [List.cons_append, runAll_cons_eq_next, ih]
    constructor
    · rintro ⟨v, hi, u, his, hjs⟩
      exact ⟨u, ⟨v, hi, his⟩, hjs⟩
    · rintro ⟨u, ⟨v, hi, his⟩, hjs⟩
      exact ⟨v, hi, u, his, hjs⟩

/-- A pass accepts every symbol of a list where each has an entry and NENC stays within CNTMAX. -/
theorem runAll_ench {l : List Sym} {s : State} (hf : s.arch.fault = false) (hp : s.arch.phase = .enc)
    (hh : s.arch.half = false) (hl : ∀ x ∈ l, s.arch.clenAt x ≠ 0) (hn : s.arch.nenc.toNat + l.length < 2 ^ 32) :
    ∃ t, runAll (l.map .ench) s = .next t ∧ t.arch = encodedAll l s.arch := by
  induction l generalizing s with
  | nil => exact ⟨s, rfl, (encodedAll_nil _).symm⟩
  | cons x l ih =>
    rw [List.length_cons] at hn
    have hmax : s.arch.nenc.toNat ≠ Config.cntMax := by
      have : Config.cntMax = 2 ^ 32 - 1 := rfl
      omega
    have hnext : (s.arch.nenc + 1).toNat + l.length < 2 ^ 32 := by
      rw [toNat_succ (by omega)]
      omega
    have hx := exec_of_executes (admission_ench hf hp hh x) (.ench x (hl x (by simp)) hmax)
    obtain ⟨t, hrun, ht⟩ := ih (s := State.respond 0 0 { s with arch := encoded x s.arch }) hf hp hh
      (fun y hy => hl y (by simp [hy])) hnext
    exact ⟨t, runAll_cons_eq_next.mpr ⟨_, hx, hrun⟩, ht.trans (encodedAll_cons x l s.arch).symm⟩

/-- The state ENCBEGIN leaves (R170). -/
def begun (a : Arch) : Arch := { a with nenc := 0, encbits := 0, half := false, phase := .enc }

/-- The state that a whole pass over `l` leaves (R170, R171, R176). -/
def passed (l : List Sym) (a : Arch) : Arch :=
  { a with
    nenc := BitVec.ofNat 32 l.length
    encbits := BitVec.ofNat 64 (l.map fun x => (a.clenAt x).toNat).sum
    half := false
    phase := .done }

/-- A pass begins with totals of 0 and ends with what its symbols added. -/
theorem end_encodedAll_begun (l : List Sym) (a : Arch) :
    { encodedAll l (begun a) with half := false, phase := .done } = passed l a := by
  simp [encodedAll, begun, passed, Arch.clenAt]

/-- From phase CODE or DONE a whole pass over symbols that have entries completes. -/
theorem runAll_pass {l : List Sym} {s : State} (hf : s.arch.fault = false)
    (hp : s.arch.phase = .code ∨ s.arch.phase = .done) (hl : ∀ x ∈ l, s.arch.clenAt x ≠ 0) (hn : l.length < 2 ^ 32) :
    ∃ t, runAll ([.encbegin] ++ l.map .ench ++ [.encend]) s = .next t ∧ t.arch = passed l s.arch := by
  have hbegin := exec_of_executes (admission_encbegin hf hp) .encbegin
  obtain ⟨u, hrun, hu⟩ := runAll_ench (s := State.respond 0 0 { s with arch := begun s.arch }) hf rfl rfl hl
    (by simpa [begun] using hn)
  have hend := exec_of_executes (s := u) (admission_encend (by rw [hu]; exact hf) (by rw [hu]; rfl)) .encend
  rw [hu, respond_arch, end_encodedAll_begun] at hend
  exact ⟨_, runAll_append_eq_next.mpr ⟨u, runAll_cons_eq_next.mpr ⟨_, hbegin, hrun⟩,
    runAll_cons_eq_next.mpr ⟨_, hend, rfl⟩⟩, rfl⟩

/-! ### A list with the counts of the histogram (R178) -/

/-- A sum over a list of symbols is the sum over all symbols of the count times the term. -/
theorem sum_map_eq_sum_counts (l : List Sym) (f : Sym → Nat) : (l.map f).sum =
    ∑ j ∈ Finset.range 65536, l.count (BitVec.ofNat 16 j) * f (BitVec.ofNat 16 j) := by
  rw [Finset.sum_list_map_count]
  refine Finset.sum_of_injOn BitVec.toNat (fun x _ y _ hxy => BitVec.eq_of_toNat_eq hxy)
    (fun x _ => Finset.mem_coe.mpr (Finset.mem_range.mpr x.isLt)) (fun j hj hnot => ?_) fun x _ => by simp
  rw [List.count_eq_zero_of_not_mem fun hmem => hnot ⟨_, by simpa using hmem, ?_⟩, Nat.zero_mul]
  exact Nat.mod_eq_of_lt (Finset.mem_range.mp hj)

section Counts

variable {a : Arch} {l : List Sym}

/-- As many symbols as NSYM says (R40 item 1). -/
theorem Bookkeeping.length_of_count (h : Bookkeeping a) (hl : ∀ x : Sym, l.count x = (a.freqAt x).toNat) :
    l.length = a.nsym.toNat :=
  calc l.length = (l.map fun _ => 1).sum := by simp
    _ = ∑ j ∈ Finset.range 65536, (a.freqAt (BitVec.ofNat 16 j)).toNat := by
      simp only [sum_map_eq_sum_counts, hl, Nat.mul_one]
    _ = a.freq.total := (total_eq_sum_symbols h.memories.freq).symm
    _ = a.nsym.toNat := h.nsym.symm

/-- Their code lengths sum to the encoded length of the histogram. -/
theorem sum_clen_of_count (h : Memory.wf 0 Config.numSymbols a.freq = true)
    (hl : ∀ x : Sym, l.count x = (a.freqAt x).toNat) :
    (l.map fun x => (a.clenAt x).toNat).sum = weightedLength a := by
  simp only [sum_map_eq_sum_counts, hl, weightedLength_eq_sum_symbols h]

/-- A symbol of such a list was counted, so it has an entry (R40 item 8). -/
theorem CodeOk.clenAt_ne_zero_of_count (h : CodeOk a) (hl : ∀ x : Sym, l.count x = (a.freqAt x).toNat) {x : Sym}
    (hx : x ∈ l) : a.clenAt x ≠ 0 := by
  refine (h.present x).mpr fun h0 => ?_
  have hpos := List.count_pos_iff.mpr hx
  rw [hl, h0] at hpos
  exact absurd hpos (by decide)

/-- No half pair is open where a pass may start (R40 item 3). -/
theorem Bookkeeping.half_eq_false (h : Bookkeeping a) (hp : a.phase = .code ∨ a.phase = .done) : a.half = false := by
  refine Bool.eq_false_iff.mpr fun ht => ?_
  rcases hp with hp | hp <;> simpa [hp] using h.half ht

end Counts

/-- Settles O43: the pass accepts every symbol, since each was counted and so has an entry, and both ways add the counts
and the code lengths over all symbols. -/
theorem passTwoAgreesWithEncsum : Obligations.PassTwoAgreesWithEncsum := by
  unfold Obligations.PassTwoAgreesWithEncsum
  intro s l h hf hp hl
  have hbook := h.base.book
  have hcode : CodeOk s.arch := by rcases hp with hp | hp <;> exact h.code (by simp [hp]) (by simp [hp])
  have hlen := hbook.length_of_count hl
  have hsum := sum_clen_of_count hbook.memories.freq hl
  obtain ⟨t, hrun, ht⟩ := runAll_pass hf hp (fun x hx => hcode.clenAt_ne_zero_of_count hl hx) (hlen ▸ s.arch.nsym.isLt)
  refine ⟨t, _, hrun, exec_of_executes (admission_encsum hf hp) .encsum, ?_⟩
  rw [ht, passed, hlen, hsum]
  simp [hbook.half_eq_false hp]

/-! ### The ratio (R30, R179, R181) -/

section Ratio

variable {a : Arch}

/-- ORIGBITS does not wrap (R12, R30). -/
theorem origbits_toNat (a : Arch) : a.origbits.toNat = 16 * a.nenc.toNat := by
  have := a.nenc.isLt
  rw [origbits_eq, BitVec.toNat_ofNat, Nat.mod_eq_of_lt (by omega)]

theorem encbits_pos_of_ratioOk (h : a.ratioOk = true) : 0 < a.encbits.toNat := by
  obtain ⟨-, -, hne⟩ := (ratioOk_iff a).mp h
  exact Nat.pos_of_ne_zero fun h0 => hne (BitVec.eq_of_toNat_eq h0)

/-- With one symbol counted its code is `[0]`, of length 1 (R153). -/
theorem CodeOk.clenAt_eq_one (h : CodeOk a) (hk : a.kdist = 1) {sym : Sym} (hs : a.clenAt sym ≠ 0) :
    a.clenAt sym = 1 := by
  have hcode := h.single (by rw [hk]; rfl) sym ((h.present sym).mp hs)
  exact BitVec.eq_of_toNat_eq (by rw [← codeOf_length, hcode]; rfl)

theorem CodeOk.maxlen_eq_one (h : CodeOk a) (hk : a.kdist = 1) : a.maxlen = 1 := by
  obtain ⟨sym, hsym⟩ := h.attained
  obtain ⟨hpos, -⟩ := h.maxlen
  rw [← hsym]
  refine h.clenAt_eq_one hk fun h0 => ?_
  rw [← hsym, h0] at hpos
  exact absurd hpos (by decide)

end Ratio

/-- Settles O44: every code length, MAXLEN too, is 1, so the bounds of the totals meet. -/
theorem singleSymbolRatioIsSixteen : Obligations.SingleSymbolRatioIsSixteen := by
  unfold Obligations.SingleSymbolRatioIsSixteen
  intro a h hp hp' hk
  have hcode := h.code hp hp'
  obtain ⟨hlo, hhi⟩ := h.totals hp hp'
  have hmax : a.maxlen.toNat = 1 := by rw [hcode.maxlen_eq_one hk]; rfl
  have htotals : a.encbits.toNat = a.nenc.toNat := by
    rw [hmax, Nat.mul_one] at hhi
    exact Nat.le_antisymm hhi hlo
  refine ⟨fun sym => hcode.clenAt_eq_one hk, htotals, fun hr => ⟨encbits_pos_of_ratioOk hr, ?_⟩⟩
  rw [origbits_toNat, htotals]

/-- Settles O45: each symbol adds 16 to ORIGBITS and, by the bounds of the totals, 1 to 64 to ENCBITS. -/
theorem definedRatioIsBounded : Obligations.DefinedRatioIsBounded := by
  unfold Obligations.DefinedRatioIsBounded
  intro a
  refine ⟨origbits_toNat a, fun h hr => ⟨encbits_pos_of_ratioOk hr, ?_⟩⟩
  obtain ⟨hp, -, -⟩ := (ratioOk_iff a).mp hr
  obtain ⟨hlo, hhi⟩ := h.totals (by simp [hp]) (by simp [hp])
  obtain ⟨-, hmax⟩ := (h.code (by simp [hp]) (by simp [hp])).maxlen
  have h64 : a.nenc.toNat * a.maxlen.toNat ≤ a.nenc.toNat * 64 := Nat.mul_le_mul_left _ hmax
  rw [origbits_toNat]
  omega

end Sys2Proof.Machine
end

section
/-! PROOF. Control and readout (spec/44_control_readout.md): CLEAR is admitted and executes in every state (R200, R201),
SRCERR always raises its fault (R203), and the reads of symbols and nodes answer what they read (R205 to R209). -/

namespace Sys2Proof.Machine

/-! ### Control (R200 to R203) -/

/-- CLEAR passes the faulted gate and is legal in every phase. -/
theorem admission_clear (a : Arch) : admission .clear a = none :=
  admission_eq_none.mpr ⟨fun _ => rfl, rfl, rfl, nofun⟩

theorem exec_clear (s : State) : exec .clear s = .next (State.respond 0 0 { s with arch := Arch.reset }) :=
  exec_of_executes (admission_clear s.arch) .clear

theorem admission_srcerr {a : Arch} (hf : a.fault = false) : admission .srcerr a = none :=
  admission_of_noFault hf rfl rfl nofun

theorem step_reset {s : State} {rest : List HostMove} (h : s.inbox = .reset :: rest) :
    step s = .next (State.clearRun { s with inbox := rest }) := by
  rw [step, nextMove_some h]
  rfl

/-- Settles O46: CLEAR and a reset both leave the core state `Arch.reset`. -/
theorem clearLeavesResetState : Obligations.ClearLeavesResetState := by
  unfold Obligations.ClearLeavesResetState
  exact ⟨exec_clear, fun s _ h => ⟨_, _, step_reset h, exec_clear s, rfl⟩⟩

/-- Settles O47: with FAULT = 0 SRCERR is admitted and raises its fault; with FAULT = 1 the faulted gate stops it, and
the fault record is kept. -/
theorem srcerrRaisesSourceUnavailable : Obligations.SrcerrRaisesSourceUnavailable := by
  unfold Obligations.SrcerrRaisesSourceUnavailable
  refine fun s => ⟨fun hf => ?_, fun hf => ?_⟩
  · exact exec_of_traps_of_noFault hf (admission_srcerr hf) .srcerr
  · rw [exec_of_refused (admission_faulted hf rfl), State.raiseFault, recordFault_of_fault _ hf]
    rfl

/-! ### Readout (R205 to R209) -/

/-- A read passes the faulted gate and is legal in every phase, so its argument alone decides (R87 step 3). -/
theorem admission_of_isRead {i : Instr} {a : Arch} (hi : isRead i = true) (ha : argumentOk i a = true) :
    admission i a = none := by
  refine admission_eq_none.mpr ⟨fun _ => by simp [passesGate, hi], ha, ?_, ?_⟩
  · cases i with
    | rdreg | rdfreq | rdclen | rdcode | rdnw | rdnc => rfl
    | _ => cases hi
  · cases i with
    | cnth | ench => cases hi
    | _ => exact nofun

/-- A read with its argument in range answers its data and changes nothing. -/
theorem exec_of_isRead {i : Instr} {s : State} {d : Data} (hi : isRead i = true) (ha : argumentOk i s.arch = true)
    (he : Executes s.arch i s.arch d) : exec i s = .next (State.respond 0 d s) :=
  exec_of_executes (admission_of_isRead hi ha) he

/-- Settles O50: every symbol is in range (R66). -/
theorem symbolReadsAnswerTheMemories : Obligations.SymbolReadsAnswerTheMemories := by
  unfold Obligations.SymbolReadsAnswerTheMemories
  exact fun s sym => ⟨exec_of_isRead rfl rfl (.rdfreq sym), exec_of_isRead rfl rfl (.rdclen sym),
    exec_of_isRead rfl rfl (.rdcode sym)⟩

/-- The word RDNC answers for a leaf, as a number (R209). -/
theorem nodeWord_of_leaf {n : Node} (h : n.leaf = true) : nodeWord n = BitVec.ofNat 64 (2 ^ 63 + n.sym.toNat) := by
  have hs := n.sym.isLt
  apply BitVec.eq_of_toNat_eq
  rw [nodeWord, if_pos h]
  simp only [append_toNat, BitVec.toNat_ofNat]
  omega

/-- The word RDNC answers for an internal node, as a number (R209). -/
theorem nodeWord_of_internal {n : Node} (h : n.leaf = false) :
    nodeWord n = BitVec.ofNat 64 (n.right.toNat * 2 ^ 32 + n.left.toNat) := by
  have hl := n.left.isLt
  have hr := n.right.isLt
  apply BitVec.eq_of_toNat_eq
  rw [nodeWord, if_neg (by simp [h])]
  simp only [append_toNat, BitVec.toNat_ofNat]
  omega

/-- Settles O51: a handle below NNODE is in range, and LEAF decides the layout of RDNC's word. -/
theorem nodeReadsAnswerTheArena : Obligations.NodeReadsAnswerTheArena := by
  unfold Obligations.NodeReadsAnswerTheArena
  intro s n hn
  have hnw : argumentOk (.rdnw n) s.arch = true := by simpa [argumentOk] using hn
  have hnc : exec (.rdnc n) s = .next (State.respond 0 (nodeWord (s.arch.nodeAt n.toNat)) s) :=
    exec_of_isRead rfl hnw (.rdnc n)
  refine ⟨exec_of_isRead rfl hnw (.rdnw n), fun hl => ?_, fun hl => ?_⟩
  · rw [hnc, nodeWord_of_leaf hl]
  · rw [hnc, nodeWord_of_internal hl]

end Sys2Proof.Machine
end

section
/-! PROOF. Faults (spec/60_exceptions.md): the faults a word can raise and the condition of each cause (R231,
R232, R235), fault entry (R233), and the faulted state with the only return from it (R236 to R238). -/

namespace Sys2Proof.Machine

/-! ### Fault entry (R233) -/

/-- While FAULT = 1 a fault is answered and nothing else. -/
theorem raiseFault_of_fault (tr : Trap) {s : State} (hf : s.arch.fault = true) :
    State.raiseFault tr s = State.respond tr.cause.code 0 s := by
  rw [State.raiseFault, recordFault_of_fault tr hf]

/-- While FAULT = 0 a fault is recorded and answered. -/
theorem raiseFault_of_noFault (tr : Trap) {s : State} (hf : s.arch.fault = false) :
    State.raiseFault tr s = State.respond tr.cause.code 0 { s with arch := { s.arch with
      fault := true, fcause := tr.cause.code, finfo := tr.info } } := by
  rw [State.raiseFault, recordFault_of_noFault tr hf]

/-- Fault entry writes the fault record alone. -/
theorem recordFault_rest (tr : Trap) (a : Arch) :
    { a.recordFault tr with fault := a.fault, fcause := a.fcause, finfo := a.finfo } = a := by
  cases hf : a.fault with
  | true => rw [recordFault_of_fault tr hf, ← hf]
  | false => rw [recordFault_of_noFault tr hf, ← hf]

/-- Settles O16: the two cases of fault entry, after either of which FAULT = 1 stands in STATUS. -/
theorem faultEntry : Obligations.FaultEntry := by
  unfold Obligations.FaultEntry
  intro tr s
  have hf : (State.raiseFault tr s).arch.fault = true := recordFault_fault tr s.arch
  obtain ⟨-, hstatus, -⟩ := status_flags (State.raiseFault tr s).arch
  exact ⟨raiseFault_of_noFault tr, raiseFault_of_fault tr, hf, hstatus.trans hf⟩

/-! ### The faults that a command raises -/

/-- `Raises a i tr`: in `a` the command `i` raises `tr`, by a failed check (R87 steps 2 to 5) or in execution. -/
inductive Raises (a : Arch) (i : Instr) : Trap → Prop where
  | refused {c : Cause} : admission i a = some c → Raises a i ⟨c, encode i⟩
  | traps {tr : Trap} : admission i a = none → Traps a i tr → Raises a i tr

/-- A command executes, or it raises a fault. -/
theorem exec_executes_or_raises {i : Instr} {s t : State} (h : exec i s = .next t) :
    (admission i s.arch = none ∧ ∃ a d, Executes s.arch i a d ∧ t = State.respond 0 d { s with arch := a }) ∨
    (∃ tr, Raises s.arch i tr ∧ t = State.raiseFault tr s) := by
  rcases exec_cases h with hx | ⟨tr, rfl, ⟨c, hc, rfl⟩ | ⟨ha, ht⟩⟩
  · exact .inl hx
  · exact .inr ⟨_, .refused hc, rfl⟩
  · exact .inr ⟨tr, .traps ha ht, rfl⟩

theorem passesGate_eq_false_iff {i : Instr} : passesGate i = false ↔ i ≠ .clear ∧ isRead i = false := by
  simp [passesGate]

theorem isRead_of_not_argumentOk {i : Instr} {a : Arch} (h : argumentOk i a = false) : isRead i = true := by
  cases i with
  | rdreg | rdnw | rdnc => rfl
  | _ => cases h

/-- An admitted register number is assigned, so only commands that the faulted gate stops raise execution faults. -/
theorem Traps.passesGate_eq_false {a : Arch} {i : Instr} {tr : Trap} (ht : Traps a i tr)
    (ha : admission i a = none) : passesGate i = false := by
  cases ht with
  | rdreg reg hcsr =>
    obtain ⟨-, hreg, -, -⟩ := admission_eq_none.mp ha
    obtain ⟨v, hv⟩ := csr_isSome (a := a) (of_decide_eq_true hreg)
    rw [hv] at hcsr
    cases hcsr
  | _ => rfl

/-- While FAULT = 1 a command raises Faulted or BadArgument alone (R236, R237). -/
theorem Raises.cause_of_fault {a : Arch} {i : Instr} {tr : Trap} (h : Raises a i tr) (hf : a.fault = true) :
    (tr.cause = .faulted ∧ i ≠ .clear ∧ isRead i = false) ∨ (tr.cause = .badArgument ∧ isRead i = true) := by
  have hnot : a.fault ≠ false := by simp [hf]
  cases h with
  | refused hc =>
    rcases admission_some hc with ⟨rfl, -, hg⟩ | ⟨rfl, harg⟩ | ⟨-, hf', -⟩ | ⟨-, hf', -⟩
    · exact .inl ⟨rfl, passesGate_eq_false_iff.mp hg⟩
    · exact .inr ⟨rfl, isRead_of_not_argumentOk harg⟩
    all_goals exact absurd hf' hnot
  | traps ha ht => exact absurd (noFault_of_admitted ha (ht.passesGate_eq_false ha)) hnot

/-! ### The cause table (R231) -/

/-- The columns `raised by` and `when` of R231: the commands that raise a cause, and the state in which they do. -/
def CauseCondition (a : Arch) (i : Instr) : Cause → Prop
  | .faulted => a.fault = true ∧ i ≠ .clear ∧ isRead i = false
  | .illegalCommand => False
  | .badArgument =>
    (∃ r, i = .rdreg r ∧ 12 < r.toNat) ∨ ∃ n, (i = .rdnw n ∨ i = .rdnc n) ∧ a.nnode.toNat ≤ n.toNat
  | .phaseError => a.phase ∉ legalPhases i.mnemonic
  | .misaligned => a.half = true ∧ ∃ sym, i = .cnth sym ∨ i = .ench sym
  | .sourceUnavailable => i = .srcerr
  | .emptyInput => i = .build ∧ a.kdist = 0
  | .lookupFailure => ∃ sym, a.clenAt sym = 0 ∧
      (i = .ench sym ∨ ∃ b, i = .encb b ∧ a.half = true ∧ sym = pairBytes a.hold b)
  | .countOverflow =>
    (a.nsym.toNat = Config.cntMax ∧ ((∃ sym, i = .cnth sym) ∨ ∃ b, i = .cntb b ∧ a.half = true)) ∨
    (a.nenc.toNat = Config.cntMax ∧ ((∃ sym, i = .ench sym) ∨ ∃ b, i = .encb b ∧ a.half = true))
  | .codeOverflow => i = .gencode ∧ ∃ cs, codes a = some cs ∧ Config.codeW < longest cs

section CauseTable

variable {a : Arch} {i : Instr} {c : Cause} {tr : Trap}

theorem causeCondition_badArgument (h : argumentOk i a = false) : CauseCondition a i .badArgument := by
  cases i with
  | rdreg r => exact .inl ⟨r, rfl, Nat.lt_of_not_le (of_decide_eq_false h)⟩
  | rdnw n => exact .inr ⟨n, .inl rfl, Nat.le_of_not_lt (of_decide_eq_false h)⟩
  | rdnc n => exact .inr ⟨n, .inr rfl, Nat.le_of_not_lt (of_decide_eq_false h)⟩
  | _ => cases h

theorem causeCondition_misaligned (hh : a.half = true) (hw : isWholeSymbolPush i = true) :
    CauseCondition a i .misaligned := by
  cases i with
  | cnth sym => exact ⟨hh, sym, .inl rfl⟩
  | ench sym => exact ⟨hh, sym, .inr rfl⟩
  | _ => cases hw

/-- A failed check is one that the table lists. -/
theorem causeCondition_of_refused (h : admission i a = some c) : CauseCondition a i c := by
  rcases admission_some h with ⟨rfl, hf, hg⟩ | ⟨rfl, harg⟩ | ⟨rfl, -, hl⟩ | ⟨rfl, -, -, hw, hh⟩
  · exact ⟨hf, passesGate_eq_false_iff.mp hg⟩
  · exact causeCondition_badArgument harg
  · exact fun hmem => absurd (hl.symm.trans (mem_legalPhases_iff.mp hmem)) (by decide)
  · exact causeCondition_misaligned hh hw

/-- A fault of execution is one that the table lists. -/
theorem Traps.causeCondition (ht : Traps a i tr) (ha : admission i a = none) : CauseCondition a i tr.cause := by
  cases ht with
  | srcerr => exact rfl
  | emptyInput hk => exact ⟨rfl, hk⟩
  | codeOverflow cs hc hl => exact ⟨rfl, cs, hc, hl⟩
  | cntbOverflow b hh hn => exact .inl ⟨hn, .inr ⟨b, rfl, hh⟩⟩
  | cnthOverflow sym hn => exact .inl ⟨hn, .inl ⟨sym, rfl⟩⟩
  | encbLookup b hh hl => exact ⟨_, hl, .inr ⟨b, rfl, hh, rfl⟩⟩
  | encbOverflow b hh _ hn => exact .inr ⟨hn, .inr ⟨b, rfl, hh⟩⟩
  | enchLookup sym hl => exact ⟨sym, hl, .inl rfl⟩
  | enchOverflow sym _ hn => exact .inr ⟨hn, .inl ⟨sym, rfl⟩⟩
  | rdreg reg hcsr => cases (Traps.rdreg reg hcsr).passesGate_eq_false ha

theorem Raises.causeCondition (h : Raises a i tr) : CauseCondition a i tr.cause := by
  cases h with
  | refused hc => exact causeCondition_of_refused hc
  | traps ha ht => exact ht.causeCondition ha

end CauseTable

theorem Cause.code_injective : Function.Injective Cause.code := by
  intro c c' h
  cases c <;> cases c' <;> simp [Cause.code] at h ⊢

/-- A command that answers a cause meets the cause's condition. -/
theorem causeCondition_of_lastErr {i : Instr} {s t : State} (h : exec i s = .next t) {c : Cause}
    (he : t.lastErr = c.code) : CauseCondition s.arch i c := by
  rcases exec_executes_or_raises h with ⟨-, a, d, -, rfl⟩ | ⟨tr, hr, rfl⟩
  · exact absurd he.symm c.code_ne_zero
  · rw [← Cause.code_injective he]
    exact hr.causeCondition

/-- Settles O21: each code is a cause's, whose condition is the listed one. -/
theorem everyErrorCodeHasItsCause : Obligations.EveryErrorCodeHasItsCause := by
  unfold Obligations.EveryErrorCodeHasItsCause
  intro i s t h
  exact ⟨causeCondition_of_lastErr h (c := .faulted), causeCondition_of_lastErr h (c := .illegalCommand),
    causeCondition_of_lastErr h (c := .badArgument), causeCondition_of_lastErr h (c := .phaseError),
    causeCondition_of_lastErr h (c := .misaligned), causeCondition_of_lastErr h (c := .sourceUnavailable),
    causeCondition_of_lastErr h (c := .emptyInput), causeCondition_of_lastErr h (c := .lookupFailure),
    causeCondition_of_lastErr h (c := .countOverflow), causeCondition_of_lastErr h (c := .codeOverflow)⟩

/-! ### The faults that a word raises -/

/-- `RaisedByWord a w tr`: in `a` the word `w` raises `tr`, as no command or by the command it encodes. -/
inductive RaisedByWord (a : Arch) (w : Word) : Trap → Prop where
  | illegal {e : Illegal} : decode w = .error e → RaisedByWord a w ⟨.illegalCommand, w⟩
  | command {i : Instr} {tr : Trap} : decode w = .ok i → Raises a i tr → RaisedByWord a w tr

section Word

variable {s t : State} {w : Word} {rest : List HostMove}

/-- A word offered is a command that executes, or it raises a fault. -/
theorem step_executes_or_raises (hs : s.inbox = .command w :: rest) (h : step s = .next t) :
    (∃ i a d, decode w = .ok i ∧ Executes s.arch i a d ∧
      t = State.respond 0 d { arch := a, inbox := rest, responses := s.responses }) ∨
    (∃ tr, RaisedByWord s.arch w tr ∧ t = State.raiseFault tr { s with inbox := rest }) := by
  rw [step_command hs, runWord] at h
  cases hd : decode w with
  | error e =>
    rw [hd] at h
    exact .inr ⟨_, .illegal hd, (Host.Outcome.next.inj h).symm⟩
  | ok i =>
    rw [hd] at h
    rcases exec_executes_or_raises h with ⟨-, a, d, he, rfl⟩ | ⟨tr, hr, rfl⟩
    · exact .inl ⟨i, a, d, rfl, he, rfl⟩
    · exact .inr ⟨tr, .command hd hr, rfl⟩

/-- An error answered is a fault raised. -/
theorem step_raises_of_lastErr_ne_zero (hs : s.inbox = .command w :: rest) (h : step s = .next t)
    (he : t.lastErr ≠ 0) : ∃ tr, RaisedByWord s.arch w tr ∧ t = State.raiseFault tr { s with inbox := rest } := by
  rcases step_executes_or_raises hs h with ⟨i, a, d, -, -, rfl⟩ | hr
  · exact absurd rfl he
  · exact hr

end Word

/-- Settles O17: the step raised a fault, and fault entry writes the fault record alone. -/
theorem failedCommandChangesOnlyTheFaultRecord : Obligations.FailedCommandChangesOnlyTheFaultRecord := by
  unfold Obligations.FailedCommandChangesOnlyTheFaultRecord
  intro s t w rest hs h he
  obtain ⟨tr, -, rfl⟩ := step_raises_of_lastErr_ne_zero hs h he
  exact ⟨recordFault_rest tr s.arch, rfl, recordFault_fault tr s.arch⟩

/-- Settles O18: the record is kept, and the word is illegal or a command that raises one of two causes. -/
theorem firstFaultIsKept : Obligations.FirstFaultIsKept := by
  unfold Obligations.FirstFaultIsKept
  intro s t w rest hs h hf he
  obtain ⟨tr, hr, rfl⟩ := step_raises_of_lastErr_ne_zero hs h he
  refine ⟨recordFault_of_fault tr hf, ?_⟩
  rw [raiseFault_lastErr]
  cases hr with
  | illegal hd => exact .inr (.inl ⟨rfl, _, hd⟩)
  | command hd hr =>
    rcases hr.cause_of_fault hf with ⟨hc, hi⟩ | ⟨hc, hi⟩ <;> rw [hc]
    · exact .inl ⟨rfl, _, hd, hi⟩
    · exact .inr (.inr ⟨rfl, _, hd, hi⟩)

/-! ### The information word (R232) -/

section Info

variable {a : Arch} {i : Instr} {tr : Trap} {w : Word}

/-- LookupFailure has the symbol as its information. -/
theorem Traps.info_of_lookupFailure (ht : Traps a i tr) (hc : tr.cause = .lookupFailure) :
    ∃ sym : Sym, tr.info = sym.setWidth 32 ∧ a.clenAt sym = 0 ∧
      (i = .ench sym ∨ ∃ b, i = .encb b ∧ sym = a.hold ++ b) := by
  cases ht with
  | encbLookup b hh hl => exact ⟨_, rfl, hl, .inr ⟨b, rfl, rfl⟩⟩
  | enchLookup sym hl => exact ⟨sym, rfl, hl, .inl rfl⟩
  | _ => cases hc

theorem Traps.info_of_ne_lookupFailure (ht : Traps a i tr) (hc : tr.cause ≠ .lookupFailure) :
    tr.info = encode i := by
  cases ht with
  | encbLookup | enchLookup => exact absurd rfl hc
  | _ => rfl

/-- No check of R87 answers LookupFailure. -/
theorem admission_ne_lookupFailure : admission i a ≠ some .lookupFailure := by
  intro h
  rcases admission_some h with ⟨hc, -⟩ | ⟨hc, -⟩ | ⟨hc, -⟩ | ⟨hc, -⟩ <;> cases hc

theorem RaisedByWord.info_of_lookupFailure (h : RaisedByWord a w tr) (hc : tr.cause = .lookupFailure) :
    ∃ sym : Sym, tr.info = sym.setWidth 32 ∧ a.clenAt sym = 0 ∧
      (decode w = .ok (.ench sym) ∨ ∃ b, decode w = .ok (.encb b) ∧ sym = a.hold ++ b) := by
  cases h with
  | illegal => cases hc
  | command hd hr =>
    cases hr with
    | refused ha => exact absurd (ha.trans (congrArg some hc)) admission_ne_lookupFailure
    | traps _ ht =>
      obtain ⟨sym, hinfo, hl, rfl | ⟨b, rfl, hsym⟩⟩ := ht.info_of_lookupFailure hc
      · exact ⟨sym, hinfo, hl, .inl hd⟩
      · exact ⟨sym, hinfo, hl, .inr ⟨b, hd, hsym⟩⟩

/-- Every other cause has the command word as its information. -/
theorem RaisedByWord.info_of_ne_lookupFailure (h : RaisedByWord a w tr) (hc : tr.cause ≠ .lookupFailure) :
    tr.info = w := by
  cases h with
  | illegal => rfl
  | command hd hr =>
    obtain rfl := decode_eq_ok_iff.mp hd
    cases hr with
    | refused => rfl
    | traps _ ht => exact ht.info_of_ne_lookupFailure hc

/-- A cause of one command has that command's word as its information. -/
theorem RaisedByWord.info_of_cause (h : RaisedByWord a w tr) {c : Cause} (hi : ∀ j, CauseCondition a j c → j = i)
    (hc : c ≠ .illegalCommand) (hc' : c ≠ .lookupFailure) (hcode : tr.cause.code = c.code) :
    tr.info = encode i := by
  obtain rfl := Cause.code_injective hcode
  rw [h.info_of_ne_lookupFailure hc']
  cases h with
  | illegal => exact absurd rfl hc
  | command hd hr =>
    rw [← hi _ hr.causeCondition]
    exact (decode_eq_ok_iff.mp hd).symm

end Info

/-- FAULT is written by no execution but that of CLEAR. -/
theorem Executes.fault_eq {a a' : Arch} {i : Instr} {d : Data} (he : Executes a i a' d) (hi : i ≠ .clear) :
    a'.fault = a.fault := by
  cases he with
  | clear => exact absurd rfl hi
  | gencode cs =>
    obtain ⟨l, b, hw⟩ := writeCodes_frame cs a
    rw [hw]
  | _ => rfl

theorem Executes.noFault {a a' : Arch} {i : Instr} {d : Data} (he : Executes a i a' d) (hf : a.fault = false) :
    a'.fault = false := by
  rcases eq_or_ne i .clear with rfl | hi
  · cases he
    rfl
  · exact (he.fault_eq hi).trans hf

/-- Settles O20: the step raised a fault, whose cause and information are recorded. -/
theorem faultInformationWord : Obligations.FaultInformationWord := by
  unfold Obligations.FaultInformationWord
  intro s t w rest hs h hf hf'
  rcases step_executes_or_raises hs h with ⟨i, a, d, -, he, rfl⟩ | ⟨tr, hr, rfl⟩
  · exact absurd ((he.noFault hf).symm.trans hf') (by decide)
  · rw [raiseFault_of_noFault (s := { s with inbox := rest }) tr hf]
    refine ⟨rfl, fun hc => hr.info_of_ne_lookupFailure fun h => hc (congrArg Cause.code h), ?_, ?_, ?_,
      fun hc => hr.info_of_lookupFailure (Cause.code_injective hc)⟩
    · exact hr.info_of_cause (i := .build) (fun _ hj => hj.1) nofun nofun
    · exact hr.info_of_cause (i := .srcerr) (fun _ hj => hj) nofun nofun
    · exact hr.info_of_cause (i := .gencode) (fun _ hj => hj.1) nofun nofun

/-! ### The faulted state (R236, R238) -/

/-- A read with its argument in range executes. -/
theorem exists_executes_of_isRead {i : Instr} {a : Arch} (hi : isRead i = true) (ha : argumentOk i a = true) :
    ∃ d, Executes a i a d := by
  cases i with
  | rdreg r =>
    obtain ⟨v, hv⟩ := csr_isSome (a := a) (of_decide_eq_true ha)
    exact ⟨v, .rdreg r v hv⟩
  | rdfreq sym => exact ⟨_, .rdfreq sym⟩
  | rdclen sym => exact ⟨_, .rdclen sym⟩
  | rdcode sym => exact ⟨_, .rdcode sym⟩
  | rdnw n => exact ⟨_, .rdnw n⟩
  | rdnc n => exact ⟨_, .rdnc n⟩
  | _ => cases hi

/-- The ranges of R87 step 3, from the two that bound an argument. -/
theorem argumentOk_of_ranges {i : Instr} {a : Arch} (hreg : ∀ r, i = .rdreg r → r.toNat ≤ 12)
    (hnode : ∀ n, i = .rdnw n ∨ i = .rdnc n → n.toNat < a.nnode.toNat) : argumentOk i a = true := by
  cases i with
  | rdreg r => exact decide_eq_true (hreg r rfl)
  | rdnw n => exact decide_eq_true (hnode n (.inl rfl))
  | rdnc n => exact decide_eq_true (hnode n (.inr rfl))
  | _ => rfl

/-- Settles O12: the gate refuses all but CLEAR and the reads, which execute. -/
theorem faultedGate : Obligations.FaultedGate := by
  unfold Obligations.FaultedGate
  intro s hf
  refine ⟨by simp [Arch.ratioOk, hf], fun i hi hread => ?_, exec_clear s, fun i hread hreg hnode => ?_⟩
  · have hg : passesGate i = false := passesGate_eq_false_iff.mpr ⟨hi, hread⟩
    rw [exec_of_refused (admission_faulted hf hg), raiseFault_of_fault _ hf]
    rfl
  · have harg := argumentOk_of_ranges hreg hnode
    obtain ⟨d, he⟩ := exists_executes_of_isRead hread harg
    exact ⟨d, exec_of_isRead hread harg he⟩

/-- The only command that takes FAULT from 1 to 0 is CLEAR. -/
theorem eq_clear_of_leaves_fault {i : Instr} {s t : State} (h : exec i s = .next t) (hf : s.arch.fault = true)
    (hf' : t.arch.fault = false) : i = .clear := by
  rcases exec_executes_or_raises h with ⟨-, a, d, he, rfl⟩ | ⟨tr, -, rfl⟩
  · by_contra hi
    exact absurd (hf.symm.trans ((he.fault_eq hi).symm.trans hf')) (by decide)
  · exact absurd ((recordFault_fault tr s.arch).symm.trans hf') (by decide)

theorem step_abandoned {s : State} {w : Word} {rest : List HostMove} (h : s.inbox = .abandoned w :: rest) :
    step s = .next (State.clearRun { s with inbox := rest }) := by
  rw [step, nextMove_some h]
  rfl

/-- The word of CLEAR, offered in any state, is CLEAR (R88). -/
theorem step_clear {s : State} {rest : List HostMove} (h : s.inbox = .command 0x01000000 :: rest) :
    step s = .next (State.respond 0 0 { arch := Arch.reset, inbox := rest, responses := s.responses }) := by
  rw [stepRunsTheDecodedCommand s _ rest .clear h (decode_eq_ok_iff.mpr rfl), exec_clear]

/-- Settles O19: of the ways a step can go, waiting and a fault keep FAULT = 1, and so does every command but CLEAR. -/
theorem onlyClearOrResetLeavesFaultedState : Obligations.OnlyClearOrResetLeavesFaultedState := by
  unfold Obligations.OnlyClearOrResetLeavesFaultedState
  refine ⟨fun s t h hf hf' => ?_, fun s m rest hs _ hm => ?_⟩
  · rcases step_cases h with ⟨-, rfl⟩ | ⟨rest, hs | ⟨w, hs⟩, -⟩ | ⟨w, rest, i, hs, hd, hx⟩ |
      ⟨w, rest, e, -, -, rfl⟩
    · exact absurd (hf.symm.trans hf') (by decide)
    · exact ⟨_, rest, hs, .inl rfl⟩
    · exact ⟨_, rest, hs, .inr (.inl ⟨w, rfl⟩)⟩
    · obtain rfl := eq_clear_of_leaves_fault hx hf hf'
      obtain rfl := decode_eq_ok_iff.mp hd
      exact ⟨_, rest, hs, .inr (.inr rfl)⟩
    · exact absurd ((recordFault_fault _ s.arch).symm.trans hf') (by decide)
  · rcases hm with rfl | ⟨w, rfl⟩ | rfl
    · exact ⟨_, step_reset hs, rfl⟩
    · exact ⟨_, step_abandoned hs, rfl⟩
    · exact ⟨_, step_clear hs, rfl⟩

end Sys2Proof.Machine
end

section
/-! PROOF. Reset and waiting: a move that resets clears the run, and with no move to come the step keeps the state
(spec/70_reset_and_hazards.md R260, R261, R264). -/

namespace Sys2Proof.Machine

theorem nextMove_none {s : State} (h : s.inbox = []) : nextMove s = none := by simp [nextMove, h]

theorem step_waits {s : State} (h : s.inbox = []) : step s = .next s := by
  rw [step, nextMove_none h]
  rfl

/-- Settles O9: a reset and an abandoned command both clear the run, and with no move to come the step waits. -/
theorem resetAndWait : Obligations.ResetAndWait := by
  unfold Obligations.ResetAndWait
  refine ⟨fun s rest hs => ?_, fun s hs => step_waits hs⟩
  rcases hs with hs | ⟨w, hs⟩
  · exact step_reset hs
  · exact step_abandoned hs

end Sys2Proof.Machine
end
